-- ==== Sys2Proof/Word.lean ====
section
/-! DEFINITION. The word types of the block: its bits, bytes, register words, symbols and Codes (R7, R14). -/

namespace Sys2Proof

/-- A Bit, 0 or 1 (R14). A bit string is a list, first bit first (R11). -/
abbrev Bit := Bool

/-- A Byte, 0 .. 255: BYTE_W = 8 (R7, R14). -/
abbrev Byte := BitVec 8

/-- The width of the four registers (R31). -/
abbrev Word := BitVec 32

/-- A Symbol, 0 .. 256: NSYM = 257 (R7, R14). -/
abbrev Symbol := Fin 257

/-- A Code: a finite, possibly empty, sequence of bits, in path order, root end first (R14, R78). -/
abbrev Code := List Bit

/-- EOFSYM = 256, the synthetic end-of-stream symbol (R7). -/
abbrev eofSym : Symbol := 256

end Sys2Proof
end

