-- ==== Sys2Proof/Machine/Data.lean ====
section
/-! DEFINITION. The data model: trees, queue entries, the sequencer's phases, port transactions and the two queues of
inputs (R9, R14, R18, R22, R23, R25, R42). -/

namespace Sys2Proof.Machine

/-- A Tree: a leaf carries a symbol and a weight, an internal node exactly two children and a weight (R14, R18). -/
inductive Tree where
  | leaf (sym : Symbol) (w : Nat)
  | internal (left right : Tree) (w : Nat)
  deriving DecidableEq, Repr, Inhabited

/-- The weight of a node (R14). -/
def Tree.weight : Tree → Nat
  | .leaf _ w => w
  | .internal _ _ w => w

/-- An entry (w, seq, t) of the builder's priority ordering (R22). -/
structure QEntry where
  w : Nat
  seq : Nat
  t : Tree
  deriving DecidableEq, Repr, Inhabited

/-- The result of a read transaction: a value, or the out-of-band END (R13, R49). -/
inductive Read (α : Type) where
  | val (x : α)
  | END
  deriving DecidableEq, Repr, Inhabited

/-- An entry of `stk`, what a recursive descent still has to do at one level (R23, R24; assumption 8). -/
inductive StkEntry where
  /-- A pending subtree of TSER. -/
  | sub (t : Tree)
  /-- TSER: the marker of a leaf is written, its symbol is not. -/
  | sym (s : Symbol)
  /-- TDES: an internal node whose left child is being parsed. -/
  | needLeft
  /-- TDES: an internal node whose left child is `l` and whose right child is being parsed. -/
  | needRight (l : Tree)
  deriving DecidableEq, Repr

/-- The sequencer's phases (R25). -/
inductive Phase where
  | idle | fcScan | tbInit | tbMerge | cdWalk | seMagic | tsWalk | seRewind | sePayload | seEofcode
  | mgCheck | tdWalk | sdOuter | sdWalk | halt
  deriving DecidableEq, Repr

/-- The command state st (R37). -/
inductive CmdState where
  | idle | busy | done | fault
  deriving DecidableEq, Repr

/-- STATUS[1:0] (R33). -/
def CmdState.code : CmdState → Nat
  | .idle => 0
  | .busy => 1
  | .done => 2
  | .fault => 3

/-- The four ports (R42). -/
inductive Port where
  | src | bin | bout | dst
  deriving DecidableEq, Repr

/-- The port's number in an IOFailure (R48). -/
def Port.number : Port → Nat
  | .src => 0
  | .bin => 1
  | .bout => 2
  | .dst => 3

/-- The port transactions (R9, R44 to R47). -/
inductive Txn where
  | srcRead
  | srcRewind
  | binReadBit
  | binReadBits (n : Nat)
  | binHasMoreBits
  | boutWriteBit (b : Bit)
  | boutWriteBits (v n : Nat)
  | dstWrite (y : Byte)
  deriving DecidableEq, Repr

/-- The port of a transaction. -/
def Txn.port : Txn → Port
  | .srcRead => .src
  | .srcRewind => .src
  | .binReadBit => .bin
  | .binReadBits _ => .bin
  | .binHasMoreBits => .bin
  | .boutWriteBit _ => .bout
  | .boutWriteBits _ _ => .bout
  | .dstWrite _ => .dst

/-- What an answered transaction returns (R44 to R47). -/
inductive Result where
  | byte (y : Read Byte)
  | bit (b : Read Bit)
  | nat (v : Read Nat)
  | flag (more : Bool)
  | done
  deriving DecidableEq, Repr

/-- One answer of the collaborator (R48, R166; assumption 3): the result, a failure, or not yet. -/
inductive Answer where
  | ok
  | fail
  | hold
  deriving DecidableEq, Repr

/-- One action of the host (R10b, R31, R36, R167, R169; assumptions 4, 18, 22, 24, 25). -/
inductive HostAct where
  /-- The host does nothing while the block runs under the answers still to come. -/
  | pass
  /-- The host does nothing for one step of the block: one transaction or one internal update (R9). -/
  | tick
  /-- A write of `x` to register `n`. -/
  | write (n : Fin 4) (x : Word)
  /-- A read of register `n`: its value is `State.readReg`, it has no side effect. -/
  | read (n : Fin 4)
  /-- A write at a bus address, where the platform maps the registers at CSR_BASE + 4 n. -/
  | busWrite (addr : Nat) (x : Word)
  /-- A read at a bus address. -/
  | busRead (addr : Nat)
  /-- The reset input. -/
  | reset
  /-- Supply SRC with these bytes, at this position. -/
  | setSrc (bytes : List Byte) (pos : Nat)
  /-- Supply BIN with these bits, at this position; no effect while BUSY (R169, R180). -/
  | setBin (bits : List Bit) (pos : Nat)
  /-- Collect BOUT, leaving it empty; no effect while BUSY (R61 (b), R169). -/
  | takeBout
  /-- Collect DST, leaving it empty; no effect while BUSY (R61 (b), R169). -/
  | takeDst
  deriving DecidableEq, Repr

/-- The fault classes (R152). -/
inductive FaultClass where
  | ioFailure | invalidFormat | corruptHeader | corruptStream | usageError | internalConsistency
  deriving DecidableEq, Repr

/-- The cause code of a class (R152). -/
def FaultClass.code : FaultClass → Nat
  | .ioFailure => 1
  | .invalidFormat => 2
  | .corruptHeader => 3
  | .corruptStream => 4
  | .usageError => 5
  | .internalConsistency => 6

/-- The units, each with the command that runs it alone (R2). -/
inductive UnitCmd where
  | fcnt | tbld | ctdr | tser | tdes | senc | mchk | sdec
  deriving DecidableEq, Repr

/-- The opcode of the command that runs the unit alone (R68). -/
def UnitCmd.opcode : UnitCmd → BitVec 4
  | .fcnt => 0x3
  | .tbld => 0x4
  | .ctdr => 0x5
  | .tser => 0x6
  | .tdes => 0x7
  | .senc => 0x8
  | .sdec => 0x9
  | .mchk => 0xA

/-- The elements that reset (R40) and a fault (R162) leave unspecified: the three tables, the builder's ordering and
the working registers (R17, R18, R21 to R23). -/
structure Tables where
  /-- FT[0 .. 255]; a counter equal to 0 means the key is absent (R17). -/
  ft : Vector Nat 256
  /-- TREE (R18). -/
  tree : Tree
  /-- CT[0 .. 256]; the empty Code is a value, different from none (R21). -/
  ct : Vector (Option Code) 257
  /-- Q, the finite set of entries, listed in the order of R90 (R22; assumption 9). -/
  q : List QEntry
  /-- The number the next inserted entry will receive (R22). -/
  seq : Nat
  /-- The result of the last `SRC.read()`. -/
  r : Read Byte
  /-- The result of the last `BIN.readBit()`. -/
  b : Read Bit
  /-- The result of the last `BIN.readBits(n)`. -/
  v : Read Nat
  /-- The node reached by the current walk, as the subtree there (assumption 8). -/
  cur : Tree
  /-- The accumulated bit path. -/
  path : Code
  /-- What the recursive descent still has to do. -/
  stk : List StkEntry
  /-- Nodes allocated so far. -/
  nnodes : Nat
  /-- The first-removed entry of a merge. -/
  a : QEntry
  /-- The second-removed entry of a merge. -/
  c : QEntry
  /-- Index of the next Code bit to write. -/
  k : Nat
  deriving DecidableEq, Repr, Inhabited

/-- The value the model names for `Tables` at reset, where the spec gives none: zeros (assumption 1). -/
def Tables.zero : Tables where
  ft := Vector.replicate 256 0
  tree := .leaf 0 0
  ct := Vector.replicate 257 none
  q := []
  seq := 0
  r := .val 0
  b := .val false
  v := .val 0
  cur := .leaf 0 0
  path := []
  stk := []
  nnodes := 0
  a := ⟨0, 0, .leaf 0 0⟩
  c := ⟨0, 0, .leaf 0 0⟩
  k := 0

end Sys2Proof.Machine
end

