-- ==== Sys2Proof/Config.lean ====
section
/-! DEFINITION. What is fixed for one block, and the values the spec leaves free (R7, R39, R162). -/

namespace Sys2Proof.Config

/-- MAGIC, 1846 = 0x00000736 (R7, R72). -/
def magic : Word := 1846

/-- NODE_CAP (R7). -/
def nodeCap : Nat := 513

/-- CODE_MAX (R7). -/
def codeMax : Nat := 256

/-- The parameters that are arguments of the step relation (R7, R39; assumption 10). -/
structure Params where
  /-- The magic constant, a 32-bit value (R72). -/
  magic : Word
  /-- The largest number of tree nodes TREE can hold; `none` is unbounded. -/
  nodeCap : Option Nat
  /-- W, the width in bits of a count or a weight; `none` is unbounded (R12, R86, R94). -/
  width : Option Nat
  /-- Where the platform maps the four registers; `none` is direct wires (R31; assumption 22). -/
  csrBase : Option Nat
  deriving DecidableEq, Repr

/-- The values this hardware takes (R7). -/
def params : Params where
  magic := magic
  nodeCap := some nodeCap
  width := none
  csrBase := none

/-- The values R7 allows: NODE_CAP is any natural ≥ 513, or unbounded; the others are free. -/
def Params.legal (p : Params) : Bool :=
  match p.nodeCap with
  | none => true
  | some cap => decide (513 ≤ cap)

/-- FREE VALUE. What the tables and the working registers hold after a fault: "become unspecified" (R162). One value
for each fault taken; nothing is known of it (assumption 2). -/
opaque unspecifiedTables : Nat → Machine.Tables

end Sys2Proof.Config
end

