-- ==== Sys2Proof/Machine/Operands.lean ====
section
/-! DEFINITION. The operand forms: multi-bit fields as bit strings, most significant bit first (R11, R52), symbols and
bytes (R47), and the entries of the two tables (R17, R21). The streams a command uses are implicit (R67). -/

namespace Sys2Proof.Machine

/-- `bin_n(v)`: the n binary digits of v, most significant first (R11). -/
def toBits : Nat → Nat → List Bit
  | 0, _ => []
  | n + 1, v => v.testBit n :: toBits n v

/-- The natural whose `bin_n` is the given string: the first bit is the most significant (R45). -/
def ofBits (bits : List Bit) : Nat :=
  bits.foldl (fun v b => 2 * v + b.toNat) 0

/-- A byte as a symbol (R14). -/
def symbolOfByte (y : Byte) : Symbol := ⟨y.toNat, by have := y.isLt; omega⟩

/-- The byte written for a symbol 0 .. 255: the symbol value itself (R47). -/
def byteOfSymbol (s : Symbol) : Byte := BitVec.ofNat 8 s.val

/-- A value in 0 .. 256 as a symbol; `none` is out of range (R77, R103). -/
def symbolOfNat (v : Nat) : Option Symbol :=
  if h : v < 257 then some ⟨v, h⟩ else none

/-- FT[y] (R17). -/
def ftAt (ft : Vector Nat 256) (y : Byte) : Nat := ft[y.toNat]'y.isLt

/-- FT[y] <- FT[y] + 1, exact (R86). -/
def ftIncr (ft : Vector Nat 256) (y : Byte) : Vector Nat 256 :=
  ft.set y.toNat (ftAt ft y + 1) y.isLt

/-- A count or a weight below 2^W; with W unbounded every one is (R7, R86, R94). -/
def widthFits (width : Option Nat) (n : Nat) : Bool :=
  match width with
  | none => true
  | some w => decide (n < 2 ^ w)

/-- CT[s] (R21). -/
def ctAt (ct : Vector (Option Code) 257) (s : Symbol) : Option Code := ct[s.val]

/-- CT[s] <- code (R109). -/
def ctSet (ct : Vector (Option Code) 257) (s : Symbol) (code : Code) : Vector (Option Code) 257 :=
  ct.set s.val (some code)

end Sys2Proof.Machine
end

