-- ==== Sys2Proof/Syntax.lean ====
section
/-! DEFINITION. The instructions: one constructor per row of spec/opcode_table.json (R67 to R69, R72, R74, R75).
The ten commands and the six reserved opcodes take no operand (R67). The last three are the table's rows of kind
"data format, not a command": the fields the decode side takes from BIN (assumption 7). -/

namespace Sys2Proof

inductive Instr where
  /-- 0x1, all encode-side units (R123). -/
  | encode
  /-- 0x2, all decode-side units (R138). -/
  | decode
  /-- 0x3, frequency_counter (R83). -/
  | fcnt
  /-- 0x4, huffman_tree_builder (R89). -/
  | tbld
  /-- 0x5, code_table_deriver (R109). -/
  | ctdr
  /-- 0x6, tree_serializer (R99). -/
  | tser
  /-- 0x7, tree_deserializer (R101). -/
  | tdes
  /-- 0x8, the stream encoder (R116). -/
  | senc
  /-- 0x9, the stream decoder (R129). -/
  | sdec
  /-- 0xA, the decode gate (R126). -/
  | mchk
  /-- 0x0, reserved (R69). -/
  | reserved0
  /-- 0xB, reserved (R69). -/
  | reservedB
  /-- 0xC, reserved (R69). -/
  | reservedC
  /-- 0xD, reserved (R69). -/
  | reservedD
  /-- 0xE, reserved (R69). -/
  | reservedE
  /-- 0xF, reserved (R69). -/
  | reservedF
  /-- The 32-bit magic field, value 1846 (R72). -/
  | fileMagic
  /-- The internal-node marker 1 (R75). -/
  | fileNodeInternal
  /-- The leaf field: marker 0, then the 9-bit symbol value (R74). -/
  | fileNodeLeaf (v : BitVec 9)
  deriving DecidableEq, Repr

end Sys2Proof
end

