-- ==== Sys2Proof/WellFormed.lean ====
section
/-! DEFINITION. Which instruction terms stand for an encoding the format allows. -/

namespace Sys2Proof

/-- The 9-bit field of a leaf can hold 0 .. 511; the format uses only 0 .. 256 (R77). -/
def symbolFieldOk (v : BitVec 9) : Bool := decide (v.toNat ≤ 256)

/-- Every operand has a value the encoding admits. Only the leaf field has an operand (R67, R77). -/
def Instr.wf : Instr → Bool
  | .encode => true
  | .decode => true
  | .fcnt => true
  | .tbld => true
  | .ctdr => true
  | .tser => true
  | .tdes => true
  | .senc => true
  | .sdec => true
  | .mchk => true
  | .reserved0 => true
  | .reservedB => true
  | .reservedC => true
  | .reservedD => true
  | .reservedE => true
  | .reservedF => true
  | .fileMagic => true
  | .fileNodeInternal => true
  | .fileNodeLeaf v => symbolFieldOk v

end Sys2Proof
end

