-- ==== Sys2Proof/Decode.lean ====
section
/-! DEFINITION. Decoding the command word (R67 to R69) and the fields of the file format (R72 to R77), total, rejecting
by name; and the encoder, written from the same tables. MAGIC, which R7 leaves open, is an argument. Bit strings are
first bit first (R11); in a word of the opcode table the last bit of the string is bit 0. -/

namespace Sys2Proof

open Machine (toBits ofBits)

/-- Where a word is read from: the CMD register, or BIN where MCHK reads the magic or TDES reads a node. -/
inductive Space where
  | command | magic | node
  deriving DecidableEq, Repr

/-- Why a bit string is no instruction of its space. -/
inductive Reject where
  /-- Fewer bits than the command word or the magic field has. -/
  | truncated
  /-- No marker bit (R102). -/
  | truncatedMarker
  /-- Fewer than 9 bits after a 0 marker (R102). -/
  | truncatedSymbol
  /-- A leaf value 257 .. 511 (R103). -/
  | reservedSymbol (v : Nat)
  /-- A 32-bit value other than the magic (R126). -/
  | notMagic (v : Nat)
  deriving DecidableEq, Repr

/-- The opcode map (R68, R69): every 4-bit value is one of the ten commands or reserved. -/
def commandOfOpcode : Nat → Instr
  | 0x0 => .reserved0
  | 0x1 => .encode
  | 0x2 => .decode
  | 0x3 => .fcnt
  | 0x4 => .tbld
  | 0x5 => .ctdr
  | 0x6 => .tser
  | 0x7 => .tdes
  | 0x8 => .senc
  | 0x9 => .sdec
  | 0xA => .mchk
  | 0xB => .reservedB
  | 0xC => .reservedC
  | 0xD => .reservedD
  | 0xE => .reservedE
  | _ => .reservedF

/-- The command a write of `x` to CMD selects: bits [3:0]; bits [31:4] are ignored (R32, R67). -/
def decodeCommand (x : Word) : Instr := commandOfOpcode (x.toNat % 16)

/-- The field at the head of a serialized tree (R73 to R75), or the reason there is none, in the order of R107. -/
def decodeNode : List Bit → Except Reject (Instr × List Bit)
  | [] => .error .truncatedMarker
  | true :: rest => .ok (.fileNodeInternal, rest)
  | false :: rest =>
    if rest.length < 9 then .error .truncatedSymbol
    else
      let v := ofBits (rest.take 9)
      if v ≤ 256 then .ok (.fileNodeLeaf (BitVec.ofNat 9 v), rest.drop 9)
      else .error (.reservedSymbol v)

/-- The magic field (R72, R126, R127). -/
def decodeMagic (magic : Word) (bits : List Bit) : Except Reject (Instr × List Bit) :=
  if bits.length < 32 then .error .truncated
  else
    let v := ofBits (bits.take 32)
    if v = magic.toNat then .ok (.fileMagic, bits.drop 32) else .error (.notMagic v)

/-- A command word as a bit string, bit 31 first. -/
def decodeCommandBits (bits : List Bit) : Except Reject (Instr × List Bit) :=
  if bits.length < 32 then .error .truncated
  else .ok (decodeCommand (BitVec.ofNat 32 (ofBits (bits.take 32))), bits.drop 32)

/-- The instruction at the head of a bit string, and the bits after it. -/
def decode (magic : Word) (space : Space) (bits : List Bit) : Except Reject (Instr × List Bit) :=
  match space with
  | .command => decodeCommandBits bits
  | .magic => decodeMagic magic bits
  | .node => decodeNode bits

/-- The space an instruction is read from. -/
def Instr.space : Instr → Space
  | .fileMagic => .magic
  | .fileNodeInternal => .node
  | .fileNodeLeaf _ => .node
  | .encode => .command
  | .decode => .command
  | .fcnt => .command
  | .tbld => .command
  | .ctdr => .command
  | .tser => .command
  | .tdes => .command
  | .senc => .command
  | .sdec => .command
  | .mchk => .command
  | .reserved0 => .command
  | .reservedB => .command
  | .reservedC => .command
  | .reservedD => .command
  | .reservedE => .command
  | .reservedF => .command

/-- The words of an instruction as a bit string: a command word is its opcode in bits [3:0] under zeros (R67, R68), a
field is as R72, R74 and R75 give it. -/
def encode (magic : Word) : Instr → List Bit
  | .encode => toBits 32 0x1
  | .decode => toBits 32 0x2
  | .fcnt => toBits 32 0x3
  | .tbld => toBits 32 0x4
  | .ctdr => toBits 32 0x5
  | .tser => toBits 32 0x6
  | .tdes => toBits 32 0x7
  | .senc => toBits 32 0x8
  | .sdec => toBits 32 0x9
  | .mchk => toBits 32 0xA
  | .reserved0 => toBits 32 0x0
  | .reservedB => toBits 32 0xB
  | .reservedC => toBits 32 0xC
  | .reservedD => toBits 32 0xD
  | .reservedE => toBits 32 0xE
  | .reservedF => toBits 32 0xF
  | .fileMagic => toBits 32 magic.toNat
  | .fileNodeInternal => [true]
  | .fileNodeLeaf v => false :: toBits 9 v.toNat

/-- The instruction of one row of the opcode table given as a word of `nbits` bits, bit 0 being the last of the row's
string, with MAGIC as the table gives it. A 32-bit word is a command word (R67), but for the one word whose 32 bits are
all fixed by the row FILE.MAGIC (assumption 7); the marker of an internal node is 1 bit, rounded up to 8; a leaf field is
10 bits, rounded up to 16. -/
def decodeTableWord (nbits w : Nat) : Option Instr :=
  let field (n : Nat) (space : Space) : Option Instr :=
    match decode Config.magic space (toBits n w) with
    | .ok (i, []) => some i
    | .ok (_, _ :: _) => none
    | .error _ => none
  match nbits with
  | 32 => if w = Config.magic.toNat then field 32 .magic else field 32 .command
  | 8 => if w < 2 then field 1 .node else none
  | 16 => if w < 1024 then field 10 .node else none
  | _ => none

end Sys2Proof
end

