-- ==== Sys2Proof/Machine/State.lean ====
section
/-! DEFINITION. The state of the block (R16), the four streams (R42), and the inputs the environment still holds;
the state after reset (R40); the reasons a step can stop. -/

namespace Sys2Proof.Machine

/-- The state. `Tables` holds what reset and a fault leave unspecified; the rest has a reset value in R40, but for the
streams, which reset does not touch (R168), and the model's own last five fields. -/
structure State extends Tables where
  /-- Which step of which unit is active (R25). -/
  phase : Phase
  /-- The command state, STATUS[1:0] (R37). -/
  st : CmdState
  /-- STATUS[2]: FT holds the table of a completed FCNT that no TBLD has consumed (R27). -/
  ftValid : Bool
  /-- STATUS[3]: TREE holds a complete tree (R27). -/
  treeValid : Bool
  /-- STATUS[4]: CT holds the table CTDR derived from the TREE now held (R27). -/
  ctValid : Bool
  /-- STATUS[5]: the last SDEC stopped because it decoded the EOF-symbol (R27). -/
  eofSeen : Bool
  /-- CMD[3:0] (R32). -/
  cmd : BitVec 4
  /-- FAULT_CAUSE[7:0]: cause in [3:0], sub-cause in [7:4] (R34). -/
  faultCause : BitVec 8
  /-- FAULT_INFO (R35). -/
  faultInfo : Word
  /-- The bytes of SRC (R42). -/
  src : List Byte
  /-- The read position of SRC (R42). -/
  srcPos : Nat
  /-- The bits of BIN (R42). -/
  bin : List Bit
  /-- The read position of BIN (R42). -/
  binPos : Nat
  /-- The bits written to BOUT (R42). -/
  bout : List Bit
  /-- The bytes written to DST (R42). -/
  dst : List Byte
  /-- MODEL: the transaction issued and not answered yet (R166; assumption 13). -/
  pend : Option Txn
  /-- MODEL: the collaborator's answers still to come (R48; assumption 3). -/
  answers : List Answer
  /-- MODEL: the host's actions still to come (R10; assumption 4). -/
  host : List HostAct
  /-- MODEL: how many free values have been used (R162; assumption 2). -/
  free : Nat
  /-- MODEL: the parameters of the block (R7, R39; assumption 10). -/
  par : Config.Params
  deriving DecidableEq, Repr

/-- Why the machine stops. -/
inductive Fault where
  /-- Raised by the sequencer (Machine/Sequencer.lean and the units it calls) where the running phase would read a
  working register that its command has not written, or where no transaction is issued. R41: "a model that reaches a
  read of an unspecified element has a bug; it should treat such a read as a fault of the model". Safe: no state that a
  run reaches has such a read (assumption 15). -/
  | unspecifiedRead (p : Phase)
  deriving DecidableEq, Repr

/-- Why an instruction has no meaning. -/
inductive Refusal where
  /-- Raised by exec's arm of an instruction that has no meaning yet. Safe. No arm uses it. -/
  | notModelled (mnemonic : String)
  /-- Raised by FCNT where a count, and by TBLD where the root's weight, would reach 2^W for a finite W: U3 gives such an
  input no meaning, "never wrap, never saturate". Safe. Never on this hardware, whose W is unbounded (R7, R86, R94). -/
  | countWidth
  deriving DecidableEq, Repr

/-- The outcome of a step. -/
abbrev Out := Host.Outcome State Fault Refusal

/-- The machine right after power-on reset (R40, R167): st and phase IDLE, flags and registers 0, the block waits for a
CMD write. The values of `Tables.zero` and of the streams are the model's (assumptions 1, 18). -/
def State.reset : State where
  toTables := Tables.zero
  phase := .idle
  st := .idle
  ftValid := false
  treeValid := false
  ctValid := false
  eofSeen := false
  cmd := 0
  faultCause := 0
  faultInfo := 0
  src := []
  srcPos := 0
  bin := []
  binPos := 0
  bout := []
  dst := []
  pend := none
  answers := []
  host := []
  free := 0
  par := Config.params

end Sys2Proof.Machine
end

