-- ==== Sys2Proof/Machine/Flags.lean ====
section
/-! DEFINITION. The four status flags: what each unit requires, clears at its start and sets on success (R27 to R30),
and the STATUS word (R33). -/

namespace Sys2Proof.Machine

/-- The column "requires" of R28. -/
def requires : UnitCmd → State → Bool
  | .fcnt, _ => true
  | .tbld, s => s.ftValid
  | .ctdr, s => s.treeValid
  | .tser, s => s.treeValid
  | .tdes, _ => true
  | .senc, s => s.treeValid && s.ctValid
  | .mchk, _ => true
  | .sdec, s => s.treeValid

/-- The column "at start" of R28; every command also clears eof_seen. -/
def flagsAtStart : UnitCmd → State → State
  | .fcnt, s => { s with eofSeen := false, ftValid := false }
  | .tbld, s => { s with eofSeen := false, treeValid := false, ctValid := false }
  | .ctdr, s => { s with eofSeen := false, ctValid := false }
  | .tser, s => { s with eofSeen := false }
  | .tdes, s => { s with eofSeen := false, treeValid := false, ctValid := false }
  | .senc, s => { s with eofSeen := false }
  | .mchk, s => { s with eofSeen := false }
  | .sdec, s => { s with eofSeen := false }

/-- The column "on success" of R28, but for eof_seen, which SDEC sets where it decodes the EOF-symbol (R129). -/
def flagsOnSuccess : UnitCmd → State → State
  | .fcnt, s => { s with ftValid := true }
  | .tbld, s => { s with treeValid := true, ftValid := false }
  | .ctdr, s => { s with ctValid := true }
  | .tser, s => s
  | .tdes, s => { s with treeValid := true }
  | .senc, s => { s with treeValid := false, ctValid := false }
  | .mchk, s => s
  | .sdec, s => { s with treeValid := false }

/-- STATUS: [1:0] st, [2] ft_valid, [3] tree_valid, [4] ct_valid, [5] eof_seen, [31:6] read 0 (R33). -/
def State.statusWord (s : State) : Word :=
  BitVec.ofNat 32 (s.st.code + 4 * s.ftValid.toNat + 8 * s.treeValid.toNat + 16 * s.ctValid.toNat
    + 32 * s.eofSeen.toNat)

end Sys2Proof.Machine
end

