-- ==== Sys2Proof/Machine/Ops.lean ====
section
/-! DEFINITION. The shared operations: the port transactions (R44 to R48), taking a fault (R162), reset (R167, R168),
the end of a command, the start of a unit (R28, R30), and the host's view of the registers (R31 to R36). -/

namespace Sys2Proof.Machine

/-- Go on with the next state, or stop where the first part stopped. -/
def andThen (o : Out) (f : State → Out) : Out :=
  match o with
  | .next s => f s
  | .fault r => .fault r
  | .refused r => .refused r

/-! ### Port transactions -/

/-- `SRC.read()` (R44). -/
def srcRead (s : State) : Result × State :=
  match s.src[s.srcPos]? with
  | some y => (.byte (.val y), { s with srcPos := s.srcPos + 1 })
  | none => (.byte .END, s)

/-- `SRC.rewind()` (R44). -/
def srcRewind (s : State) : Result × State := (.done, { s with srcPos := 0 })

/-- `BIN.readBit()` (R45). -/
def binReadBit (s : State) : Result × State :=
  match s.bin[s.binPos]? with
  | some b => (.bit (.val b), { s with binPos := s.binPos + 1 })
  | none => (.bit .END, s)

/-- `BIN.readBits(n)` (R45): all n bits, the first the most significant, or END, which moves to the end. -/
def binReadBits (n : Nat) (s : State) : Result × State :=
  if s.binPos + n ≤ s.bin.length then
    (.nat (.val (ofBits ((s.bin.drop s.binPos).take n))), { s with binPos := s.binPos + n })
  else (.nat .END, { s with binPos := s.bin.length })

/-- `BIN.hasMoreBits()` (R45). -/
def binHasMoreBits (s : State) : Result × State := (.flag (decide (s.binPos < s.bin.length)), s)

/-- `BOUT.writeBit(b)` (R46). -/
def boutWriteBit (b : Bit) (s : State) : Result × State := (.done, { s with bout := s.bout ++ [b] })

/-- `BOUT.writeBits(v, n)` (R46). -/
def boutWriteBits (v n : Nat) (s : State) : Result × State :=
  (.done, { s with bout := s.bout ++ toBits n v })

/-- `DST.write(y)` (R47). -/
def dstWrite (y : Byte) (s : State) : Result × State := (.done, { s with dst := s.dst ++ [y] })

/-- A transaction that the collaborator answers: its result, and the stream it moved. -/
def perform : Txn → State → Result × State
  | .srcRead, s => srcRead s
  | .srcRewind, s => srcRewind s
  | .binReadBit, s => binReadBit s
  | .binReadBits n, s => binReadBits n s
  | .binHasMoreBits, s => binHasMoreBits s
  | .boutWriteBit b, s => boutWriteBit b s
  | .boutWriteBits v n, s => boutWriteBits v n s
  | .dstWrite y, s => dstWrite y s

/-- Issue a transaction: the block now waits for its answer (R166). -/
def State.issue (s : State) (t : Txn) : State := { s with pend := some t }

/-- The transaction that was waited for has been answered. -/
def State.answered (s : State) : State := { s with pend := none }

/-! ### Faults and reset -/

/-- `raise F(sub, info)` (R162), with all its effects at once (R13): the command stops; cause, sub and info are recorded; the three valid flags are cleared,
and eof_seen is 0 (assumption 12); phase HALT, st FAULT. The tables and the working registers become unspecified: a free
value (assumption 2). The streams and CMD keep their values. -/
def raise (F : FaultClass) (sub info : Nat) (s : State) : State :=
  { s with
    toTables := Config.unspecifiedTables s.free
    free := s.free + 1
    faultCause := BitVec.ofNat 8 (16 * sub + F.code)
    faultInfo := BitVec.ofNat 32 info
    ftValid := false
    treeValid := false
    ctValid := false
    eofSeen := false
    phase := .halt
    st := .fault
    pend := none }

/-- The reset input (R167, R168): the only way out of FAULT, allowed in any st. Every element of R40 gets its reset
value; the streams, and what the environment still holds, are untouched. A transaction that waits is abandoned and has
had no effect. There is no other return from a fault (R163). -/
def applyReset (s : State) : State :=
  { State.reset with
    src := s.src
    srcPos := s.srcPos
    bin := s.bin
    binPos := s.binPos
    bout := s.bout
    dst := s.dst
    answers := s.answers
    host := s.host
    free := s.free
    par := s.par }

/-! ### Starting and ending -/

/-- `phase <- HALT; st <- DONE`, the last line of every command (R26, R37). -/
def State.finish (s : State) : State := { s with phase := .halt, st := .done, pend := none }

/-- The start of a unit's body: the check of "requires", then the column "at start", then its first phase (R28, R30),
as one update (DESIGN CHOICE, assumption 23). -/
def beginUnit (u : UnitCmd) (body : State → State) (s : State) : State :=
  if requires u s then body (flagsAtStart u s) else raise .usageError 1 u.opcode.toNat s

/-- The opcodes of the two composite commands (R68). -/
def opEncode : BitVec 4 := 0x1

def opDecode : BitVec 4 := 0x2

/-- The end of a unit's body: "on success", then the next part where the running command is the composite `op`, and
otherwise the end of the command (R123, R138). CMD holds the running command (R32; assumption 17). DESIGN CHOICE
(assumption 23): inside ENCODE and DECODE the end of one part and the start of the next are one update, so no read falls
between "on success" of the first and "at start" of the next (ft_valid = tree_valid = ct_valid = 1 after FCNT's); the spec
leaves open whether one can (R9, R36). -/
def endUnit (u : UnitCmd) (op : BitVec 4) (next : State → State) (s : State) : State :=
  if s.cmd = op then next (flagsOnSuccess u s) else (flagsOnSuccess u s).finish

/-- The end of a unit that is the last part of its composite command: its flags, HALT and DONE, as one update (R28;
inside ENCODE and DECODE a DESIGN CHOICE, assumption 23). -/
def endLast (u : UnitCmd) (s : State) : State := (flagsOnSuccess u s).finish

/-! ### The host's view of the registers -/

/-- The value a read of register n returns (R31 to R35). -/
def State.readReg (s : State) (n : Fin 4) : Word :=
  match n with
  | 0 => s.cmd.setWidth 32
  | 1 => s.statusWord
  | 2 => s.faultCause.setWidth 32
  | 3 => s.faultInfo

/-- The register a bus address selects, where the platform maps them at CSR_BASE + 4 n (R31; assumption 22). -/
def State.regOfAddr (s : State) (addr : Nat) : Option (Fin 4) :=
  match s.par.csrBase with
  | none => none
  | some base =>
    if addr = base then some 0
    else if addr = base + 4 then some 1
    else if addr = base + 8 then some 2
    else if addr = base + 12 then some 3
    else none

/-- The value a bus read returns: that of the register the address selects, if it selects one (R31; assumption 22). -/
def State.readBus (s : State) (addr : Nat) : Option Word := (s.regOfAddr addr).map s.readReg

end Sys2Proof.Machine
end

