-- ==== Sys2Proof/Machine/StreamDecoder.lean ====
section
/-! DEFINITION. huffman_decoder, the stream decoder: the body of SDEC (R129 to R137). -/

namespace Sys2Proof.Machine

/-- The end of SDEC, the last part of DECODE. -/
def sdecEnd : State → State := endLast .sdec

/-- SD_OUTER: `BIN.hasMoreBits()` (R129). -/
def sdecOuter (s : State) : State := { s with phase := .sdOuter, pend := some .binHasMoreBits }

/-- The start of SDEC. -/
def sdecStart : State → State := beginUnit .sdec sdecOuter

/-- Where the walk stands: an internal node takes a bit; the EOF-symbol stops the decoder; any other leaf is written
(R129, R133). The byte leaf at the root takes no bit and is written again and again (R136). -/
def sdecWalk (s : State) : State :=
  match s.cur with
  | .internal _ _ _ => s.issue .binReadBit
  | .leaf sym _ =>
    if sym = eofSym then sdecEnd { s with eofSeen := true } else s.issue (.dstWrite (byteOfSymbol sym))

/-- The answer of `hasMoreBits`: walk from the root, or end normally (R129, R132). -/
def sdecMore (more : Bool) (s : State) : State :=
  if more then sdecWalk { s with phase := .sdWalk, cur := s.tree } else sdecEnd s

/-- `b <- BIN.readBit()`: END is inside a Code (R131); bit 0 goes left, bit 1 right (R129). -/
def sdecGot (y : Read Bit) (s : State) : Out :=
  match y with
  | .END => .next (raise .corruptStream 0 0 { s with b := .END })
  | .val b =>
    match s.cur with
    | .internal left right _ => .next (sdecWalk { s with b := .val b, cur := if b then right else left })
    | .leaf _ _ => .fault (.unspecifiedRead .sdWalk)

end Sys2Proof.Machine
end

