-- ==== Sys2Proof/Machine/StreamEncoder.lean ====
section
/-! DEFINITION. huffman_encoder, the stream encoder: the body of SENC but for TS_WALK, which is TSER's (R116 to R122). -/

namespace Sys2Proof.Machine

/-- SE_MAGIC: `BOUT.writeBits(MAGIC, 32)` (R116 step 1). -/
def sencStart : State → State :=
  beginUnit .senc fun s => { s with phase := .seMagic, pend := some (.boutWriteBits s.par.magic.toNat 32) }

/-- The end of SENC, the last part of ENCODE. -/
def sencEnd : State → State := endLast .senc

/-- SE_REWIND: `SRC.rewind()`, after the header (R122). -/
def sencRewind (s : State) : State := { s with phase := .seRewind, pend := some .srcRewind }

/-- The head of SE_PAYLOAD's loop: `r <- SRC.read()`. -/
def sencRead (s : State) : State := { s with phase := .sePayload, pend := some .srcRead }

/-- Bit k of a Code is the next to write; after the last bit, go on with `after` (R116 `put`, R117). -/
def putBit (code : Code) (after : State → State) (k : Nat) (s : State) : State :=
  match code[k]? with
  | some b => { s with k := k, pend := some (.boutWriteBit b) }
  | none => after { s with k := k }

/-- `put(sym)`: the none check comes before any bit (R116, R119, R161). -/
def put (sym : Symbol) (after : State → State) (s : State) : State :=
  match ctAt s.ct sym with
  | none => raise .internalConsistency 0 sym.val s
  | some code => putBit code after 0 s

/-- A bit of `put(sym)` is written: the next one, or go on with `after`. -/
def putNext (sym : Symbol) (after : State → State) (s : State) : Out :=
  match ctAt s.ct sym with
  | none => .fault (.unspecifiedRead s.phase)
  | some code => .next (putBit code after (s.k + 1) s)

/-- `r <- SRC.read()` in SE_PAYLOAD: a byte is put; END leads to SE_EOFCODE and `put(256)` (R116). -/
def sencGot (y : Read Byte) (s : State) : State :=
  match y with
  | .val x => put (symbolOfByte x) sencRead { s with r := .val x }
  | .END => put eofSym sencEnd { s with r := .END, phase := .seEofcode }

/-- A bit of SE_PAYLOAD is written. -/
def sencWrote (s : State) : Out :=
  match s.r with
  | .val x => putNext (symbolOfByte x) sencRead s
  | .END => .fault (.unspecifiedRead .sePayload)

/-- A bit of SE_EOFCODE is written. -/
def sencWroteEof (s : State) : Out := putNext eofSym sencEnd s

end Sys2Proof.Machine
end

