-- ==== Sys2Proof/Machine/TreeCodec.lean ====
section
/-! DEFINITION. tree_serializer and tree_deserializer: the bodies of TSER and TDES (R99 to R107). -/

namespace Sys2Proof.Machine

/-! ### TSER -/

/-- The end of the walk: the end of TSER, or, where SENC serializes, SE_REWIND (R26). -/
def tserEnd (s : State) : State :=
  if s.cmd = UnitCmd.opcode .tser then endLast .tser s else sencRewind s

/-- The next transaction of `emit` (R99): the marker of the subtree on top of the stack, or the symbol of the leaf whose
marker is written. With nothing pending the walk is over. -/
def tserNext (s : State) : Out :=
  match s.stk with
  | [] => .next (tserEnd s)
  | .sub (.leaf sym _) :: rest => .next ({ s with stk := .sym sym :: rest }.issue (.boutWriteBit false))
  | .sub (.internal left right _) :: rest =>
    .next ({ s with stk := .sub left :: .sub right :: rest }.issue (.boutWriteBit true))
  | .sym sym :: rest => .next ({ s with stk := rest }.issue (.boutWriteBits sym.val 9))
  | .needLeft :: _ => .fault (.unspecifiedRead .tsWalk)
  | .needRight _ :: _ => .fault (.unspecifiedRead .tsWalk)

/-- `phase <- TS_WALK; emit(TREE)`: the first transaction is the root's marker. -/
def emitTree (s : State) : State :=
  match s.tree with
  | .leaf sym _ => { s with phase := .tsWalk, stk := [.sym sym] }.issue (.boutWriteBit false)
  | .internal left right _ =>
    { s with phase := .tsWalk, stk := [.sub left, .sub right] }.issue (.boutWriteBit true)

/-- The start of TSER. -/
def tserStart : State → State := beginUnit .tser emitTree

/-! ### TDES -/

/-- The start of TDES: nnodes <- 0, then the root's marker is read (R101). -/
def tdesStart : State → State :=
  beginUnit .tdes fun s =>
    { s with phase := .tdWalk, nnodes := 0, stk := [], pend := some .binReadBit }

/-- The end of TDES; in DECODE, SDEC follows (R138). -/
def tdesEnd : State → State := endUnit .tdes opDecode sdecStart

/-- `nnodes + 1 > NODE_CAP` (R101, R104); with no bound it never holds. -/
def overCap (cap : Option Nat) (nnodes : Nat) : Bool :=
  match cap with
  | none => false
  | some cap => decide (cap < nnodes + 1)

/-- The marker bit of a node has been read (R101): END, then capacity, then the kind of the node (R107). DESIGN CHOICE
(assumption 26): `stk` takes an entry for each node that is open, as the recursion of R101 does, up to NODE_CAP on a header
of markers 1, where R24 says that 257 entries always suffice; R104 raises before there are more. -/
def tdesMarker (y : Read Bit) (s : State) : State :=
  match y with
  | .END => raise .corruptHeader 0 0 { s with b := .END }
  | .val b =>
    if overCap s.par.nodeCap s.nnodes then raise .corruptHeader 3 (s.par.nodeCap.getD 0) { s with b := .val b }
    else if b then
      { s with b := .val b, nnodes := s.nnodes + 1, stk := .needLeft :: s.stk }.issue .binReadBit
    else { s with b := .val b, nnodes := s.nnodes + 1 }.issue (.binReadBits 9)

/-- A subtree is complete: it is the left child of the node on top, which then needs its right child, or the right child,
which completes that node, whose weight is the sum (R101, R105). With an empty stack it is the whole tree. -/
def tdesReturn (t : Tree) (stk : List StkEntry) (s : State) : Out :=
  match stk with
  | [] => .next (tdesEnd { s with tree := t, stk := [] })
  | .needLeft :: rest => .next ({ s with stk := .needRight t :: rest }.issue .binReadBit)
  | .needRight left :: rest => tdesReturn (.internal left t (left.weight + t.weight)) rest s
  | .sub _ :: _ => .fault (.unspecifiedRead .tdWalk)
  | .sym _ :: _ => .fault (.unspecifiedRead .tdWalk)

/-- The 9-bit value of a leaf has been read (R101): END, then range (R102, R103, R107); the leaf's weight is 1 (R105). -/
def tdesSymbol (y : Read Nat) (s : State) : Out :=
  match y with
  | .END => .next (raise .corruptHeader 1 0 { s with v := .END })
  | .val v =>
    match symbolOfNat v with
    | none => .next (raise .corruptHeader 2 v { s with v := .val v })
    | some sym => tdesReturn (.leaf sym 1) s.stk { s with v := .val v }

end Sys2Proof.Machine
end

