-- ==== Sys2Proof/Machine/DecodeGate.lean ====
section
/-! DEFINITION. huffman_decoder, the decode gate: the body of MCHK (R126 to R128). -/

namespace Sys2Proof.Machine

/-- MG_CHECK: `v <- BIN.readBits(32)` (R126). -/
def mchkStart : State → State :=
  beginUnit .mchk fun s => { s with phase := .mgCheck, pend := some (.binReadBits 32) }

/-- The end of MCHK; in DECODE, TDES follows (R138). -/
def mchkEnd : State → State := endUnit .mchk opDecode tdesStart

/-- The value has been read: END before mismatch (R126, R127, R161). -/
def mchkGot (y : Read Nat) (s : State) : State :=
  match y with
  | .END => raise .invalidFormat 1 0 { s with v := .END }
  | .val v =>
    if v = s.par.magic.toNat then mchkEnd { s with v := .val v }
    else raise .invalidFormat 0 v { s with v := .val v }

end Sys2Proof.Machine
end

