-- ==== Sys2Proof/Machine/CodeTable.lean ====
section
/-! DEFINITION. code_table_deriver: the body of CTDR (R109 to R112). It issues no transaction. -/

namespace Sys2Proof.Machine

/-- What the walk writes: CT, and the register `path`. -/
structure Walk where
  ct : Vector (Option Code) 257
  path : Code
  deriving DecidableEq, Repr

/-- `walk(t, path)` (R109): depth first, left before right; at a leaf the path is its Code (R111, R112). -/
def walk : Tree → Code → Walk → Walk
  | .leaf sym _, path, W => { ct := ctSet W.ct sym path, path := path }
  | .internal left right _, path, W => walk right (path ++ [true]) (walk left (path ++ [false]) W)

/-- The start of CTDR. -/
def ctdrStart : State → State :=
  beginUnit .ctdr fun s => { s with phase := .cdWalk, pend := none }

/-- The end of CTDR; in ENCODE, SENC follows (R123). -/
def ctdrEnd : State → State := endUnit .ctdr opEncode sencStart

/-- The internal update of CD_WALK: CT is cleared, then the walk fills it. The stack of the descent ends empty. -/
def ctdrWalk (s : State) : State :=
  let W := walk s.tree [] { ct := Vector.replicate 257 none, path := [] }
  ctdrEnd { s with ct := W.ct, path := W.path, stk := [] }

end Sys2Proof.Machine
end

