-- ==== Sys2Proof/Machine/TreeBuilder.lean ====
section
/-! DEFINITION. huffman_tree_builder: the body of TBLD (R89 to R97). It issues no transaction. -/

namespace Sys2Proof.Machine

/-- The order of R90: by weight, then by insertion number. -/
def QEntry.before (e f : QEntry) : Bool := decide (e.w < f.w ∨ (e.w = f.w ∧ e.seq < f.seq))

/-- Put an entry at its place in the order of R90. -/
def qInsert (e : QEntry) : List QEntry → List QEntry
  | [] => [e]
  | f :: q => if e.before f then e :: f :: q else f :: qInsert e q

/-- The registers of the builder: Q, seq, a and c (R22, R23). -/
structure Builder where
  q : List QEntry
  seq : Nat
  a : QEntry
  c : QEntry
  deriving DecidableEq, Repr

/-- `insert(t)` (R89). -/
def Builder.insert (t : Tree) (B : Builder) : Builder :=
  { B with q := qInsert ⟨t.weight, B.seq, t⟩ B.q, seq := B.seq + 1 }

/-- One turn of TB_INIT's loop: the leaf of byte s, if it is present (R89). -/
def insertPresent (ft : Vector Nat 256) (B : Builder) (s : Fin 256) : Builder :=
  if 1 ≤ ft[s.val] then B.insert (.leaf s.castSucc ft[s.val]) else B

/-- TB_INIT: the EOF-symbol leaf, then the present symbols, ascending (R89, R90). -/
def Builder.init (ft : Vector Nat 256) (B : Builder) : Builder :=
  (List.finRange 256).foldl (insertPresent ft) (Builder.insert (.leaf eofSym 1) { B with q := [], seq := 0 })

/-- TB_MERGE: while |Q| > 1, the two least entries become an internal node (R89 to R91). The first argument bounds the
number of merges. -/
def Builder.merge : Nat → Builder → Builder
  | 0, B => B
  | n + 1, B =>
    match B.q with
    | [] => B
    | [_] => B
    | a :: c :: rest =>
      Builder.merge n
        (Builder.insert (.internal a.t c.t (a.t.weight + c.t.weight)) { B with q := rest, a := a, c := c })

def State.builder (s : State) : Builder := { q := s.q, seq := s.seq, a := s.a, c := s.c }

def State.withBuilder (s : State) (B : Builder) : State :=
  { s with q := B.q, seq := B.seq, a := B.a, c := B.c }

/-- The start of TBLD. -/
def tbldStart : State → State :=
  beginUnit .tbld fun s => { s with phase := .tbInit, pend := none }

/-- The end of TBLD; in ENCODE, CTDR follows (R123). -/
def tbldEnd : State → State := endUnit .tbld opEncode ctdrStart

/-- The internal update of TB_INIT. -/
def tbldInit (s : State) : State :=
  { s.withBuilder (s.builder.init s.ft) with phase := .tbMerge }

/-- The internal update of TB_MERGE: merge until one entry is left, the tree of which is TREE. A root weight that reaches
2^W has no meaning (R94, U3). -/
def tbldMerge (s : State) : Out :=
  let B := s.builder.merge s.q.length
  match B.q with
  | [] => .fault (.unspecifiedRead .tbMerge)
  | e :: _ =>
    if widthFits s.par.width e.t.weight then .next (tbldEnd { s.withBuilder B with tree := e.t })
    else .refused .countWidth

end Sys2Proof.Machine
end

