-- ==== Sys2Proof/Machine/FrequencyCounter.lean ====
section
/-! DEFINITION. frequency_counter: the body of FCNT (R83 to R88). -/

namespace Sys2Proof.Machine

/-- FC_SCAN: FT is cleared, then bytes are read until END (R83). -/
def fcntStart : State → State :=
  beginUnit .fcnt fun s =>
    { s with phase := .fcScan, ft := Vector.replicate 256 0, pend := some .srcRead }

/-- The end of FCNT; in ENCODE, TBLD follows (R123). -/
def fcntEnd : State → State := endUnit .fcnt opEncode tbldStart

/-- `r <- SRC.read()`: a byte is counted and the loop goes on; END ends it (R83, R85, R86). A count that would reach 2^W
has no meaning (R86, U3). -/
def fcntGot (y : Read Byte) (s : State) : Out :=
  match y with
  | .val x =>
    if widthFits s.par.width (ftAt s.ft x + 1) then
      .next { s with r := .val x, ft := ftIncr s.ft x, pend := some .srcRead }
    else .refused .countWidth
  | .END => .next (fcntEnd { s with r := .END })

end Sys2Proof.Machine
end

