-- ==== Sys2Proof/Machine/Sequencer.lean ====
section
/-! DEFINITION. The sequencer: one transaction or one internal update at a time (R9, R25, R26, R61), and the run of a
command under the collaborator's answers (R48, R166; assumptions 3, 6). -/

namespace Sys2Proof.Machine

/-- What the running unit does with the result of its transaction (R26 and the pseudocode of each unit). A phase and a
result that do not go together are a read of what the command has not written (R41; assumption 15). DESIGN CHOICE
(assumption 23): all that follows the transaction up to the next one (working registers, FT, flags, the start of the next
part, a raise on what was read, HALT with DONE) belongs to its step; R9 does not say how updates group. -/
def deliver (res : Result) (s : State) : Out :=
  match s.phase, res with
  | .fcScan, .byte y => fcntGot y s
  | .seMagic, .done => .next (emitTree s)
  | .tsWalk, .done => tserNext s
  | .seRewind, .done => .next (sencRead s)
  | .sePayload, .byte y => .next (sencGot y s)
  | .sePayload, .done => sencWrote s
  | .seEofcode, .done => sencWroteEof s
  | .mgCheck, .nat y => .next (mchkGot y s)
  | .tdWalk, .bit y => .next (tdesMarker y s)
  | .tdWalk, .nat y => tdesSymbol y s
  | .sdOuter, .flag more => .next (sdecMore more s)
  | .sdWalk, .bit y => sdecGot y s
  | .sdWalk, .done => .next (sdecOuter s)
  | p, _ => .fault (.unspecifiedRead p)

/-- The transaction that waits is answered: with a failure, which raises IOFailure and has no effect on the stream (R48),
or with its result. -/
def transact (fails : Bool) (s : State) : Out :=
  match s.pend with
  | none => .fault (.unspecifiedRead s.phase)
  | some t =>
    if fails then .next (raise .ioFailure t.port.number 0 s)
    else deliver (perform t s).1 (perform t s).2.answered

/-- One internal update: TB_INIT, TB_MERGE or CD_WALK, the phases without a transaction (R26, R55). In every other phase
there is none to make. DESIGN CHOICE (assumptions 6, 23): each is one update, with the flags and the start of the next
part that follow it. -/
def internal (s : State) : Out :=
  if s.st = .busy ∧ s.pend = none then
    match s.phase with
    | .tbInit => .next (tbldInit s)
    | .tbMerge => tbldMerge s
    | .cdWalk => .next (ctdrWalk s)
    | _ => .next s
  else .next s

/-- All internal updates up to the next transaction or the end of the command: at most three follow each other. DESIGN
CHOICE (assumption 6): a CMD write and `pass` make them in one step, with no pause and no host action between two of them.
To act there (a read of STATUS between TB_MERGE and CD_WALK of ENCODE, R36) the host lets the block run by single steps,
with `tick`; each update is then a step of its own. -/
def settle (s : State) : Out := andThen (andThen (internal s) internal) internal

/-- An internal update is due, so the block goes on without an answer. -/
def State.internalDue (s : State) : Bool :=
  decide (s.st = .busy ∧ s.pend = none ∧ (s.phase = .tbInit ∨ s.phase = .tbMerge ∨ s.phase = .cdWalk))

/-- ONE step of the block by itself (R9): one internal update, or one transaction with its answer. A `hold` passes while the
block waits; without an answer, and where no command runs, it waits (R37, R163, R166). -/
def blockStep (s : State) : Out :=
  if s.st = .busy then
    if s.internalDue then internal s
    else
      match s.answers with
      | [] => .next s
      | .hold :: as => .next { s with answers := as }
      | .ok :: as => transact false { s with answers := as }
      | .fail :: as => transact true { s with answers := as }
  else .next s

/-- Many steps of the block as one: the command runs under the answers still to come, until it ends, or the collaborator
holds, or no answer is left (assumption 6). A `hold` leaves the block BUSY exactly where it stands, be it before the first
of the internal updates that are due. What is left of the answers stays in State. -/
def run : List Answer → State → Out
  | [], s => andThen (settle s) fun s => .next { s with answers := [] }
  | a :: as, s =>
    if s.st = .busy then
      if a = .hold then .next { s with answers := as }
      else andThen (settle s) fun s =>
        if s.st = .busy then andThen (transact (decide (a = .fail)) s) (run as)
        else .next { s with answers := a :: as }
    else .next { s with answers := a :: as }

/-- The block goes on with the command it runs, under its answers; in IDLE, DONE and FAULT it waits (R37, R163). -/
def resume (s : State) : Out := if s.st = .busy then run s.answers s else .next s

/-- st is IDLE or DONE: a CMD write starts a command (R32, R37). -/
def State.accepts (s : State) : Bool := decide (s.st = .idle ∨ s.st = .done)

/-- A CMD write whose opcode is `op` (R32): in IDLE and DONE it is stored and the command starts; in BUSY and FAULT it has
no effect at all (R172, R163). DESIGN CHOICE (assumption 23): the store, BUSY, the check of "requires", "at start" and
issuing the first transaction are one step, so no read falls between them. -/
def command (op : BitVec 4) (start : State → State) (s : State) : Out :=
  if s.accepts then run s.answers (start { s with cmd := op, st := .busy }) else .next s

end Sys2Proof.Machine
end

