-- ==== Sys2Proof/Machine/Commands.lean ====
section
/-! DEFINITION. The meanings of the commands: the ten of R68 and the six reserved opcodes (R69). Each is the CMD write
that selects it and the run of the command, up to its end or to the first transaction that is not answered. -/

namespace Sys2Proof.Machine

/-- FCNT (R83). -/
def execFcnt (s : State) : Out := command 0x3 fcntStart s

/-- TBLD (R89). -/
def execTbld (s : State) : Out := command 0x4 tbldStart s

/-- CTDR (R109). -/
def execCtdr (s : State) : Out := command 0x5 ctdrStart s

/-- TSER (R99). -/
def execTser (s : State) : Out := command 0x6 tserStart s

/-- TDES (R101). -/
def execTdes (s : State) : Out := command 0x7 tdesStart s

/-- SENC (R116). -/
def execSenc (s : State) : Out := command 0x8 sencStart s

/-- SDEC (R129). -/
def execSdec (s : State) : Out := command 0x9 sdecStart s

/-- MCHK (R126). -/
def execMchk (s : State) : Out := command 0xA mchkStart s

/-- ENCODE: the bodies of FCNT, TBLD, CTDR and SENC, in that order, as one command (R123). -/
def execEncode (s : State) : Out := command opEncode fcntStart s

/-- DECODE: the bodies of MCHK, TDES and SDEC, in that order, as one command (R138). -/
def execDecode (s : State) : Out := command opDecode mchkStart s

/-- A reserved opcode raises UsageError(sub 0, info opcode) and issues no transaction (R69). -/
def reservedStart (op : BitVec 4) (s : State) : State := raise .usageError 0 op.toNat s

def execReserved0 (s : State) : Out := command 0x0 (reservedStart 0x0) s

def execReservedB (s : State) : Out := command 0xB (reservedStart 0xB) s

def execReservedC (s : State) : Out := command 0xC (reservedStart 0xC) s

def execReservedD (s : State) : Out := command 0xD (reservedStart 0xD) s

def execReservedE (s : State) : Out := command 0xE (reservedStart 0xE) s

def execReservedF (s : State) : Out := command 0xF (reservedStart 0xF) s

end Sys2Proof.Machine
end

