-- ==== Sys2Proof/Machine/FileFormat.lean ====
section
/-! DEFINITION. The meanings of the three rows of the opcode table that are fields of the file format and no commands
(R72, R74, R75; assumption 7): what the block does when its decode side has read that field from BIN. Reading it (the
transaction, which moves bin_pos) is the fetch. Where the block is not waiting for such a field it is data on a stream,
and nothing happens. -/

namespace Sys2Proof.Machine

/-- The block waits for the magic field (R126). -/
def State.readsMagic (s : State) : Bool :=
  decide (s.st = .busy ∧ s.phase = .mgCheck ∧ s.pend = some (.binReadBits 32))

/-- The block waits for the marker of a node (R101). -/
def State.readsMarker (s : State) : Bool :=
  decide (s.st = .busy ∧ s.phase = .tdWalk ∧ s.pend = some .binReadBit)

/-- The block waits for the symbol of a leaf (R101). -/
def State.readsSymbol (s : State) : Bool :=
  decide (s.st = .busy ∧ s.phase = .tdWalk ∧ s.pend = some (.binReadBits 9))

/-- FILE.MAGIC: the field that holds MAGIC (R72, R126). -/
def execFileMagic (s : State) : Out :=
  if s.readsMagic then deliver (.nat (.val s.par.magic.toNat)) s.answered else .next s

/-- FILE.NODE.INTERNAL: the marker 1 (R75, R101). -/
def execFileNodeInternal (s : State) : Out :=
  if s.readsMarker then deliver (.bit (.val true)) s.answered else .next s

/-- The symbol value of a leaf, once its marker has been taken (R74, R101). -/
def execSymbolField (v : BitVec 9) (s : State) : Out :=
  if s.readsSymbol then deliver (.nat (.val v.toNat)) s.answered else .next s

/-- FILE.NODE.LEAF: the marker 0, then the 9-bit symbol value (R74, R101, R103, R107). -/
def execFileNodeLeaf (v : BitVec 9) (s : State) : Out :=
  if s.readsMarker then andThen (deliver (.bit (.val false)) s.answered) (execSymbolField v) else .next s

end Sys2Proof.Machine
end

