-- ==== Sys2Proof/Machine/Dispatch.lean ====
section
/-! DEFINITION. One arm per instruction. -/

namespace Sys2Proof.Machine

open Sys2Proof

def exec (i : Instr) (s : State) : Host.Outcome State Fault Refusal :=
  match i with
  | .encode => Sys2Proof.Machine.execEncode s
  | .decode => Sys2Proof.Machine.execDecode s
  | .fcnt => Sys2Proof.Machine.execFcnt s
  | .tbld => Sys2Proof.Machine.execTbld s
  | .ctdr => Sys2Proof.Machine.execCtdr s
  | .tser => Sys2Proof.Machine.execTser s
  | .tdes => Sys2Proof.Machine.execTdes s
  | .senc => Sys2Proof.Machine.execSenc s
  | .sdec => Sys2Proof.Machine.execSdec s
  | .mchk => Sys2Proof.Machine.execMchk s
  | .reserved0 => Sys2Proof.Machine.execReserved0 s
  | .reservedB => Sys2Proof.Machine.execReservedB s
  | .reservedC => Sys2Proof.Machine.execReservedC s
  | .reservedD => Sys2Proof.Machine.execReservedD s
  | .reservedE => Sys2Proof.Machine.execReservedE s
  | .reservedF => Sys2Proof.Machine.execReservedF s
  | .fileMagic => Sys2Proof.Machine.execFileMagic s
  | .fileNodeInternal => Sys2Proof.Machine.execFileNodeInternal s
  | .fileNodeLeaf v => Sys2Proof.Machine.execFileNodeLeaf v s

end Sys2Proof.Machine
end

