-- ==== Sys2Proof/Machine/HostPort.lean ====
section
/-! DEFINITION. What the host does to the block (R10b, R31 to R37, R167 to R169; assumptions 4, 18, 22, 24, 25). -/

namespace Sys2Proof.Machine

/-- A write to register n: CMD starts the command its low four bits select (R32), and a write to the three read-only
registers is ignored (R33 to R35). -/
def writeReg (n : Fin 4) (x : Word) (s : State) : Out :=
  match n with
  | 0 => exec (decodeCommand x) s
  | 1 => .next s
  | 2 => .next s
  | 3 => .next s

/-- A write at a bus address: to the register it selects, if it selects one (R31). -/
def busWrite (addr : Nat) (x : Word) (s : State) : Out :=
  match s.regOfAddr addr with
  | some n => writeReg n x s
  | none => .next s

/-- What the host does to BIN, BOUT and DST, before a command or after it and never while one runs (R169): in BUSY, BOUT and
DST are what they were and what the command has written (R61 (b)), and only reset stops the run of R180. DEDUCED
(assumption 25): an attempt in BUSY has no effect. -/
def unlessBusy (f : State → State) (s : State) : State := if s.st = .busy then s else f s

/-- One action of the host. A read has no side effect (R33 to R36); its value is `State.readReg`. DESIGN CHOICE
(assumption 24): the host may supply SRC in every st, BUSY included, where R169 and R174 do not say. -/
def hostAct (act : HostAct) (s : State) : Out :=
  match act with
  | .pass => resume s
  | .tick => blockStep s
  | .write n x => writeReg n x s
  | .read _ => .next s
  | .busWrite addr x => busWrite addr x s
  | .busRead _ => .next s
  | .reset => .next (applyReset s)
  | .setSrc bytes pos => .next { s with src := bytes, srcPos := min pos bytes.length }
  | .setBin bits pos => .next (unlessBusy (fun s => { s with bin := bits, binPos := min pos bits.length }) s)
  | .takeBout => .next (unlessBusy (fun s => { s with bout := [] }) s)
  | .takeDst => .next (unlessBusy (fun s => { s with dst := [] }) s)

/-- One step: the host's next action, or, when the host has none, one step of the block by itself (R9). -/
def stepHost (s : State) : Out :=
  match s.host with
  | [] => blockStep s
  | act :: rest => hostAct act { s with host := rest }

/-! ### Placing one word of the opcode table where the next step takes it (assumptions 5, 7) -/

/-- The bits stand next on BIN. -/
def insertBin (bits : List Bit) (s : State) : State :=
  { s with bin := s.bin.take s.binPos ++ bits ++ s.bin.drop s.binPos }

/-- The host's next action is a write of the word to CMD. -/
def placeCommand (w : Nat) (s : State) : State :=
  { s with host := .write 0 (BitVec.ofNat 32 w) :: s.host }

/-- MCHK runs, the 32 bits stand next on BIN, and the collaborator answers once. -/
def placeMagic (w : Nat) (s : State) : State :=
  { insertBin (toBits 32 w) (mchkStart { s with cmd := 0xA, st := .busy }) with
    answers := .ok :: .hold :: s.answers, host := .pass :: s.host }

/-- TDES runs, the bits of the field stand next on BIN, and the collaborator answers `n` times. -/
def placeNode (bits : List Bit) (n : Nat) (s : State) : State :=
  { insertBin bits (tdesStart { s with cmd := 0x7, st := .busy }) with
    answers := List.replicate n .ok ++ .hold :: s.answers, host := .pass :: s.host }

/-- The word of `nbits` bits, as `decodeTableWord` reads it, stands where the next step takes it. -/
def placeWord (s : State) (nbits w : Nat) : State :=
  match decodeTableWord nbits w with
  | some .fileMagic => placeMagic w s
  | some .fileNodeInternal => placeNode [true] 1 s
  | some (.fileNodeLeaf v) => placeNode (false :: toBits 9 v.toNat) 2 s
  | some _ => placeCommand w s
  | none => placeCommand w s

end Sys2Proof.Machine
end

