-- ==== Sys2Proof/Machine/Step.lean ====
section
/-! DEFINITION. The step of the machine, and where its next instruction is placed. -/

namespace Sys2Proof.Machine

/-- One step: the host's next action (a CMD write decodes its word and runs the command), or, where the host has none, one
transaction or one internal update of the command that runs (R9, R32, R37, R61). -/
def step : State → Host.Outcome State Fault Refusal := stepHost

/-- `s` with the one instruction of the opcode table whose bits are `w` placed so that the very next step runs it: a
command word as the host's next write to CMD, a field of the file format as the next bits of BIN with MCHK or TDES
waiting for it (assumptions 5, 7). -/
def State.withFetchWord (s : State) (nbits w : Nat) : State := placeWord s nbits w

end Sys2Proof.Machine
end

