-- ==== Sys2Proof/Safety.lean ====
section
/-! DEFINITION. The words claims are stated in: the serialization, the Codes and the counts of a tree as the spec defines
them, and the
invariant of the machine. -/

namespace Sys2Proof.Machine

/-! ### Trees (R14, R18, R19, R73, R78, R105) -/

/-- `ser(t)` (R73). -/
def Tree.ser : Tree → List Bit
  | .leaf sym _ => false :: toBits 9 sym.val
  | .internal left right _ => true :: (left.ser ++ right.ser)

/-- L, the number of leaves (R76). -/
def Tree.leafCount : Tree → Nat
  | .leaf _ _ => 1
  | .internal left right _ => left.leafCount + right.leafCount

/-- The number of internal nodes (R19). -/
def Tree.innerCount : Tree → Nat
  | .leaf _ _ => 0
  | .internal left right _ => left.innerCount + right.innerCount + 1

/-- The number of nodes, which NODE_CAP bounds (R20). -/
def Tree.nodeCount (t : Tree) : Nat := t.leafCount + t.innerCount

/-- Edges from the root to the deepest leaf (R24). -/
def Tree.depth : Tree → Nat
  | .leaf _ _ => 0
  | .internal left right _ => max left.depth right.depth + 1

/-- The leaves with their weights, left to right. -/
def Tree.leaves : Tree → List (Symbol × Nat)
  | .leaf sym w => [(sym, w)]
  | .internal left right _ => left.leaves ++ right.leaves

/-- Every leaf's symbol with the path from the root to it, left to right (R78). -/
def Tree.codes : Tree → List (Symbol × Code)
  | .leaf sym _ => [(sym, [])]
  | .internal left right _ =>
    left.codes.map (fun e => (e.1, false :: e.2)) ++ right.codes.map (fun e => (e.1, true :: e.2))

/-- The Code CTDR gives a symbol: the path to its last leaf, none if it is on no leaf (R109, R112). -/
def Tree.codeOf (t : Tree) (s : Symbol) : Option Code :=
  ((t.codes.filter (fun e => e.1 = s)).getLast?).map Prod.snd

/-- The table of all Codes of a tree (R21). -/
def Tree.table (t : Tree) : Vector (Option Code) 257 := Vector.ofFn t.codeOf

/-- Weights as R18 wants them: at least 1 in a leaf, the sum of the children's in an internal node. -/
def Tree.weighted : Tree → Bool
  | .leaf _ w => decide (1 ≤ w)
  | .internal left right w => left.weighted && right.weighted && decide (w = left.weight + right.weight)

/-- The same tree with the placeholder weights of R105. -/
def Tree.placeholder : Tree → Tree
  | .leaf sym _ => .leaf sym 1
  | .internal left right _ =>
    .internal left.placeholder right.placeholder (left.placeholder.weight + right.placeholder.weight)

/-- The sum over leaves of weight × depth, the root standing at depth `d` (R96). -/
def Tree.cost : Tree → Nat → Nat
  | .leaf _ w, d => w * d
  | .internal left right _, d => left.cost (d + 1) + right.cost (d + 1)

/-! ### Streams -/

/-- The Code of a symbol in a table, empty where there is none. -/
def codeBits (ct : Vector (Option Code) 257) (s : Symbol) : List Bit := (ctAt ct s).getD []

/-- The payload for input bytes y_1 .. y_n: their Codes, then the EOF-symbol's Code (R80). -/
def payload (ct : Vector (Option Code) 257) (ys : List Byte) : List Bit :=
  ys.flatMap (fun y => codeBits ct (symbolOfByte y)) ++ codeBits ct eofSym

/-- Every byte has a Code, and so has the EOF-symbol (R114). -/
def covers (ct : Vector (Option Code) 257) (ys : List Byte) : Prop :=
  (∀ y ∈ ys, ctAt ct (symbolOfByte y) ≠ none) ∧ ctAt ct eofSym ≠ none

/-- The number of present symbols, n of R95. -/
def presentCount (ft : Vector Nat 256) : Nat := ft.toList.countP (fun f => 1 ≤ f)

/-- The leaves R89 starts from: the EOF-symbol with weight 1, then the present symbols with their counts, ascending. -/
def initialLeaves (ft : Vector Nat 256) : List (Symbol × Nat) :=
  (eofSym, 1) :: ((List.finRange 256).filter (fun s => 1 ≤ ft[s.val])).map (fun s => (s.castSucc, ft[s.val]))

/-- Transactions of TSER: two for a leaf, one for an internal node (R99). -/
def Tree.txns (t : Tree) : Nat := 2 * t.leafCount + t.innerCount

/-- Transactions of SENC: the magic, the tree, the rewind, a read for each byte and one for END, a write for each bit of
the payload (R116, R125). -/
def sencTxns (t : Tree) (ct : Vector (Option Code) 257) (ys : List Byte) : Nat :=
  1 + t.txns + 1 + (ys.length + 1) + (payload ct ys).length

/-- `n` results, then the answers `rest` (R48, R166). -/
def oks (n : Nat) (rest : List Answer) : List Answer := List.replicate n .ok ++ rest

/-- The bytes and the bits of a payload given as symbols with the Codes that stand for them. -/
def payloadBytes (cs : List (Byte × Code)) : List Byte := cs.map Prod.fst

def payloadBits (cs : List (Byte × Code)) : List Bit := cs.flatMap Prod.snd

/-- Transactions of SDEC for these bytes: one `hasMoreBits`, one `readBit` for each bit of the Code, one write (R129). -/
def payloadTxns (cs : List (Byte × Code)) : Nat := (cs.map fun e => e.2.length + 2).sum

/-- Every byte of the payload stands for a path of the tree (R79, R134). -/
def onTree (t : Tree) (cs : List (Byte × Code)) : Prop := ∀ e ∈ cs, (symbolOfByte e.1, e.2) ∈ t.codes

/-- A tree of `n` nodes fits (R104). -/
def fitsCap (cap : Option Nat) (n : Nat) : Prop := ∀ c, cap = some c → n ≤ c

/-! ### Faults (R152, R162) -/

/-- `t` is in FAULT with this cause, sub-cause and recorded value, as `raise` leaves it. -/
structure State.tookFault (t : State) (cause sub info : Nat) : Prop where
  cause_eq : t.faultCause.toNat % 16 = cause
  sub_eq : t.faultCause.toNat / 16 = sub
  info_eq : t.faultInfo.toNat = info
  flags : t.ftValid = false ∧ t.treeValid = false ∧ t.ctValid = false
  eof : t.eofSeen = false
  halted : t.phase = .halt ∧ t.st = .fault
  quiet : t.pend = none

/-- The four streams and their positions are the same. -/
structure State.sameStreams (s t : State) : Prop where
  src : t.src = s.src
  srcPos : t.srcPos = s.srcPos
  bin : t.bin = s.bin
  binPos : t.binPos = s.binPos
  bout : t.bout = s.bout
  dst : t.dst = s.dst

/-! ### Programs (R70) -/

/-- The commands in order, each after the previous one has reached DONE. -/
def program : List Instr → State → Out
  | [], s => .next s
  | i :: is, s => andThen (exec i s) fun t => if t.st = .done then program is t else .next t

/-- `n` steps of the machine. -/
def steps : Nat → State → Out
  | 0, s => .next s
  | n + 1, s => andThen (step s) (steps n)

/-- SDEC, alone or in DECODE, stands in the run of R180: the tree is a leaf of the byte `y`, a bit is left, and the block
asks whether one is, or writes `y` (R136). -/
def State.endless (s : State) (y : Byte) : Prop :=
  s.st = .busy ∧ (∃ w, s.tree = .leaf (symbolOfByte y) w) ∧ s.binPos < s.bin.length ∧
    ((s.phase = .sdOuter ∧ s.pend = some .binHasMoreBits) ∨
      (s.phase = .sdWalk ∧ s.pend = some (.dstWrite y) ∧ ∃ w, s.cur = .leaf (symbolOfByte y) w))

/-! ### The invariant -/

/-- The running command is one of these (R26, R32). -/
def State.running (s : State) (ops : List (BitVec 4)) : Prop := s.cmd ∈ ops

/-- The entries of the stack of TSER. -/
def StkEntry.isWrite : StkEntry → Bool
  | .sub _ => true
  | .sym _ => true
  | .needLeft => false
  | .needRight _ => false

/-- The entries of the stack of TDES; a finished left child has the weights of R105. -/
def StkEntry.isParse : StkEntry → Bool
  | .sub _ => false
  | .sym _ => false
  | .needLeft => true
  | .needRight l => l.weighted

/-- Q is in the order of R90, its weights are those of its trees, and its insertion numbers are below seq. -/
structure queueOk (q : List QEntry) (seq : Nat) : Prop where
  sorted : q.Pairwise (fun e f => e.before f = true)
  weights : ∀ e ∈ q, e.w = e.t.weight ∧ e.t.weighted = true
  numbers : ∀ e ∈ q, e.seq < seq

/-- CT is the table of TREE, and both are valid: what SENC works from (R28, R29, R120). -/
def State.tablesReady (s : State) : Prop :=
  s.treeValid = true ∧ s.ctValid = true

/-- TREE is being replaced, so neither TREE nor CT is valid (R28, R29). -/
def State.noTree (s : State) : Prop :=
  s.treeValid = false ∧ s.ctValid = false

/-- Where a running command can stand: the transaction it has issued fits its phase, and the working registers that the
phase reads have been written by the command, and the flags are as the command's start left them (R26, R28, R41). -/
def State.seqOk (s : State) : Prop :=
  match s.phase with
  | .fcScan => s.pend = some .srcRead ∧ s.running [0x3, opEncode] ∧ s.ftValid = false
  | .tbInit => s.pend = none ∧ s.running [0x4, opEncode] ∧ s.ftValid = true ∧ s.noTree
  | .tbMerge =>
    s.pend = none ∧ s.running [0x4, opEncode] ∧ s.ftValid = true ∧ s.noTree ∧ s.q ≠ [] ∧ queueOk s.q s.seq
  | .cdWalk => s.pend = none ∧ s.running [0x5, opEncode] ∧ s.treeValid = true ∧ s.ctValid = false
  | .seMagic =>
    s.pend = some (.boutWriteBits s.par.magic.toNat 32) ∧ s.running [0x8, opEncode] ∧ s.tablesReady
  | .tsWalk =>
    ((∃ b, s.pend = some (.boutWriteBit b)) ∨ ∃ v, v ≤ 256 ∧ s.pend = some (.boutWriteBits v 9)) ∧
      (∀ e ∈ s.stk, e.isWrite = true) ∧ s.treeValid = true ∧
      (s.running [0x6] ∨ (s.running [0x8, opEncode] ∧ s.tablesReady))
  | .seRewind => s.pend = some .srcRewind ∧ s.running [0x8, opEncode] ∧ s.tablesReady
  | .sePayload =>
    s.running [0x8, opEncode] ∧ s.tablesReady ∧
      (s.pend = some .srcRead ∨
        ∃ x code b, s.r = .val x ∧ ctAt s.ct (symbolOfByte x) = some code ∧ code[s.k]? = some b ∧
          s.pend = some (.boutWriteBit b))
  | .seEofcode =>
    s.running [0x8, opEncode] ∧ s.tablesReady ∧
      ∃ code b, ctAt s.ct eofSym = some code ∧ code[s.k]? = some b ∧ s.pend = some (.boutWriteBit b)
  | .mgCheck => s.pend = some (.binReadBits 32) ∧ s.running [0xA, opDecode]
  | .tdWalk =>
    (s.pend = some .binReadBit ∨ s.pend = some (.binReadBits 9)) ∧ (∀ e ∈ s.stk, e.isParse = true) ∧
      s.running [0x7, opDecode] ∧ s.noTree
  | .sdOuter => s.pend = some .binHasMoreBits ∧ s.running [0x9, opDecode] ∧ s.treeValid = true
  | .sdWalk =>
    s.running [0x9, opDecode] ∧ s.treeValid = true ∧
      ((s.pend = some .binReadBit ∧ ∃ l r w, s.cur = .internal l r w) ∨
        ∃ sym w, s.cur = .leaf sym w ∧ sym ≠ eofSym ∧ s.pend = some (.dstWrite (byteOfSymbol sym)))
  | .idle => False
  | .halt => False

/-- The invariant every step keeps. -/
structure State.Inv (s : State) : Prop where
  /-- The read positions lie within their streams (R42). -/
  srcPos_le : s.srcPos ≤ s.src.length
  binPos_le : s.binPos ≤ s.bin.length
  /-- Only a running command has a transaction outstanding, and phase is IDLE or HALT when none runs (R26). -/
  pend_none : s.st ≠ .busy → s.pend = none
  phase_idle : s.st = .idle → s.phase = .idle
  phase_halt : s.st = .done ∨ s.st = .fault → s.phase = .halt
  /-- A running command stands at a place of its pseudocode (R26, R41). -/
  seq : s.st = .busy → s.seqOk
  /-- FAULT_CAUSE and FAULT_INFO are 0 until a fault is taken (R34, R35). -/
  no_fault : s.st ≠ .fault → s.faultCause = 0 ∧ s.faultInfo = 0
  /-- In FAULT a cause is recorded and every flag is 0 (R162, R181). -/
  fault_flags : s.st = .fault →
    s.faultCause.toNat % 16 ∈ [1, 2, 3, 4, 5, 6] ∧ s.ftValid = false ∧ s.treeValid = false ∧ s.ctValid = false
  /-- After reset no table is valid (R40). -/
  idle_flags : s.st = .idle → s.ftValid = false ∧ s.treeValid = false ∧ s.ctValid = false
  /-- eof_seen is set only by a command that has ended (R28, R162). -/
  eof_done : s.eofSeen = true → s.st = .done
  /-- TREE is weighted as R18 says. -/
  tree_weighted : s.treeValid = true → s.tree.weighted = true
  /-- CT was derived from the TREE now held (R29). -/
  ct_table : s.ctValid = true → s.ct = s.tree.table
  /-- The parameters are values R7 allows. -/
  par_legal : s.par.legal = true

end Sys2Proof.Machine
end

