-- ==== Sys2Proof/Certificates/Slice0/Obligations.lean ====
section
/-! DEFINITION. The statements for the provers. A result of a command is written as the state it started from with
exactly the fields that change, so it is the command's completion, its result and its frame in one: every field not
named is unchanged. The collaborator's script gives one answer for each transaction, and what is left of it stays. -/

section ObligationStatements

open Sys2Proof Sys2Proof.Machine

/-! ### Encodings -/

/-- The opcode map (R68, R69). -/
def Obligations.OpcodeMapSelectsTheCommand : Prop :=
  decodeCommand 0x0 = .reserved0 ∧ decodeCommand 0x1 = .encode ∧ decodeCommand 0x2 = .decode ∧
  decodeCommand 0x3 = .fcnt ∧ decodeCommand 0x4 = .tbld ∧ decodeCommand 0x5 = .ctdr ∧
  decodeCommand 0x6 = .tser ∧ decodeCommand 0x7 = .tdes ∧ decodeCommand 0x8 = .senc ∧
  decodeCommand 0x9 = .sdec ∧ decodeCommand 0xA = .mchk ∧ decodeCommand 0xB = .reservedB ∧
  decodeCommand 0xC = .reservedC ∧ decodeCommand 0xD = .reservedD ∧ decodeCommand 0xE = .reservedE ∧
  decodeCommand 0xF = .reservedF ∧
  (∀ magic : Word,
    decode magic .node ([false] ++ [true, false, false, false, false, false, false, false, false])
      = .ok (.fileNodeLeaf 256, []) ∧
    decode magic .node ([false] ++ [false, false, true, false, false, false, false, false, true])
      = .ok (.fileNodeLeaf 0x41, []) ∧
    decode magic .node [true] = .ok (.fileNodeInternal, [])) ∧
  decode 1846 .magic (List.replicate 21 false ++ [true, true, true, false, false, true, true, false, true, true, false])
    = .ok (.fileMagic, [])

/-- Every well-formed instruction, with every operand value, is read back from its encoding whatever bits follow, for
every MAGIC. -/
def Obligations.EncodedInstructionDecodesBack : Prop :=
  ∀ (magic : Word) (i : Instr) (rest : List Bit), i.wf = true →
    decode magic i.space (encode magic i ++ rest) = .ok (i, rest)

/-- What a decoder accepts is the encoding of what it answers, but for the ignored bits [31:4] of a command word; and
what it rejects it rejects by name (R32, R77, R102, R103, R126). -/
def Obligations.DecoderAcceptsOnlyEncodings : Prop :=
  ∀ magic : Word,
  (∀ bits i rest, decode magic .node bits = .ok (i, rest) →
    i.wf = true ∧ i.space = .node ∧ bits = encode magic i ++ rest) ∧
  (∀ bits i rest, decode magic .magic bits = .ok (i, rest) → i = .fileMagic ∧ bits = encode magic i ++ rest) ∧
  (∀ bits i rest, decode magic .command bits = .ok (i, rest) →
    i.space = .command ∧ bits.drop 28 = (encode magic i).drop 28 ++ rest) ∧
  (∀ v rest, 256 < v → v < 512 → decode magic .node (false :: (toBits 9 v ++ rest)) = .error (.reservedSymbol v)) ∧
  decode magic .node [] = .error .truncatedMarker ∧
  (∀ bits : List Bit, bits.length < 9 → decode magic .node (false :: bits) = .error .truncatedSymbol) ∧
  (∀ v rest, v < 2 ^ 32 → v ≠ magic.toNat → decode magic .magic (toBits 32 v ++ rest) = .error (.notMagic v)) ∧
  (∀ bits : List Bit, bits.length < 32 → decode magic .magic bits = .error .truncated)

/-! ### The step -/

/-- A write of `x` to CMD runs the command that bits [3:0] of `x` select; bits [31:4] are ignored. On a bus the write
stands at CSR_BASE (R31, R32, R67). The queue `host` is the model's (assumption 4). -/
def Obligations.StepRunsTheCommandWritten : Prop :=
  (∀ s x rest, s.host = .write 0 x :: rest → step s = exec (decodeCommand x) { s with host := rest }) ∧
  (∀ s x base rest, s.par.csrBase = some base → s.host = .busWrite base x :: rest →
    step s = exec (decodeCommand x) { s with host := rest }) ∧
  (∀ x y : Word, x.toNat % 16 = y.toNat % 16 → decodeCommand x = decodeCommand y)

/-- Where MCHK or TDES waits for a field and the field on BIN decodes to an instruction, the step whose script answers
just its transactions is `exec` of that instruction, at the state moved past the field. A leaf has two transactions,
its marker and its symbol. The one `hold` that ends the script is taken where the command goes on. The three rows are
fields of the file format (assumption 7). -/
def Obligations.StepRunsTheFieldRead : Prop :=
  (∀ s i bs as rest, s.host = .pass :: rest → s.readsMagic = true →
    decode s.par.magic .magic (s.bin.drop s.binPos) = .ok (i, bs) → s.answers = .ok :: .hold :: as →
    step s = andThen (exec i { s with host := rest, binPos := s.binPos + 32 })
      (fun t => .next { t with answers := if t.st = .busy then as else .hold :: as })) ∧
  (∀ s bs as rest, s.host = .pass :: rest → s.readsMarker = true →
    decode s.par.magic .node (s.bin.drop s.binPos) = .ok (.fileNodeInternal, bs) → s.answers = .ok :: .hold :: as →
    step s = andThen (exec .fileNodeInternal { s with host := rest, binPos := s.binPos + 1 })
      (fun t => .next { t with answers := if t.st = .busy then as else .hold :: as })) ∧
  (∀ s v bs as rest, s.host = .pass :: rest → s.readsMarker = true → fitsCap s.par.nodeCap (s.nnodes + 1) →
    decode s.par.magic .node (s.bin.drop s.binPos) = .ok (.fileNodeLeaf v, bs) → s.answers = .ok :: .ok :: .hold :: as →
    step s = andThen (exec (.fileNodeLeaf v) { s with host := rest, binPos := s.binPos + 10 })
      (fun t => .next { t with answers := if t.st = .busy then as else .hold :: as }))

/-- A placed command word is what the next step runs, and nothing else has changed when it runs (assumption 5). -/
def Obligations.PlacedCommandRunsNext : Prop :=
  ∀ s w, w < 2 ^ 32 → w ≠ 1846 → step (s.withFetchWord 32 w) = exec (decodeCommand (BitVec.ofNat 32 w)) s

/-! ### The registers -/

/-- STATUS (R33), as register 1 and, where the platform maps the registers on a bus, at CSR_BASE + 4 (R31). -/
def Obligations.StatusShowsStateAndFlags : Prop :=
  ∀ s : State,
    (s.readReg 1).toNat % 4 = (match s.st with | .idle => 0 | .busy => 1 | .done => 2 | .fault => 3) ∧
    (s.readReg 1).getLsbD 2 = s.ftValid ∧ (s.readReg 1).getLsbD 3 = s.treeValid ∧
    (s.readReg 1).getLsbD 4 = s.ctValid ∧ (s.readReg 1).getLsbD 5 = s.eofSeen ∧
    (∀ i, 6 ≤ i → (s.readReg 1).getLsbD i = false) ∧
    (∀ rest, s.host = .read 1 :: rest → step s = .next { s with host := rest }) ∧
    (∀ x rest, s.host = .write 1 x :: rest → step s = .next { s with host := rest }) ∧
    ∀ base, s.par.csrBase = some base →
      s.readBus (base + 4) = some (s.readReg 1) ∧
      (∀ rest, s.host = .busRead (base + 4) :: rest → step s = .next { s with host := rest }) ∧
      (∀ x rest, s.host = .busWrite (base + 4) x :: rest → step s = .next { s with host := rest })

/-- The other three registers show what State holds under zeros; reads have no side effect and writes to FAULT_CAUSE and
FAULT_INFO are ignored (R31, R34, R35, R36). Where the platform maps the registers on a bus, register n stands at
CSR_BASE + 4 n: a bus read returns what a read of n does, and a bus write does what a write of n does (R31). That an access to
any other address, or with no mapping, returns nothing of the block's and does nothing is the model's choice
(assumption 22). -/
def Obligations.RegistersShowCmdAndFault : Prop :=
  ∀ s : State,
    (s.readReg 0).toNat = s.cmd.toNat ∧ (s.readReg 2).toNat = s.faultCause.toNat ∧ s.readReg 3 = s.faultInfo ∧
    (∀ n rest, s.host = .read n :: rest → step s = .next { s with host := rest }) ∧
    (∀ x rest, s.host = .write 2 x :: rest → step s = .next { s with host := rest }) ∧
    (∀ x rest, s.host = .write 3 x :: rest → step s = .next { s with host := rest }) ∧
    (∀ addr rest, s.host = .busRead addr :: rest → step s = .next { s with host := rest }) ∧
    (∀ base (n : Fin 4), s.par.csrBase = some base →
      s.readBus (base + 4 * n.val) = some (s.readReg n) ∧
      (∀ x rest, s.host = .busWrite (base + 4 * n.val) x :: rest → step s = step { s with host := .write n x :: rest }) ∧
      (∀ x rest, n ≠ 0 → s.host = .busWrite (base + 4 * n.val) x :: rest → step s = .next { s with host := rest })) ∧
    (∀ addr, (∀ base (n : Fin 4), s.par.csrBase = some base → addr ≠ base + 4 * n.val) →
      s.readBus addr = none ∧
      (∀ x rest, s.host = .busWrite addr x :: rest → step s = .next { s with host := rest }))

/-- FAULT_CAUSE and FAULT_INFO change only where a step enters FAULT, or where reset clears them (R34, R35). -/
def Obligations.FaultRegistersChangeOnlyByFaultOrReset : Prop :=
  ∀ s t, s.Inv → step s = .next t → (t.faultCause ≠ s.faultCause ∨ t.faultInfo ≠ s.faultInfo) →
    (s.st ≠ .fault ∧ t.st = .fault) ∨
    (∃ rest, s.host = .reset :: rest ∧ t.st = .idle ∧ t.faultCause = 0 ∧ t.faultInfo = 0)

/-- A write to CMD in IDLE or DONE stores x[3:0], whatever then happens in the step, and the register reads it back
(R32). -/
def Obligations.CmdStoresTheOpcode : Prop :=
  ∀ s t x rest, s.accepts = true → s.host = .write 0 x :: rest → step s = .next t →
    t.cmd = x.setWidth 4 ∧ (t.readReg 0).toNat = x.toNat % 16

/-- A CMD write in BUSY or in FAULT has no effect at all (R32, R163, R172). -/
def Obligations.CommandIsIgnoredWhileBusyOrFault : Prop :=
  (∀ s x rest, s.st = .busy ∨ s.st = .fault → s.host = .write 0 x :: rest → step s = .next { s with host := rest }) ∧
  (∀ i s, i.space = .command → s.st = .busy ∨ s.st = .fault → exec i s = .next s)

/-- Each of the six reserved opcodes raises UsageError(sub 0, info opcode) and issues no transaction; every 4-bit value
is one of the ten commands or reserved (R69). What the fault clears is R162's; that eof_seen is 0 after it, also where it was 1
in DONE, is read from R162 (3) (assumption 12). -/
def Obligations.ReservedOpcodeRaisesUsageError : Prop :=
  (∀ x, decodeCommand x ∈ [.encode, .decode, .fcnt, .tbld, .ctdr, .tser, .tdes, .senc, .sdec, .mchk, .reserved0,
    .reservedB, .reservedC, .reservedD, .reservedE, .reservedF]) ∧
  ∀ s e, s.accepts = true →
    e ∈ [(Instr.reserved0, 0x0), (.reservedB, 0xB), (.reservedC, 0xC), (.reservedD, 0xD), (.reservedE, 0xE),
      (.reservedF, 0xF)] →
    ∃ t, exec e.1 s = .next t ∧ t.tookFault 5 0 e.2 ∧ t.cmd.toNat = e.2 ∧ s.sameStreams t ∧
      t.answers = s.answers ∧ t.host = s.host ∧ t.par = s.par

/-- A command whose "requires" column is not met raises UsageError(sub 1, info opcode) before any transaction (R30). What the
fault clears is R162's; that eof_seen is 0 after it, also where it was 1 in DONE and "at start" has not cleared it, is read
from R162 (3) (assumption 12). -/
def Obligations.UnmetPreconditionRaisesUsageError : Prop :=
  ∀ s e, s.accepts = true →
    e ∈ [(Instr.tbld, 0x4, s.ftValid), (.ctdr, 0x5, s.treeValid), (.tser, 0x6, s.treeValid),
      (.senc, 0x8, s.treeValid && s.ctValid), (.sdec, 0x9, s.treeValid)] →
    e.2.2 = false →
    ∃ t, exec e.1 s = .next t ∧ t.tookFault 5 1 e.2.1 ∧ t.cmd.toNat = e.2.1 ∧ s.sameStreams t ∧
      t.answers = s.answers ∧ t.host = s.host ∧ t.par = s.par

/-! ### Faults and reset -/

/-- Trap entry (R152, R162). -/
def Obligations.RaiseRecordsTheFaultAndClearsTheFlags : Prop :=
  ∀ (F : FaultClass) (sub info : Nat) (s : State), sub < 16 → info < 2 ^ 32 →
    (raise F sub info s).tookFault
      (match F with
        | .ioFailure => 1 | .invalidFormat => 2 | .corruptHeader => 3 | .corruptStream => 4 | .usageError => 5
        | .internalConsistency => 6) sub info ∧
    s.sameStreams (raise F sub info s) ∧ (raise F sub info s).cmd = s.cmd

/-- A transaction that the collaborator fails raises IOFailure(sub = port, info = 0) and has no effect on its stream, in
every phase (R48). -/
def Obligations.FailedTransactionRaisesIOFailure : Prop :=
  ∀ s txn rest, s.st = .busy → s.pend = some txn → s.host = [] → s.answers = .fail :: rest →
    ∃ t, step s = .next t ∧
      t.tookFault 1 (match txn with
        | .srcRead => 0 | .srcRewind => 0 | .binReadBit => 1 | .binReadBits _ => 1 | .binHasMoreBits => 1
        | .boutWriteBit _ => 2 | .boutWriteBits _ _ => 2 | .dstWrite _ => 3) 0 ∧
      s.sameStreams t ∧ t.cmd = s.cmd ∧ t.answers = rest

/-- While a transaction is not answered the block waits with all state kept; only the script moves (R166). How the script
says "not yet" is the model's (assumption 3). -/
def Obligations.UnansweredTransactionKeepsTheState : Prop :=
  (∀ s txn rest, s.st = .busy → s.pend = some txn → s.host = [] → s.answers = .hold :: rest →
    step s = .next { s with answers := rest }) ∧
  (∀ s txn, s.st = .busy → s.pend = some txn → s.host = [] → s.answers = [] → step s = .next s)

/-- FAULT is left only by reset, and what it recorded stays (R163, R181). -/
def Obligations.FaultIsLeftOnlyByReset : Prop :=
  ∀ s t, s.st = .fault → step s = .next t → (∀ rest, s.host ≠ .reset :: rest) →
    t.st = .fault ∧ t.faultCause = s.faultCause ∧ t.faultInfo = s.faultInfo ∧ t.cmd = s.cmd ∧ t.phase = s.phase ∧
      t.pend = s.pend ∧ t.answers = s.answers

/-- The state after reset, where the spec gives it a value (R40). -/
def Obligations.ResetStateIsIdle : Prop :=
  State.reset.st = .idle ∧ State.reset.phase = .idle ∧ State.reset.ftValid = false ∧ State.reset.treeValid = false ∧
  State.reset.ctValid = false ∧ State.reset.eofSeen = false ∧ State.reset.readReg 0 = 0 ∧
  State.reset.readReg 1 = 0 ∧ State.reset.readReg 2 = 0 ∧ State.reset.readReg 3 = 0

/-- The reset input, in any state: the control state is as after power-on, no transaction is issued any more, and the
streams stay (R167, R168). That a transaction which waits for its answer has had no effect, where R168 leaves it completed or
without effect, is read from it (assumption 19). -/
def Obligations.ResetAbandonsTheCommandAndKeepsTheStreams : Prop :=
  ∀ s rest, s.host = .reset :: rest →
    ∃ t, step s = .next t ∧ t.st = .idle ∧ t.phase = .idle ∧ t.ftValid = false ∧ t.treeValid = false ∧
      t.ctValid = false ∧ t.eofSeen = false ∧ t.cmd = 0 ∧ t.faultCause = 0 ∧ t.faultInfo = 0 ∧ t.pend = none ∧
      s.sameStreams t ∧ t.host = rest ∧ t.par = s.par ∧
      ∀ as, step { t with host := [], answers := as } = .next { t with host := [], answers := as }

/-! ### frequency_counter -/

/-- FCNT: FT counts the bytes from src_pos on, the sum of FT is their number, and nothing else changes but what is named
(R83, R84, R85, R86, R87). Every count is below 2^W, which an unbounded W always allows. -/
def Obligations.FcntCountsTheBytes : Prop :=
  ∀ s rest, s.accepts = true → s.srcPos ≤ s.src.length →
    (∀ y, widthFits s.par.width ((s.src.drop s.srcPos).count y) = true) →
    s.answers = oks ((s.src.drop s.srcPos).length + 1) rest →
    ∃ ft : Vector Nat 256, (∀ y, ftAt ft y = (s.src.drop s.srcPos).count y) ∧
      ft.toList.sum = s.src.length - s.srcPos ∧
      exec .fcnt s = .next { s with
        ft := ft, r := .END, srcPos := s.src.length, ftValid := true, eofSeen := false, cmd := 0x3,
        phase := .halt, st := .done, pend := none, answers := rest }

/-! ### huffman_tree_builder -/

/-- TBLD: TREE holds the EOF-symbol leaf and one leaf for each present symbol, with their counts, under n internal nodes
whose weights are sums; the root's weight is 1 + the sum of FT; no Code is longer than n; Q is left with one entry and
seq with 2 n + 1; nothing else changes but what is named (R89, R94, R95). TREE is the tree of the entry that n merges of the
initial entries leave, each merge as BuilderMergesTheTwoLeastEntries says: the tie-break and the child order are those of
R90 and R91. The root's weight is below 2^W. -/
def Obligations.TbldBuildsTheTree : Prop :=
  ∀ s, s.accepts = true → s.ftValid = true → s.answers.head? ≠ some .hold →
    widthFits s.par.width (1 + s.ft.toList.sum) = true →
    ∃ (T : Tree) (e a c : QEntry),
      exec .tbld s = .next { s with
        tree := T, q := [e], seq := 2 * presentCount s.ft + 1, a := a, c := c, ftValid := false, treeValid := true,
        ctValid := false, eofSeen := false, cmd := 0x4, phase := .halt, st := .done, pend := none } ∧
      e.t = T ∧ ((s.builder.init s.ft).merge (presentCount s.ft)).q = [e] ∧ e.w = T.weight ∧
      T.leaves.Perm (initialLeaves s.ft) ∧ T.weighted = true ∧
      T.weight = 1 + s.ft.toList.sum ∧ T.innerCount = presentCount s.ft ∧ T.leafCount = presentCount s.ft + 1 ∧
      T.depth ≤ presentCount s.ft

/-- With a finite W, where a count or the root's weight would reach 2^W, FCNT and TBLD are refused: never wrapped, never
saturated (R86, R94; U3 of 93_implementation_defined.md). The condition is that of n < 2^W, and no value fails it where W
is unbounded, as it is on this hardware (R7). -/
def Obligations.CountsBeyondTheWidthAreRefused : Prop :=
  (∀ s y rest as, s.host = [] → s.st = .busy → s.phase = .fcScan → s.pend = some .srcRead →
    s.src.drop s.srcPos = y :: rest → s.answers = .ok :: as → widthFits s.par.width (ftAt s.ft y + 1) = false →
    step s = .refused .countWidth) ∧
  (∀ s y rest, s.accepts = true → s.answers = oks ((s.src.drop s.srcPos).length + 1) rest →
    widthFits s.par.width ((s.src.drop s.srcPos).count y) = false → exec .fcnt s = .refused .countWidth) ∧
  (∀ s, s.accepts = true → s.ftValid = true → s.answers.head? ≠ some .hold →
    widthFits s.par.width (1 + s.ft.toList.sum) = false → exec .tbld s = .refused .countWidth) ∧
  (∀ w n, widthFits (some w) n = true ↔ n < 2 ^ w) ∧ (∀ n, widthFits none n = true) ∧ State.reset.par.width = none

/-- The removal order and the child order: the initial entries are numbered 0 for the EOF-symbol leaf, then ascending;
the two entries a merge removes are the least two by (w, seq); they become the left and the right child, in that order,
of a new entry that gets the next number (R89, R90, R91). -/
def Obligations.BuilderMergesTheTwoLeastEntries : Prop :=
  ∀ (ft : Vector Nat 256) (B₀ : Builder),
    (B₀.init ft).q.Perm ((initialLeaves ft).mapIdx fun i l => ⟨l.2, i, .leaf l.1 l.2⟩) ∧
    ∀ (n : Nat) (a c : QEntry) (rest : List QEntry), ((B₀.init ft).merge n).q = a :: c :: rest →
      (∀ e ∈ c :: rest, a.w < e.w ∨ (a.w = e.w ∧ a.seq < e.seq)) ∧
      (∀ e ∈ rest, c.w < e.w ∨ (c.w = e.w ∧ c.seq < e.seq)) ∧
      ((B₀.init ft).merge (n + 1)).q.Perm
        (⟨a.w + c.w, ((B₀.init ft).merge n).seq, .internal a.t c.t (a.w + c.w)⟩ :: rest) ∧
      ((B₀.init ft).merge (n + 1)).seq = ((B₀.init ft).merge n).seq + 1

/-- The two smallest trees: an empty table gives the EOF-symbol leaf alone, with the empty Code; one byte value gives two
leaves, the EOF-symbol on the left with Code 0 and the byte on the right with Code 1 (R92, R93). -/
def Obligations.TbldOnAtMostOneByteValue : Prop :=
  ∀ s t, s.accepts = true → s.ftValid = true → exec .tbld s = .next t → t.st = .done →
    ((∀ y, ftAt s.ft y = 0) → t.tree = .leaf eofSym 1 ∧ t.tree.codeOf eofSym = some []) ∧
    (∀ x, 1 ≤ ftAt s.ft x → (∀ y, y ≠ x → ftAt s.ft y = 0) →
      t.tree = .internal (.leaf eofSym 1) (.leaf (symbolOfByte x) (ftAt s.ft x)) (ftAt s.ft x + 1) ∧
      t.tree.codeOf eofSym = some [false] ∧ t.tree.codeOf (symbolOfByte x) = some [true])

/-- No binary tree with the same leaves and weights has a smaller sum of weight × depth than the tree of TBLD (R96). -/
def Obligations.TbldTreeIsOptimal : Prop :=
  ∀ s t, s.accepts = true → s.ftValid = true → exec .tbld s = .next t → t.st = .done →
    ∀ u : Tree, u.leaves.Perm (initialLeaves s.ft) → t.tree.cost 0 ≤ u.cost 0

/-! ### code_table_deriver -/

/-- CTDR: CT is the table of the paths of TREE; a symbol on one leaf gets the path to it, on no leaf none, on several
leaves the path of the last in left-to-right order (R109, R110, R111, R112). That stk, a dead register, is left empty is the
model's choice (assumption 16). -/
def Obligations.CtdrDerivesTheCodes : Prop :=
  ∀ s, s.accepts = true → s.treeValid = true → s.answers.head? ≠ some .hold →
    ∃ (ct : Vector (Option Code) 257) (path : Code),
      exec .ctdr s = .next { s with
        ct := ct, path := path, stk := [], ctValid := true, eofSeen := false, cmd := 0x5, phase := .halt, st := .done,
        pend := none } ∧
      (∀ sym, ctAt ct sym = none ↔ sym ∉ s.tree.leaves.map Prod.fst) ∧
      (∀ sym p before after, s.tree.codes = before ++ (sym, p) :: after → sym ∉ after.map Prod.fst →
        ctAt ct sym = some p)

/-- After CTDR no Code of a symbol is a prefix of the Code of another (R113). -/
def Obligations.CodesArePrefixFree : Prop :=
  ∀ s t, s.accepts = true → exec .ctdr s = .next t → t.st = .done →
    ∀ x y p q, x ≠ y → ctAt t.ct x = some p → ctAt t.ct y = some q → ¬ p <+: q

/-- After FCNT, TBLD and CTDR the EOF-symbol and exactly the bytes FCNT saw have a Code (R114). -/
def Obligations.CodeTableCoversTheBytesCounted : Prop :=
  ∀ s s₁ s₂ s₃, s.accepts = true → exec .fcnt s = .next s₁ → s₁.st = .done → exec .tbld s₁ = .next s₂ →
    s₂.st = .done → exec .ctdr s₂ = .next s₃ → s₃.st = .done →
    ctAt s₃.ct eofSym ≠ none ∧ ∀ y, ctAt s₃.ct (symbolOfByte y) ≠ none ↔ y ∈ s.src.drop s.srcPos

/-! ### tree_serializer and tree_deserializer -/

/-- TSER appends the serialization of TREE, two transactions for a leaf and one for an internal node (R73, R99). That
stk, a dead register, is left empty is the model's choice (assumption 16). -/
def Obligations.TserAppendsTheSerializedTree : Prop :=
  ∀ s rest, s.accepts = true → s.treeValid = true →
    s.answers = oks (2 * s.tree.leafCount + s.tree.innerCount) rest →
    exec .tser s = .next { s with
      bout := s.bout ++ s.tree.ser, stk := [], eofSeen := false, cmd := 0x6, phase := .halt, st := .done, pend := none,
      answers := rest }

/-- TDES, where a serialized tree of at most NODE_CAP nodes stands next on BIN, whatever bits follow: TREE is that tree
with the weights of R105, and bin_pos is right after it (R101, R105). That stk, a dead register, is left empty is the model's
choice (assumption 16). -/
def Obligations.TdesReadsTheTree : Prop :=
  ∀ s (T : Tree) bs rest, s.accepts = true → s.bin.drop s.binPos = T.ser ++ bs →
    fitsCap s.par.nodeCap T.nodeCount → s.answers = oks (2 * T.leafCount + T.innerCount) rest →
    ∃ b v, exec .tdes s = .next { s with
      tree := T.placeholder, b := b, v := v, nnodes := T.nodeCount, stk := [], binPos := s.binPos + T.ser.length,
      treeValid := true, ctValid := false, eofSeen := false, cmd := 0x7, phase := .halt, st := .done, pend := none,
      answers := rest }

/-- TDES inverts TSER: from ser(t), whatever follows, it makes t in shape and symbols; and after any successful TDES,
TSER appends exactly the bits that TDES consumed (R108). -/
def Obligations.TdesInvertsTser : Prop :=
  (∀ s (T : Tree) bs rest, s.accepts = true → s.bin.drop s.binPos = T.ser ++ bs →
    fitsCap s.par.nodeCap T.nodeCount → s.answers = oks T.txns rest →
    ∃ t, exec .tdes s = .next t ∧ t.st = .done ∧ t.tree.placeholder = T.placeholder) ∧
  (∀ s t u, s.accepts = true → exec .tdes s = .next t → t.st = .done → exec .tser t = .next u → u.st = .done →
    t.bin = s.bin ∧ s.binPos ≤ t.binPos ∧
      u.bout = s.bout ++ (s.bin.drop s.binPos).take (t.binPos - s.binPos))

/-- END while a marker is expected is CorruptHeader(sub 0); END while the 9-bit value is expected, with fewer than 9 bits
left, is CorruptHeader(sub 1), and the short read moves to the end (R45, R102). -/
def Obligations.TruncatedHeaderRaisesCorruptHeader : Prop :=
  (∀ s rest, s.host = [] → s.readsMarker = true → s.bin.length ≤ s.binPos → s.answers = .ok :: rest →
    ∃ t, step s = .next t ∧ t.tookFault 3 0 0 ∧ s.sameStreams t ∧ t.cmd = s.cmd ∧ t.answers = rest) ∧
  (∀ s rest, s.host = [] → s.readsSymbol = true → s.bin.length < s.binPos + 9 → s.answers = .ok :: rest →
    ∃ t, step s = .next t ∧ t.tookFault 3 1 0 ∧ State.sameStreams { s with binPos := s.bin.length } t ∧
      t.cmd = s.cmd ∧ t.answers = rest)

/-- A 9-bit value 257 .. 511 is CorruptHeader(sub 2, info the value) (R103). -/
def Obligations.OutOfRangeSymbolRaisesCorruptHeader : Prop :=
  ∀ s v bs rest, s.host = [] → s.readsSymbol = true → 257 ≤ v → v ≤ 511 →
    s.bin.drop s.binPos = toBits 9 v ++ bs → s.answers = .ok :: rest →
    ∃ t, step s = .next t ∧ t.tookFault 3 2 v ∧ State.sameStreams { s with binPos := s.binPos + 9 } t ∧
      t.cmd = s.cmd ∧ t.answers = rest

/-- At the marker of node NODE_CAP + 1, after reading that bit and before reading anything further, TDES raises
CorruptHeader(sub 3, info NODE_CAP); END at that marker comes first (R104, R107). -/
def Obligations.NodeBeyondCapacityRaisesCorruptHeader : Prop :=
  ∀ s cap rest, s.host = [] → s.readsMarker = true → s.par.nodeCap = some cap → cap < 2 ^ 32 → s.nnodes = cap →
    s.answers = .ok :: rest →
    (s.binPos < s.bin.length →
      ∃ t, step s = .next t ∧ t.tookFault 3 3 cap ∧ State.sameStreams { s with binPos := s.binPos + 1 } t ∧
        t.cmd = s.cmd ∧ t.answers = rest) ∧
    (s.bin.length ≤ s.binPos →
      ∃ t, step s = .next t ∧ t.tookFault 3 0 0 ∧ s.sameStreams t ∧ t.cmd = s.cmd ∧ t.answers = rest)

/-! ### The decode gate -/

/-- MCHK on the magic: bin_pos moves by 32 and nothing else changes but the end of the command, eof_seen and v (R126). -/
def Obligations.MchkAcceptsTheMagic : Prop :=
  ∀ s bs rest, s.accepts = true → s.bin.drop s.binPos = toBits 32 s.par.magic.toNat ++ bs → s.answers = .ok :: rest →
    exec .mchk s = .next { s with
      v := .val s.par.magic.toNat, binPos := s.binPos + 32, eofSeen := false, cmd := 0xA, phase := .halt, st := .done,
      pend := none, answers := rest }

/-- Any other 32-bit value is InvalidFormat(sub 0, info the value), in MCHK and in DECODE, and nothing is written
(R126, R128, R146). -/
def Obligations.WrongMagicRaisesInvalidFormat : Prop :=
  ∀ s i v bs rest, s.accepts = true → i = Instr.mchk ∨ i = .decode → v < 2 ^ 32 → v ≠ s.par.magic.toNat →
    s.bin.drop s.binPos = toBits 32 v ++ bs → s.answers = .ok :: rest →
    ∃ t, exec i s = .next t ∧ t.tookFault 2 0 v ∧ State.sameStreams { s with binPos := s.binPos + 32 } t ∧
      t.answers = rest

/-- Fewer than 32 bits, including none, is InvalidFormat(sub 1) (R45, R127). -/
def Obligations.ShortMagicRaisesInvalidFormat : Prop :=
  ∀ s i rest, s.accepts = true → i = Instr.mchk ∨ i = .decode → s.bin.length < s.binPos + 32 →
    s.answers = .ok :: rest →
    ∃ t, exec i s = .next t ∧ t.tookFault 2 1 0 ∧ State.sameStreams { s with binPos := s.bin.length } t ∧
      t.answers = rest

/-- In DECODE no byte is written before TDES has completed: where it ends in InvalidFormat or CorruptHeader, or is still
in MCHK or TDES, DST is what it was, whatever the collaborator answered (R128, R138). -/
def Obligations.DecodeWritesNothingBeforeTheHeaderIsRead : Prop :=
  (∀ s t, s.accepts = true → exec .decode s = .next t →
    t.phase = .mgCheck ∨ t.phase = .tdWalk ∨
      (t.st = .fault ∧ (t.faultCause.toNat % 16 = 2 ∨ t.faultCause.toNat % 16 = 3)) → t.dst = s.dst) ∧
  (∀ s t, (s.host = [] ∨ ∃ rest, s.host = .pass :: rest ∨ s.host = .tick :: rest) →
    s.phase = .mgCheck ∨ s.phase = .tdWalk → step s = .next t →
    t.phase = .mgCheck ∨ t.phase = .tdWalk ∨
      (t.st = .fault ∧ (t.faultCause.toNat % 16 = 2 ∨ t.faultCause.toNat % 16 = 3)) → t.dst = s.dst)

/-! ### The stream decoder -/

/-- SDEC on a payload that ends with the EOF-symbol's Code: the bytes are written in order, the decoder stops at the
EOF-symbol and reads none of the bits after it; repeated symbols need no uniqueness (R129, R133, R134). The hypothesis
that some bit remains rules out only the EOF-symbol leaf as the root with no bit left (R130). -/
def Obligations.SdecDecodesThePayload : Prop :=
  ∀ s cs code bs rest, s.accepts = true → s.treeValid = true → onTree s.tree cs → (eofSym, code) ∈ s.tree.codes →
    s.bin.drop s.binPos = payloadBits cs ++ code ++ bs → payloadBits cs ++ code ++ bs ≠ [] →
    s.answers = oks (payloadTxns cs + 1 + code.length) rest →
    ∃ b cur, exec .sdec s = .next { s with
      b := b, cur := cur, binPos := s.binPos + (payloadBits cs ++ code).length, dst := s.dst ++ payloadBytes cs,
      treeValid := false, eofSeen := true, cmd := 0x9, phase := .halt, st := .done, pend := none, answers := rest }

/-- Bits that run out exactly between two Codes end SDEC normally, with eof_seen = 0 (R132, R135). -/
def Obligations.SdecEndsAtACodeBoundary : Prop :=
  ∀ s cs rest, s.accepts = true → s.treeValid = true → onTree s.tree cs → (∀ e ∈ cs, e.2 ≠ []) →
    s.binPos ≤ s.bin.length → s.bin.drop s.binPos = payloadBits cs → s.answers = oks (payloadTxns cs + 1) rest →
    ∃ b cur, exec .sdec s = .next { s with
      b := b, cur := cur, binPos := s.bin.length, dst := s.dst ++ payloadBytes cs, treeValid := false,
      eofSeen := false, cmd := 0x9, phase := .halt, st := .done, pend := none, answers := rest }

/-- Bits that run out inside a Code, after its first bit and before its last, are CorruptStream; the bytes decoded before
stay in DST (R131). -/
def Obligations.TruncatedPayloadRaisesCorruptStream : Prop :=
  ∀ s cs sym code p rest, s.accepts = true → s.treeValid = true → onTree s.tree cs → (sym, code) ∈ s.tree.codes →
    p <+: code → p ≠ code → p ≠ [] → s.bin.drop s.binPos = payloadBits cs ++ p →
    s.answers = oks (payloadTxns cs + 1 + p.length + 1) rest →
    ∃ t, exec .sdec s = .next t ∧ t.tookFault 4 0 0 ∧
      State.sameStreams { s with binPos := s.bin.length, dst := s.dst ++ payloadBytes cs } t ∧ t.cmd = 0x9 ∧
      t.answers = rest

/-- The EOF-symbol leaf as the root: one `hasMoreBits`; no bit is consumed and nothing is written, and eof_seen is set
exactly where a bit remains (R130). -/
def Obligations.SdecOnTheEofLeafConsumesNothing : Prop :=
  ∀ s w rest, s.accepts = true → s.treeValid = true → s.tree = .leaf eofSym w → s.answers = .ok :: rest →
    ∃ cur, exec .sdec s = .next { s with
      cur := cur, treeValid := false, eofSeen := decide (s.binPos < s.bin.length), cmd := 0x9, phase := .halt,
      st := .done, pend := none, answers := rest }

/-- A byte leaf as the root: with no bit left SDEC ends with nothing written; with a bit left it writes that byte for
ever: it never ends while no transaction fails, and it reaches every number of writes (R136). -/
def Obligations.SdecOnAByteLeafNeverEnds : Prop :=
  ∀ s y w, s.accepts = true → s.treeValid = true → s.tree = .leaf (symbolOfByte y) w →
    (s.bin.length ≤ s.binPos → ∀ rest, s.answers = .ok :: rest →
      exec .sdec s = .next { s with
        treeValid := false, eofSeen := false, cmd := 0x9, phase := .halt, st := .done, pend := none,
        answers := rest }) ∧
    (s.binPos < s.bin.length → Answer.fail ∉ s.answers →
      ∃ t n, exec .sdec s = .next t ∧ t.st = .busy ∧ t.dst = s.dst ++ List.replicate n y ∧ t.binPos = s.binPos) ∧
    (s.binPos < s.bin.length → ∀ n, s.answers = List.replicate (2 * n) .ok →
      ∃ t, exec .sdec s = .next t ∧ t.st = .busy ∧ t.dst = s.dst ++ List.replicate n y)

/-! ### The stream encoder -/

/-- SENC appends the magic, the serialized tree, the Codes of all bytes of SRC from position 0 and the EOF-symbol's Code,
and leaves src_pos at the end (R116, R117, R121, R122). That the dead registers are left with k = |CT[256]| and stk empty is
the model's choice (assumption 16). -/
def Obligations.SencWritesTheFile : Prop :=
  ∀ s rest, s.accepts = true → s.treeValid = true → s.ctValid = true → covers s.ct s.src →
    s.answers = oks (sencTxns s.tree s.ct s.src) rest →
    exec .senc s = .next { s with
      bout := s.bout ++ toBits 32 s.par.magic.toNat ++ s.tree.ser ++ payload s.ct s.src
      srcPos := s.src.length, r := .END, k := (codeBits s.ct eofSym).length, stk := [], treeValid := false,
      ctValid := false, eofSeen := false, cmd := 0x8, phase := .halt, st := .done, pend := none, answers := rest }

/-- A byte without a Code is InternalConsistency(info the byte), after the header and the Codes of the bytes before it;
an EOF-symbol without a Code is InternalConsistency(info 256), after all of them (R119). -/
def Obligations.SymbolWithoutCodeRaisesInternalConsistency : Prop :=
  ∀ s ys rest, s.accepts = true → s.treeValid = true → s.ctValid = true →
    (∀ y ∈ ys, ctAt s.ct (symbolOfByte y) ≠ none) →
    s.answers = oks (1 + s.tree.txns + 1 + (ys.length + 1) + (ys.flatMap fun y => codeBits s.ct (symbolOfByte y)).length)
      rest →
    (∀ y zs, s.src = ys ++ y :: zs → ctAt s.ct (symbolOfByte y) = none →
      ∃ t, exec .senc s = .next t ∧ t.tookFault 6 0 y.toNat ∧
        State.sameStreams { s with
          srcPos := ys.length + 1
          bout := s.bout ++ toBits 32 s.par.magic.toNat ++ s.tree.ser ++
            ys.flatMap fun y => codeBits s.ct (symbolOfByte y) } t ∧ t.answers = rest) ∧
    (s.src = ys → ctAt s.ct eofSym = none →
      ∃ t, exec .senc s = .next t ∧ t.tookFault 6 0 256 ∧
        State.sameStreams { s with
          srcPos := ys.length
          bout := s.bout ++ toBits 32 s.par.magic.toNat ++ s.tree.ser ++
            ys.flatMap fun y => codeBits s.ct (symbolOfByte y) } t ∧ t.answers = rest)

/-! ### The composite commands -/

/-- ENCODE from src_pos = 0: one command, |src| + 1 reads and then the transactions of SENC; BOUT gets the whole file,
whose length is 32 + (11 L - 1) + the weighted length of the Codes and whose tree is no byte leaf (R180); no flag is left
set (R123, R125). The root's weight 1 + |src|, and so every count, is below 2^W. That the dead registers are left
with k = |CT[256]| and stk empty is the model's choice (assumption 16). -/
def Obligations.EncodeWritesTheFile : Prop :=
  ∀ s : State, s.accepts = true → s.srcPos = 0 → widthFits s.par.width (1 + s.src.length) = true →
    ∃ (ft : Vector Nat 256) (T : Tree), (∀ y, ftAt ft y = s.src.count y) ∧ T.leaves.Perm (initialLeaves ft) ∧
      T.weighted = true ∧ covers T.table s.src ∧
      (toBits 32 s.par.magic.toNat ++ T.ser ++ payload T.table s.src).length
        = 32 + (11 * T.leafCount - 1) + T.cost 0 ∧
      (∀ (y : Byte) bs, T.ser ++ payload T.table s.src ≠ false :: toBits 9 y.toNat ++ bs) ∧
      ∀ rest, ∃ q a c path,
        exec .encode { s with answers := oks (s.src.length + 1 + sencTxns T T.table s.src) rest } = .next { s with
          ft := ft, tree := T, ct := T.table, q := q, seq := 2 * presentCount ft + 1, a := a, c := c, path := path
          bout := s.bout ++ toBits 32 s.par.magic.toNat ++ T.ser ++ payload T.table s.src
          srcPos := s.src.length, r := .END, k := (codeBits T.table eofSym).length, stk := [], ftValid := false,
          treeValid := false, ctValid := false, eofSeen := false, cmd := 0x1, phase := .halt, st := .done,
          pend := none, answers := rest }

/-- ENCODE equals the program FCNT, TBLD, CTDR, SENC for every script of answers and failures: the same streams, flags,
registers and fault, and the same answers used. CMD alone differs, which holds the last opcode written. That FT, TREE, CT,
Q, seq and the working registers agree after a fault too is the model's choice, not the spec's, which leaves them
unspecified there (R162): one free value for each count of faults (assumption 2). With a finite W both may be refused
(U3). -/
def Obligations.EncodeEqualsItsProgram : Prop :=
  ∀ s, s.Inv → s.accepts = true → .hold ∉ s.answers →
    (∃ t u, exec .encode s = .next t ∧ program [.fcnt, .tbld, .ctdr, .senc] s = .next u ∧
      { t with cmd := 0 } = { u with cmd := 0 }) ∨
    (exec .encode s = .refused .countWidth ∧ program [.fcnt, .tbld, .ctdr, .senc] s = .refused .countWidth ∧
      s.par.width ≠ none)

/-- DECODE of a file: the magic, a tree that fits, the Codes of bytes on it, the EOF-symbol's Code and anything after it
(R138). That stk, a dead register, is left empty is the model's choice (assumption 16). -/
def Obligations.DecodeReadsTheFile : Prop :=
  ∀ s (T : Tree) cs code bs rest, s.accepts = true → fitsCap s.par.nodeCap T.nodeCount → onTree T cs →
    (eofSym, code) ∈ T.codes →
    s.bin.drop s.binPos = toBits 32 s.par.magic.toNat ++ T.ser ++ payloadBits cs ++ code ++ bs →
    payloadBits cs ++ code ++ bs ≠ [] →
    s.answers = oks (1 + T.txns + (payloadTxns cs + 1 + code.length)) rest →
    ∃ v b cur, exec .decode s = .next { s with
      tree := T.placeholder, v := v, b := b, cur := cur, nnodes := T.nodeCount, stk := []
      binPos := s.binPos + 32 + T.ser.length + (payloadBits cs ++ code).length, dst := s.dst ++ payloadBytes cs,
      treeValid := false, ctValid := false, eofSeen := true, cmd := 0x2, phase := .halt, st := .done, pend := none,
      answers := rest }

/-- DECODE equals the program MCHK, TDES, SDEC for every script of answers and failures. CMD alone differs. That FT, TREE, CT,
Q, seq and the working registers agree after a fault too is the model's choice, not the spec's, which leaves them
unspecified there (R162): one free value for each count of faults (assumption 2). -/
def Obligations.DecodeEqualsItsProgram : Prop :=
  ∀ s, s.Inv → s.accepts = true → .hold ∉ s.answers →
    ∃ t u, exec .decode s = .next t ∧ program [.mchk, .tdes, .sdec] s = .next u ∧
      { t with cmd := 0 } = { u with cmd := 0 }

/-- Round trip: what ENCODE writes for SRC, with any bits after it, DECODE reads back byte for byte; eof_seen is 1 but
for the empty input with no bits after it (R141). Each block may stand in any state that accepts a command. The root's
weight 1 + |src| is below the encoder's 2^W. -/
def Obligations.EncodeThenDecodeGivesTheBytesBack : Prop :=
  ∀ s : State, s.accepts = true → s.srcPos = 0 → s.bout = [] → widthFits s.par.width (1 + s.src.length) = true →
    ∃ n, ∀ rest, ∃ t, exec .encode { s with answers := oks n rest } = .next t ∧ t.st = .done ∧ t.answers = rest ∧
      ∀ (u : State) P, u.accepts = true → u.bin = t.bout ++ P → u.binPos = 0 → u.dst = [] → u.par.magic = s.par.magic →
        fitsCap u.par.nodeCap 513 →
        ∃ m, ∀ rest', ∃ v, exec .decode { u with answers := oks m rest' } = .next v ∧ v.st = .done ∧
          v.answers = rest' ∧ v.dst = s.src ∧ v.eofSeen = !(s.src.isEmpty && P.isEmpty)

/-- The empty file: ENCODE writes the magic and the EOF-symbol leaf and nothing more, and DECODE of that, with any bits
after it, writes nothing (R118, R145). -/
def Obligations.EmptyInputGivesHeaderOnly : Prop :=
  (∀ s rest, s.accepts = true → s.src = [] → s.srcPos = 0 → s.par.magic = 1846 → widthFits s.par.width 1 = true →
    s.answers = oks 6 rest →
    ∃ t, exec .encode s = .next t ∧ t.st = .done ∧ t.answers = rest ∧
      t.bout = s.bout ++ toBits 32 1846 ++ [false, true, false, false, false, false, false, false, false, false]) ∧
  (∀ u P rest, u.accepts = true → u.binPos = 0 → u.par.magic = 1846 → fitsCap u.par.nodeCap 1 →
    u.bin = toBits 32 1846 ++ [false, true, false, false, false, false, false, false, false, false] ++ P →
    u.answers = oks 4 rest →
    ∃ v, exec .decode u = .next v ∧ v.st = .done ∧ v.answers = rest ∧ v.dst = u.dst ∧ v.binPos = 42 ∧
      v.eofSeen = !P.isEmpty)

/-- One repeated byte value: the tree is the EOF-symbol and that byte, and the payload for n repetitions is n bits 1 and
one bit 0 (R93, R144). -/
def Obligations.RepeatedByteGivesTwoLeaves : Prop :=
  ∀ s y n rest, s.accepts = true → s.src = List.replicate (n + 1) y → s.srcPos = 0 →
    widthFits s.par.width (n + 2) = true → s.answers = oks (3 * n + 13) rest →
    ∃ t, exec .encode s = .next t ∧ t.st = .done ∧ t.answers = rest ∧
      t.tree = .internal (.leaf eofSym 1) (.leaf (symbolOfByte y) (n + 1)) (n + 2) ∧
      t.bout = s.bout ++ toBits 32 s.par.magic.toNat ++
        (true :: false :: toBits 9 256 ++ false :: toBits 9 y.toNat) ++ List.replicate (n + 1) true ++ [false]

/-- Two inputs that are permutations of each other give the same FT, TREE, CT and header and outputs of equal length
(R88, R97, R142). -/
def Obligations.PermutedInputGivesTheSameTree : Prop :=
  (∀ s u t v, s.accepts = true → u.accepts = true → (s.src.drop s.srcPos).Perm (u.src.drop u.srcPos) →
    exec .fcnt s = .next t → t.st = .done → exec .fcnt u = .next v → v.st = .done → t.ft = v.ft) ∧
  (∀ s u t v, s.accepts = true → u.accepts = true → s.ft = u.ft → s.ftValid = true → u.ftValid = true →
    exec .tbld s = .next t → t.st = .done → exec .tbld u = .next v → v.st = .done → t.tree = v.tree) ∧
  (∀ s u t v, s.accepts = true → u.accepts = true → s.srcPos = 0 → u.srcPos = 0 → s.src.Perm u.src →
    s.bout = [] → u.bout = [] → s.par.magic = u.par.magic →
    exec .encode s = .next t → t.st = .done → exec .encode u = .next v → v.st = .done →
    t.ft = v.ft ∧ t.tree = v.tree ∧ t.ct = v.ct ∧ t.bout.length = v.bout.length ∧
      t.bout.take (32 + t.tree.ser.length) = v.bout.take (32 + t.tree.ser.length))

/-! ### The fields of the file format (assumption 7) -/

/-- FILE.MAGIC, the field that holds MAGIC: where MCHK waits for it, MCHK has passed, as a command or as the first part of
DECODE; elsewhere it is data on a stream and nothing happens. That TDES starts in the same step is the model's grouping of
updates (assumption 23). -/
def Obligations.MagicFieldPassesTheGate : Prop :=
  (∀ s, s.readsMagic = true → s.cmd = 0xA →
    exec .fileMagic s = .next { s with v := .val s.par.magic.toNat, phase := .halt, st := .done, pend := none }) ∧
  (∀ s, s.readsMagic = true → s.cmd = 0x2 →
    exec .fileMagic s = .next { s with
      v := .val s.par.magic.toNat, eofSeen := false, treeValid := false, ctValid := false, phase := .tdWalk,
      nnodes := 0, stk := [], pend := some .binReadBit }) ∧
  (∀ s, s.readsMagic = false → exec .fileMagic s = .next s)

/-- FILE.NODE.INTERNAL and FILE.NODE.LEAF where TDES waits for a marker and a node fits: an internal node opens; a leaf
completes the tree, becomes the left child of the node on top, or completes that node as its right child, which may
complete the whole tree in turn; a value over 256 is CorruptHeader(sub 2); elsewhere nothing happens (R101, R103). That all
of this is the one step of the field's last transaction is the model's grouping of updates (assumption 23); that stk holds
the open nodes as these entries is how the model holds it (assumption 8), and that it is left empty is its choice
(assumption 16). -/
def Obligations.NodeFieldsBuildTheTree : Prop :=
  (∀ s, s.readsMarker = true → fitsCap s.par.nodeCap (s.nnodes + 1) →
    exec .fileNodeInternal s = .next { s with
      b := .val true, nnodes := s.nnodes + 1, stk := .needLeft :: s.stk, pend := some .binReadBit }) ∧
  (∀ s v sym, s.readsMarker = true → fitsCap s.par.nodeCap (s.nnodes + 1) → symbolOfNat v.toNat = some sym →
    (s.stk = [] → s.cmd = 0x7 →
      exec (.fileNodeLeaf v) s = .next { s with
        b := .val false, v := .val v.toNat, nnodes := s.nnodes + 1, tree := .leaf sym 1, treeValid := true,
        phase := .halt, st := .done, pend := none }) ∧
    (∀ rest, s.stk = .needLeft :: rest →
      exec (.fileNodeLeaf v) s = .next { s with
        b := .val false, v := .val v.toNat, nnodes := s.nnodes + 1, stk := .needRight (.leaf sym 1) :: rest,
        pend := some .binReadBit }) ∧
    (∀ l rest, s.stk = .needRight l :: .needLeft :: rest →
      exec (.fileNodeLeaf v) s = .next { s with
        b := .val false, v := .val v.toNat, nnodes := s.nnodes + 1
        stk := .needRight (.internal l (.leaf sym 1) (l.weight + 1)) :: rest, pend := some .binReadBit }) ∧
    (∀ l, s.stk = [.needRight l] → s.cmd = 0x7 →
      exec (.fileNodeLeaf v) s = .next { s with
        b := .val false, v := .val v.toNat, nnodes := s.nnodes + 1, stk := []
        tree := .internal l (.leaf sym 1) (l.weight + 1), treeValid := true, phase := .halt, st := .done,
        pend := none })) ∧
  (∀ s v, s.readsMarker = true → fitsCap s.par.nodeCap (s.nnodes + 1) → 256 < v.toNat →
    ∃ t, exec (.fileNodeLeaf v) s = .next t ∧ t.tookFault 3 2 v.toNat ∧ s.sameStreams t) ∧
  (∀ s v, s.readsMarker = false → exec .fileNodeInternal s = .next s ∧ exec (.fileNodeLeaf v) s = .next s)

/-! ### The whole machine -/

/-- The invariant holds at reset. -/
def Obligations.InvariantHoldsAtReset : Prop := State.reset.Inv

/-- Every step of a state of the invariant gives a next state of the invariant: no command reads an element that is
unspecified (R41), a valid CT is the table of the TREE now held (R29), the flags, the phase and the transaction
outstanding are those of the pseudocode (R26, R28), at the boundaries of the model's steps: how updates group into steps is
the model's choice (assumption 23). The one way for a step to stop is a count or a weight beyond a finite
W (U3), which this hardware does not have. -/
def Obligations.EveryStepKeepsTheInvariant : Prop :=
  ∀ s, s.Inv → (∃ t, step s = .next t ∧ t.Inv) ∨ (step s = .refused .countWidth ∧ s.par.width ≠ none)

/-- The parameters never change. SRC changes only where the host supplies it, and the read positions stay within their
streams. Where the host does not supply BIN, or does so while BUSY, BIN keeps its contents and bin_pos never moves back;
where it does not collect BOUT or DST, or does so while BUSY, the step only appends to them (R39, R44, R46, R47, R61, R140).
That the host may supply SRC in every st is the model's choice (assumption 24); that what it does to BIN, BOUT and DST while
BUSY has no effect is read from R61 (b), R169 and R180 (assumption 25). -/
def Obligations.StreamsAreReadForwardAndAppended : Prop :=
  ∀ s t, s.Inv → step s = .next t → t.par = s.par ∧ t.srcPos ≤ t.src.length ∧ t.binPos ≤ t.bin.length ∧
    ((∀ b p rest, s.host ≠ .setSrc b p :: rest) → t.src = s.src) ∧
    ((∀ b p rest, s.host = .setBin b p :: rest → s.st = .busy) → t.bin = s.bin ∧ s.binPos ≤ t.binPos) ∧
    ((∀ rest, s.host = .takeBout :: rest → s.st = .busy) → s.bout <+: t.bout) ∧
    ((∀ rest, s.host = .takeDst :: rest → s.st = .busy) → s.dst <+: t.dst)

/-- If the collaborator answers every transaction, every command ends in DONE or FAULT, after a number of transactions that
the state fixes, with one exception: SDEC, alone or in DECODE, on a byte leaf with a bit left (R180, R182). With a finite W
it may be refused instead (U3). The exception runs for ever: SDEC and DECODE come to it, and no step leaves it while no
transaction fails, whatever the host does, but for a reset (R136, R180). That a host cannot supply BIN while BUSY is
read from R169 and R180 (assumption 25). -/
def Obligations.CommandsEndIfAnswered : Prop :=
  (∀ (s : State) i, s.Inv → s.accepts = true → i.space = .command →
    (i = .sdec → ∀ y w, s.tree = .leaf (symbolOfByte y) w → s.bin.length ≤ s.binPos) →
    (i = .decode → ∀ (y : Byte) bs, bs ≠ [] →
      s.bin.drop s.binPos ≠ toBits 32 s.par.magic.toNat ++ false :: toBits 9 y.toNat ++ bs) →
    ∃ n, ∀ rest, rest.head? ≠ some .hold →
      (∃ t, exec i { s with answers := oks n rest } = .next t ∧ (t.st = .done ∨ t.st = .fault) ∧ t.answers = rest) ∨
      (exec i { s with answers := oks n rest } = .refused .countWidth ∧ s.par.width ≠ none)) ∧
  (∀ (s : State) y w, s.accepts = true → s.treeValid = true → s.tree = .leaf (symbolOfByte y) w →
    s.binPos < s.bin.length → .fail ∉ s.answers → ∃ t, exec .sdec s = .next t ∧ t.endless y) ∧
  (∀ (s : State) (y : Byte) bs, s.accepts = true → fitsCap s.par.nodeCap 1 → bs ≠ [] →
    s.bin.drop s.binPos = toBits 32 s.par.magic.toNat ++ false :: toBits 9 y.toNat ++ bs →
    s.answers = oks 3 [] → ∃ t, exec .decode s = .next t ∧ t.endless y) ∧
  (∀ (s : State) y, s.endless y → .fail ∉ s.answers → (∀ rest, s.host ≠ .reset :: rest) →
    ∃ t, step s = .next t ∧ t.endless y ∧ .fail ∉ t.answers) ∧
  (∀ (s : State) y rest, s.endless y → s.host = .reset :: rest → ∃ t, step s = .next t ∧ t.st = .idle)

/-- How much one step does (R9, R36, R61, R172). A CMD write that the collaborator holds only starts the command: it is
BUSY, so CMD writes are lost, with no stream moved and no answer used, unless it took a UsageError. A step of the block by
itself answers at most one transaction, and moves at most that transaction's stream; an internal update uses no answer.
With `tick` at the head of its queue the host lets the block make just that step, so it can act between any two. And what
`exec` does in one step under a script without a hold, the same steps do one by one. How updates group into steps
is the model's choice (assumptions 6, 23), and so is that the tables after a fault agree (assumption 2). -/
def Obligations.CommandRunsAsSingleSteps : Prop :=
  (∀ i s as, s.accepts = true → i.space = .command → s.answers = .hold :: as →
    ∃ u, exec i s = .next u ∧ s.sameStreams u ∧
      ((u.st = .busy ∧ u.answers = as) ∨ (u.st = .fault ∧ u.faultCause.toNat % 16 = 5 ∧ u.answers = s.answers))) ∧
  (∀ s as, s.accepts = true → s.treeValid = true → s.answers = .hold :: as →
    exec .ctdr s = .next { s with
      eofSeen := false, ctValid := false, cmd := 0x5, phase := .cdWalk, st := .busy, pend := none, answers := as }) ∧
  (∀ s rest, s.host = .tick :: rest →
    step s = andThen (step { s with host := [] }) fun t => .next { t with host := rest }) ∧
  (∀ s t, (s.host = [] ∨ ∃ rest, s.host = .tick :: rest) → step s = .next t →
    (t.answers = s.answers ∧ s.sameStreams t) ∨
    (∃ a, s.answers = a :: t.answers ∧
      (s.sameStreams t ∨ (a = .ok ∧ ∃ txn, s.pend = some txn ∧ (perform txn s).2.sameStreams t)))) ∧
  (∀ i s t, s.accepts = true → i.space = .command → .hold ∉ s.answers → exec i s = .next t →
    ∃ u n, exec i { s with answers := .hold :: s.answers } = .next u ∧
      steps n { u with host := [], answers := s.answers } = .next { t with host := [] })

end ObligationStatements
end

