-- ==== Sys2Proof/Laws/Bits.lean ====
section
/-! SUPPORT. Bit strings and the values they hold (R11): `toBits` and `ofBits` are inverse. -/

namespace Sys2Proof.Machine

@[simp] theorem length_toBits (n v : Nat) : (toBits n v).length = n := by
  induction n with
  | zero => rfl
  | succ n ih => simp [toBits, ih]

theorem ofBits_foldl (bits : List Bit) (v : Nat) :
    bits.foldl (fun v b => 2 * v + b.toNat) v = 2 ^ bits.length * v + ofBits bits := by
  induction bits generalizing v with
  | nil => simp [ofBits]
  | cons b bits ih =>
    have h : ofBits (b :: bits) = 2 ^ bits.length * (2 * 0 + b.toNat) + ofBits bits := ih _
    rw [List.foldl_cons, ih, h, List.length_cons, Nat.pow_succ]
    ring

theorem ofBits_cons (b : Bit) (bits : List Bit) :
    ofBits (b :: bits) = 2 ^ bits.length * b.toNat + ofBits bits := by
  rw [ofBits, List.foldl_cons, ofBits_foldl]; simp

theorem ofBits_lt (bits : List Bit) : ofBits bits < 2 ^ bits.length := by
  induction bits with
  | nil => simp [ofBits]
  | cons b bits ih =>
    rw [ofBits_cons, List.length_cons, Nat.pow_succ]
    cases b <;> simp <;> omega

theorem testBit_add (b : Bit) {n v : Nat} (h : v < 2 ^ n) : (2 ^ n * b.toNat + v).testBit n = b := by
  rw [Nat.testBit_two_pow_mul_add _ h]; cases b <;> simp

theorem toBits_add (b : Bit) {n v : Nat} (h : v < 2 ^ n) :
    ∀ k ≤ n, toBits k (2 ^ n * b.toNat + v) = toBits k v := by
  intro k
  induction k with
  | zero => intro _; rfl
  | succ k ih =>
    intro hk
    rw [toBits, toBits, ih (by omega), Nat.testBit_two_pow_mul_add _ h, if_pos (by omega)]

/-- A bit string is `bin_n` of the value it holds (R45, R46). -/
theorem toBits_ofBits (bits : List Bit) : toBits bits.length (ofBits bits) = bits := by
  induction bits with
  | nil => rfl
  | cons b bits ih =>
    rw [List.length_cons, toBits, ofBits_cons, testBit_add b (ofBits_lt bits),
      toBits_add b (ofBits_lt bits) _ le_rfl, ih]

theorem toBits_mod (n v k : Nat) (h : k ≤ n) : toBits k (v % 2 ^ n) = toBits k v := by
  induction k with
  | zero => rfl
  | succ k ih => simp [toBits, ih (by omega), Nat.testBit_mod_two_pow, show k < n by omega]

/-- The value read from `bin_n(v)` is v (R45, R46). -/
theorem ofBits_toBits {n v : Nat} (h : v < 2 ^ n) : ofBits (toBits n v) = v := by
  induction n generalizing v with
  | zero => simp at h; subst h; rfl
  | succ n ih =>
    rw [toBits, ofBits_cons, length_toBits, ← toBits_mod n v n le_rfl, ih (Nat.mod_lt _ (by positivity)),
      Nat.testBit_eq_decide_div_mod_eq]
    have hm := Nat.div_add_mod v (2 ^ n)
    have hd : v / 2 ^ n = 0 ∨ v / 2 ^ n = 1 := by
      have : v / 2 ^ n < 2 := by
        rw [Nat.div_lt_iff_lt_mul (by positivity)]; rw [Nat.pow_succ] at h; omega
      generalize v / 2 ^ n = d at this
      omega
    rcases hd with hd | hd <;> (rw [hd] at hm ⊢; simpa using hm)

end Sys2Proof.Machine
end

