-- ==== Sys2Proof/Laws/Tables.lean ====
section
/-! SUPPORT. Reading and writing the entries of FT and CT (R17, R21). -/

namespace Sys2Proof.Machine

theorem ftAt_incr (ft : Vector Nat 256) (x y : Byte) :
    ftAt (ftIncr ft x) y = ftAt ft y + if x = y then 1 else 0 := by
  unfold ftAt ftIncr
  rw [Vector.getElem_set]
  by_cases h : x = y
  · subst h; simp [ftAt]
  · have hn : x.toNat ≠ y.toNat := fun e => h (BitVec.eq_of_toNat_eq e)
    simp [h, hn]

@[simp] theorem ftAt_zero (y : Byte) : ftAt (Vector.replicate 256 0) y = 0 := by
  simp [ftAt]

/-- Counting a list of bytes adds to each counter the number of times its byte occurs (R83). -/
theorem ftAt_foldl (ys : List Byte) (ft : Vector Nat 256) (y : Byte) :
    ftAt (ys.foldl ftIncr ft) y = ftAt ft y + ys.count y := by
  induction ys generalizing ft with
  | nil => simp
  | cons x ys ih =>
    rw [List.foldl_cons, ih, ftAt_incr, List.count_cons]
    by_cases h : x = y
    · simp [h]; omega
    · simp [h]

/-- Two frequency tables with the same counters are equal. -/
theorem ft_ext {ft ft' : Vector Nat 256} (h : ∀ y : Byte, ftAt ft y = ftAt ft' y) : ft = ft' := by
  ext i hi
  have := h (BitVec.ofNat 8 i)
  simpa [ftAt, Nat.mod_eq_of_lt hi] using this

theorem ctAt_set (ct : Vector (Option Code) 257) (s u : Symbol) (code : Code) :
    ctAt (ctSet ct s code) u = if s = u then some code else ctAt ct u := by
  unfold ctAt ctSet
  rw [Vector.getElem_set]
  by_cases h : s = u
  · subst h; simp
  · have hn : s.val ≠ u.val := fun e => h (Fin.ext e)
    simp [h, hn]

@[simp] theorem ctAt_none (s : Symbol) : ctAt (Vector.replicate 257 none) s = none := by
  simp [ctAt]

@[simp] theorem ctAt_table (t : Tree) (s : Symbol) : ctAt t.table s = t.codeOf s := by
  simp [ctAt, Tree.table]

/-- Two code tables with the same entries are equal. -/
theorem ct_ext {ct ct' : Vector (Option Code) 257} (h : ∀ s, ctAt ct s = ctAt ct' s) : ct = ct' := by
  ext1 i hi
  exact h ⟨i, hi⟩

@[simp] theorem symbolOfByte_val (y : Byte) : (symbolOfByte y).val = y.toNat := rfl

theorem symbolOfByte_ne_eof (y : Byte) : symbolOfByte y ≠ eofSym := by
  intro h
  have := congrArg Fin.val h
  have hy := y.isLt
  simp [eofSym] at this
  omega

@[simp] theorem byteOfSymbol_symbolOfByte (y : Byte) : byteOfSymbol (symbolOfByte y) = y := by
  simp [byteOfSymbol]

theorem symbolOfNat_val {v : Nat} {s : Symbol} (h : symbolOfNat v = some s) : s.val = v := by
  unfold symbolOfNat at h
  split at h
  · cases h; rfl
  · cases h

@[simp] theorem symbolOfNat_of_symbol (s : Symbol) : symbolOfNat s.val = some s := by
  simp [symbolOfNat, s.isLt]

theorem symbolOfNat_eq_none {v : Nat} : symbolOfNat v = none ↔ 256 < v := by
  unfold symbolOfNat; split <;> simp <;> omega

/-! ### Widths of counts (R86, R94) -/

@[simp] theorem widthFits_none (n : Nat) : widthFits none n = true := rfl

/-- What is less than a count that fits, fits. -/
theorem widthFits_le {w : Option Nat} {n m : Nat} (h : n ≤ m) (hm : widthFits w m = true) : widthFits w n = true := by
  cases w with
  | none => rfl
  | some w => simp only [widthFits, decide_eq_true_eq] at hm ⊢; omega

/-- Zero fits in any width: FT just cleared. -/
@[simp] theorem widthFits_zero (w : Option Nat) : widthFits w 0 = true := by
  cases w <;> simp [widthFits]

/-- Only a finite W refuses a count. -/
theorem width_ne_none {w : Option Nat} {n : Nat} (h : ¬ widthFits w n = true) : w ≠ none := by
  rintro rfl; exact h rfl

end Sys2Proof.Machine
end

