-- ==== Sys2Proof/Laws/Trees.lean ====
section
/-! SUPPORT. Trees: counts, serializations and Codes (R19, R73, R76, R78, R79, R105). -/

namespace Sys2Proof.Machine

@[simp] theorem Tree.weight_leaf (sym : Symbol) (w : Nat) : (Tree.leaf sym w).weight = w := rfl

@[simp] theorem Tree.weight_internal (l r : Tree) (w : Nat) : (Tree.internal l r w).weight = w := rfl

namespace Tree

/-- A tree with N leaves has N - 1 internal nodes (R19, R149). -/
theorem leafCount_eq (t : Tree) : t.leafCount = t.innerCount + 1 := by
  induction t with
  | leaf => rfl
  | internal l r w hl hr => simp only [leafCount, innerCount]; omega

theorem length_leaves (t : Tree) : t.leaves.length = t.leafCount := by
  induction t with
  | leaf => rfl
  | internal l r w hl hr => simp [leaves, leafCount, hl, hr]

/-- 10 bits for a leaf, 1 for an internal node (R76). -/
theorem length_ser (t : Tree) : t.ser.length = 10 * t.leafCount + t.innerCount := by
  induction t with
  | leaf => simp [ser, leafCount, innerCount]
  | internal l r w hl hr => simp only [ser, leafCount, innerCount, List.length_cons, List.length_append]; omega

theorem innerCount_le_txns (t : Tree) : 1 ≤ t.txns := by
  have := leafCount_eq t; unfold txns; omega

/-- The root weighs what the leaves weigh together (R94). -/
theorem weight_eq_sum {t : Tree} (h : t.weighted = true) : t.weight = (t.leaves.map Prod.snd).sum := by
  induction t with
  | leaf => simp [leaves]
  | internal l r w hl hr =>
    simp only [weighted, Bool.and_eq_true, decide_eq_true_eq] at h
    simp [leaves, h.2, hl h.1.1, hr h.1.2]

theorem placeholder_weighted (t : Tree) : t.placeholder.weighted = true := by
  induction t with
  | leaf => rfl
  | internal l r w hl hr => simp [placeholder, weighted, hl, hr]

theorem placeholder_ser (t : Tree) : t.placeholder.ser = t.ser := by
  induction t with
  | leaf => rfl
  | internal l r w hl hr => simp [placeholder, ser, hl, hr]

theorem placeholder_codes (t : Tree) : t.placeholder.codes = t.codes := by
  induction t with
  | leaf => rfl
  | internal l r w hl hr => simp [placeholder, codes, hl, hr]

/-- The weight of a node is the number of leaves below it (R105). -/
theorem placeholder_weight (t : Tree) : t.placeholder.weight = t.leafCount := by
  induction t with
  | leaf => rfl
  | internal l r w hl hr => simp [placeholder, leafCount, hl, hr]

theorem placeholder_counts (t : Tree) :
    t.placeholder.leafCount = t.leafCount ∧ t.placeholder.innerCount = t.innerCount := by
  induction t with
  | leaf => exact ⟨rfl, rfl⟩
  | internal l r w hl hr => simp [placeholder, leafCount, innerCount, hl, hr]

/-- `ser` is self-delimiting and injective but for weights (R76). -/
theorem ser_injective {t u : Tree} {bs cs : List Bit} (h : t.ser ++ bs = u.ser ++ cs) :
    t.placeholder = u.placeholder ∧ bs = cs := by
  induction t generalizing u bs cs with
  | leaf sym w =>
    cases u with
    | leaf sym' w' =>
      simp only [ser, List.cons_append, List.cons.injEq, true_and] at h
      have hs : toBits 9 sym.val = toBits 9 sym'.val := List.append_inj_left h (by simp)
      have hv := congrArg ofBits hs
      rw [ofBits_toBits (by omega), ofBits_toBits (by omega)] at hv
      obtain rfl : sym = sym' := Fin.ext hv
      exact ⟨rfl, List.append_inj_right h (by simp)⟩
    | internal => simp [ser] at h
  | internal l r w hl hr =>
    cases u with
    | leaf => simp [ser] at h
    | internal l' r' w' =>
      simp only [ser, List.cons_append, List.cons.injEq, true_and, List.append_assoc] at h
      obtain ⟨e1, h1⟩ := hl h
      obtain ⟨e2, h2⟩ := hr h1
      exact ⟨by simp [placeholder, e1, e2], h2⟩

/-! ### Codes -/

theorem codes_fst (t : Tree) : t.codes.map Prod.fst = t.leaves.map Prod.fst := by
  induction t with
  | leaf => rfl
  | internal l r w hl hr => simp [codes, leaves, ← hl, ← hr, Function.comp_def]

theorem codes_length_le {t : Tree} {e : Symbol × Code} (h : e ∈ t.codes) : e.2.length ≤ t.depth := by
  induction t generalizing e with
  | leaf => simp [codes] at h; simp [h]
  | internal l r w hl hr =>
    simp only [codes, List.mem_append, List.mem_map] at h
    simp only [depth]
    rcases h with ⟨f, hf, rfl⟩ | ⟨f, hf, rfl⟩
    · have := hl hf; simp only [List.length_cons]; omega
    · have := hr hf; simp only [List.length_cons]; omega

/-- A path that is a prefix of another leads to the same leaf (R79). -/
theorem codes_prefix {t : Tree} {s u : Symbol} {p q : Code} (hp : (s, p) ∈ t.codes) (hq : (u, q) ∈ t.codes)
    (h : p <+: q) : s = u ∧ p = q := by
  induction t generalizing p q with
  | leaf => simp [codes] at hp hq; simp [hp, hq]
  | internal l r w hl hr =>
    simp only [codes, List.mem_append, List.mem_map, Prod.mk.injEq] at hp hq
    rcases hp with ⟨f, hf, rfl, rfl⟩ | ⟨f, hf, rfl, rfl⟩ <;> rcases hq with ⟨g, hg, rfl, rfl⟩ | ⟨g, hg, rfl, rfl⟩
    · have := hl hf hg ((List.cons_prefix_cons.mp h).2); simp [this]
    · exact absurd (List.cons_prefix_cons.mp h).1 (by simp)
    · exact absurd (List.cons_prefix_cons.mp h).1 (by simp)
    · have := hr hf hg ((List.cons_prefix_cons.mp h).2); simp [this]

theorem codeOf_leaf (sym : Symbol) (w : Nat) (s : Symbol) :
    (leaf sym w).codeOf s = if sym = s then some [] else none := by
  by_cases h : sym = s <;> simp [codeOf, codes, h]

/-- The right subtree's Code is the one that stays (R111, R112). -/
theorem codeOf_internal (l r : Tree) (w : Nat) (s : Symbol) :
    (internal l r w).codeOf s = ((r.codeOf s).map (true :: ·)).or ((l.codeOf s).map (false :: ·)) := by
  simp only [codeOf, codes, List.filter_append, List.filter_map, List.getLast?_append, List.getLast?_map,
    Function.comp_def]
  generalize (List.filter (fun e => decide (e.1 = s)) l.codes).getLast? = x
  generalize (List.filter (fun e => decide (e.1 = s)) r.codes).getLast? = y
  cases x <;> cases y <;> rfl

theorem codeOf_mem {t : Tree} {s : Symbol} {p : Code} (h : t.codeOf s = some p) : (s, p) ∈ t.codes := by
  unfold codeOf at h
  rw [Option.map_eq_some_iff] at h
  obtain ⟨e, he, rfl⟩ := h
  have := List.mem_of_getLast? he
  simp only [List.mem_filter, decide_eq_true_eq] at this
  obtain ⟨hm, rfl⟩ := this
  exact hm

/-- A symbol has a Code when it is on a leaf, and only then (R109). -/
theorem codeOf_eq_none {t : Tree} {s : Symbol} : t.codeOf s = none ↔ s ∉ t.leaves.map Prod.fst := by
  rw [← codes_fst, codeOf, Option.map_eq_none_iff, List.getLast?_eq_none_iff, List.filter_eq_nil_iff]
  simp only [List.mem_map, decide_eq_true_eq, not_exists, not_and]

/-- With distinct leaf symbols the Code of a leaf is its path (R109, R111). -/
theorem codeOf_of_nodup {t : Tree} {s : Symbol} {p : Code} (hd : (t.leaves.map Prod.fst).Nodup)
    (h : (s, p) ∈ t.codes) : t.codeOf s = some p := by
  rw [← codes_fst] at hd
  cases hc : t.codeOf s with
  | none =>
    rw [codeOf_eq_none, ← codes_fst] at hc
    exact absurd (List.mem_map.mpr ⟨_, h, rfl⟩) hc
  | some q =>
    have := codeOf_mem hc
    have : (s, q) = (s, p) := List.inj_on_of_nodup_map hd this h rfl
    simp_all

theorem table_placeholder (t : Tree) : t.placeholder.table = t.table := by
  have : t.placeholder.codeOf = t.codeOf := funext fun s => by simp [codeOf, placeholder_codes]
  rw [table, this, table]

end Tree

end Sys2Proof.Machine
end

