-- ==== Sys2Proof/Laws/CodeTable.lean ====
section
/-! SUPPORT. The walk of CTDR fills CT with the Codes of TREE (R109 to R112). -/

namespace Sys2Proof.Machine

/-- What the walk leaves in an entry: the Code of the symbol below this node, after the path to it, or what was there. -/
theorem ctAt_walk (t : Tree) (path : Code) (W : Walk) (s : Symbol) :
    ctAt (walk t path W).ct s = ((t.codeOf s).map (path ++ ·)).or (ctAt W.ct s) := by
  induction t generalizing path W with
  | leaf sym w =>
    rw [walk, Tree.codeOf_leaf, ctAt_set]; split <;> simp
  | internal l r w hl hr =>
    rw [walk, hr, hl, Tree.codeOf_internal]
    cases r.codeOf s <;> cases l.codeOf s <;> simp

/-- From a cleared CT the walk from the root makes the table of TREE. -/
theorem walk_table (t : Tree) (path : Code) :
    (walk t [] { ct := Vector.replicate 257 none, path := path }).ct = t.table :=
  ct_ext fun s => by rw [ctAt_walk]; simp

end Sys2Proof.Machine
end

