-- ==== Sys2Proof/Laws/State.lean ====
section
/-! SUPPORT. One lemma per field per named update of State, true by rfl, so that no later proof unfolds one. -/

namespace Sys2Proof.Machine

variable (s : State)

/-! ### `issue` -/

@[simp] theorem State.issue_ft (t : Txn) : (s.issue t).ft = s.ft := rfl
@[simp] theorem State.issue_tree (t : Txn) : (s.issue t).tree = s.tree := rfl
@[simp] theorem State.issue_ct (t : Txn) : (s.issue t).ct = s.ct := rfl
@[simp] theorem State.issue_q (t : Txn) : (s.issue t).q = s.q := rfl
@[simp] theorem State.issue_seq (t : Txn) : (s.issue t).seq = s.seq := rfl
@[simp] theorem State.issue_r (t : Txn) : (s.issue t).r = s.r := rfl
@[simp] theorem State.issue_b (t : Txn) : (s.issue t).b = s.b := rfl
@[simp] theorem State.issue_v (t : Txn) : (s.issue t).v = s.v := rfl
@[simp] theorem State.issue_cur (t : Txn) : (s.issue t).cur = s.cur := rfl
@[simp] theorem State.issue_path (t : Txn) : (s.issue t).path = s.path := rfl
@[simp] theorem State.issue_stk (t : Txn) : (s.issue t).stk = s.stk := rfl
@[simp] theorem State.issue_nnodes (t : Txn) : (s.issue t).nnodes = s.nnodes := rfl
@[simp] theorem State.issue_a (t : Txn) : (s.issue t).a = s.a := rfl
@[simp] theorem State.issue_c (t : Txn) : (s.issue t).c = s.c := rfl
@[simp] theorem State.issue_k (t : Txn) : (s.issue t).k = s.k := rfl
@[simp] theorem State.issue_phase (t : Txn) : (s.issue t).phase = s.phase := rfl
@[simp] theorem State.issue_st (t : Txn) : (s.issue t).st = s.st := rfl
@[simp] theorem State.issue_ftValid (t : Txn) : (s.issue t).ftValid = s.ftValid := rfl
@[simp] theorem State.issue_treeValid (t : Txn) : (s.issue t).treeValid = s.treeValid := rfl
@[simp] theorem State.issue_ctValid (t : Txn) : (s.issue t).ctValid = s.ctValid := rfl
@[simp] theorem State.issue_eofSeen (t : Txn) : (s.issue t).eofSeen = s.eofSeen := rfl
@[simp] theorem State.issue_cmd (t : Txn) : (s.issue t).cmd = s.cmd := rfl
@[simp] theorem State.issue_faultCause (t : Txn) : (s.issue t).faultCause = s.faultCause := rfl
@[simp] theorem State.issue_faultInfo (t : Txn) : (s.issue t).faultInfo = s.faultInfo := rfl
@[simp] theorem State.issue_src (t : Txn) : (s.issue t).src = s.src := rfl
@[simp] theorem State.issue_srcPos (t : Txn) : (s.issue t).srcPos = s.srcPos := rfl
@[simp] theorem State.issue_bin (t : Txn) : (s.issue t).bin = s.bin := rfl
@[simp] theorem State.issue_binPos (t : Txn) : (s.issue t).binPos = s.binPos := rfl
@[simp] theorem State.issue_bout (t : Txn) : (s.issue t).bout = s.bout := rfl
@[simp] theorem State.issue_dst (t : Txn) : (s.issue t).dst = s.dst := rfl
@[simp] theorem State.issue_pend (t : Txn) : (s.issue t).pend = some t := rfl
@[simp] theorem State.issue_answers (t : Txn) : (s.issue t).answers = s.answers := rfl
@[simp] theorem State.issue_host (t : Txn) : (s.issue t).host = s.host := rfl
@[simp] theorem State.issue_free (t : Txn) : (s.issue t).free = s.free := rfl
@[simp] theorem State.issue_par (t : Txn) : (s.issue t).par = s.par := rfl

/-! ### `answered` -/

@[simp] theorem State.answered_ft : (s.answered).ft = s.ft := rfl
@[simp] theorem State.answered_tree : (s.answered).tree = s.tree := rfl
@[simp] theorem State.answered_ct : (s.answered).ct = s.ct := rfl
@[simp] theorem State.answered_q : (s.answered).q = s.q := rfl
@[simp] theorem State.answered_seq : (s.answered).seq = s.seq := rfl
@[simp] theorem State.answered_r : (s.answered).r = s.r := rfl
@[simp] theorem State.answered_b : (s.answered).b = s.b := rfl
@[simp] theorem State.answered_v : (s.answered).v = s.v := rfl
@[simp] theorem State.answered_cur : (s.answered).cur = s.cur := rfl
@[simp] theorem State.answered_path : (s.answered).path = s.path := rfl
@[simp] theorem State.answered_stk : (s.answered).stk = s.stk := rfl
@[simp] theorem State.answered_nnodes : (s.answered).nnodes = s.nnodes := rfl
@[simp] theorem State.answered_a : (s.answered).a = s.a := rfl
@[simp] theorem State.answered_c : (s.answered).c = s.c := rfl
@[simp] theorem State.answered_k : (s.answered).k = s.k := rfl
@[simp] theorem State.answered_phase : (s.answered).phase = s.phase := rfl
@[simp] theorem State.answered_st : (s.answered).st = s.st := rfl
@[simp] theorem State.answered_ftValid : (s.answered).ftValid = s.ftValid := rfl
@[simp] theorem State.answered_treeValid : (s.answered).treeValid = s.treeValid := rfl
@[simp] theorem State.answered_ctValid : (s.answered).ctValid = s.ctValid := rfl
@[simp] theorem State.answered_eofSeen : (s.answered).eofSeen = s.eofSeen := rfl
@[simp] theorem State.answered_cmd : (s.answered).cmd = s.cmd := rfl
@[simp] theorem State.answered_faultCause : (s.answered).faultCause = s.faultCause := rfl
@[simp] theorem State.answered_faultInfo : (s.answered).faultInfo = s.faultInfo := rfl
@[simp] theorem State.answered_src : (s.answered).src = s.src := rfl
@[simp] theorem State.answered_srcPos : (s.answered).srcPos = s.srcPos := rfl
@[simp] theorem State.answered_bin : (s.answered).bin = s.bin := rfl
@[simp] theorem State.answered_binPos : (s.answered).binPos = s.binPos := rfl
@[simp] theorem State.answered_bout : (s.answered).bout = s.bout := rfl
@[simp] theorem State.answered_dst : (s.answered).dst = s.dst := rfl
@[simp] theorem State.answered_pend : (s.answered).pend = none := rfl
@[simp] theorem State.answered_answers : (s.answered).answers = s.answers := rfl
@[simp] theorem State.answered_host : (s.answered).host = s.host := rfl
@[simp] theorem State.answered_free : (s.answered).free = s.free := rfl
@[simp] theorem State.answered_par : (s.answered).par = s.par := rfl

/-! ### `finish` -/

@[simp] theorem State.finish_ft : (s.finish).ft = s.ft := rfl
@[simp] theorem State.finish_tree : (s.finish).tree = s.tree := rfl
@[simp] theorem State.finish_ct : (s.finish).ct = s.ct := rfl
@[simp] theorem State.finish_q : (s.finish).q = s.q := rfl
@[simp] theorem State.finish_seq : (s.finish).seq = s.seq := rfl
@[simp] theorem State.finish_r : (s.finish).r = s.r := rfl
@[simp] theorem State.finish_b : (s.finish).b = s.b := rfl
@[simp] theorem State.finish_v : (s.finish).v = s.v := rfl
@[simp] theorem State.finish_cur : (s.finish).cur = s.cur := rfl
@[simp] theorem State.finish_path : (s.finish).path = s.path := rfl
@[simp] theorem State.finish_stk : (s.finish).stk = s.stk := rfl
@[simp] theorem State.finish_nnodes : (s.finish).nnodes = s.nnodes := rfl
@[simp] theorem State.finish_a : (s.finish).a = s.a := rfl
@[simp] theorem State.finish_c : (s.finish).c = s.c := rfl
@[simp] theorem State.finish_k : (s.finish).k = s.k := rfl
@[simp] theorem State.finish_phase : (s.finish).phase = .halt := rfl
@[simp] theorem State.finish_st : (s.finish).st = .done := rfl
@[simp] theorem State.finish_ftValid : (s.finish).ftValid = s.ftValid := rfl
@[simp] theorem State.finish_treeValid : (s.finish).treeValid = s.treeValid := rfl
@[simp] theorem State.finish_ctValid : (s.finish).ctValid = s.ctValid := rfl
@[simp] theorem State.finish_eofSeen : (s.finish).eofSeen = s.eofSeen := rfl
@[simp] theorem State.finish_cmd : (s.finish).cmd = s.cmd := rfl
@[simp] theorem State.finish_faultCause : (s.finish).faultCause = s.faultCause := rfl
@[simp] theorem State.finish_faultInfo : (s.finish).faultInfo = s.faultInfo := rfl
@[simp] theorem State.finish_src : (s.finish).src = s.src := rfl
@[simp] theorem State.finish_srcPos : (s.finish).srcPos = s.srcPos := rfl
@[simp] theorem State.finish_bin : (s.finish).bin = s.bin := rfl
@[simp] theorem State.finish_binPos : (s.finish).binPos = s.binPos := rfl
@[simp] theorem State.finish_bout : (s.finish).bout = s.bout := rfl
@[simp] theorem State.finish_dst : (s.finish).dst = s.dst := rfl
@[simp] theorem State.finish_pend : (s.finish).pend = none := rfl
@[simp] theorem State.finish_answers : (s.finish).answers = s.answers := rfl
@[simp] theorem State.finish_host : (s.finish).host = s.host := rfl
@[simp] theorem State.finish_free : (s.finish).free = s.free := rfl
@[simp] theorem State.finish_par : (s.finish).par = s.par := rfl

/-! ### `raise` (R162) -/

@[simp] theorem raise_ft (F : FaultClass) (sub info : Nat) : (raise F sub info s).ft = (Config.unspecifiedTables s.free).ft := rfl
@[simp] theorem raise_tree (F : FaultClass) (sub info : Nat) : (raise F sub info s).tree = (Config.unspecifiedTables s.free).tree := rfl
@[simp] theorem raise_ct (F : FaultClass) (sub info : Nat) : (raise F sub info s).ct = (Config.unspecifiedTables s.free).ct := rfl
@[simp] theorem raise_q (F : FaultClass) (sub info : Nat) : (raise F sub info s).q = (Config.unspecifiedTables s.free).q := rfl
@[simp] theorem raise_seq (F : FaultClass) (sub info : Nat) : (raise F sub info s).seq = (Config.unspecifiedTables s.free).seq := rfl
@[simp] theorem raise_r (F : FaultClass) (sub info : Nat) : (raise F sub info s).r = (Config.unspecifiedTables s.free).r := rfl
@[simp] theorem raise_b (F : FaultClass) (sub info : Nat) : (raise F sub info s).b = (Config.unspecifiedTables s.free).b := rfl
@[simp] theorem raise_v (F : FaultClass) (sub info : Nat) : (raise F sub info s).v = (Config.unspecifiedTables s.free).v := rfl
@[simp] theorem raise_cur (F : FaultClass) (sub info : Nat) : (raise F sub info s).cur = (Config.unspecifiedTables s.free).cur := rfl
@[simp] theorem raise_path (F : FaultClass) (sub info : Nat) : (raise F sub info s).path = (Config.unspecifiedTables s.free).path := rfl
@[simp] theorem raise_stk (F : FaultClass) (sub info : Nat) : (raise F sub info s).stk = (Config.unspecifiedTables s.free).stk := rfl
@[simp] theorem raise_nnodes (F : FaultClass) (sub info : Nat) : (raise F sub info s).nnodes = (Config.unspecifiedTables s.free).nnodes := rfl
@[simp] theorem raise_a (F : FaultClass) (sub info : Nat) : (raise F sub info s).a = (Config.unspecifiedTables s.free).a := rfl
@[simp] theorem raise_c (F : FaultClass) (sub info : Nat) : (raise F sub info s).c = (Config.unspecifiedTables s.free).c := rfl
@[simp] theorem raise_k (F : FaultClass) (sub info : Nat) : (raise F sub info s).k = (Config.unspecifiedTables s.free).k := rfl
@[simp] theorem raise_phase (F : FaultClass) (sub info : Nat) : (raise F sub info s).phase = .halt := rfl
@[simp] theorem raise_st (F : FaultClass) (sub info : Nat) : (raise F sub info s).st = .fault := rfl
@[simp] theorem raise_ftValid (F : FaultClass) (sub info : Nat) : (raise F sub info s).ftValid = false := rfl
@[simp] theorem raise_treeValid (F : FaultClass) (sub info : Nat) : (raise F sub info s).treeValid = false := rfl
@[simp] theorem raise_ctValid (F : FaultClass) (sub info : Nat) : (raise F sub info s).ctValid = false := rfl
@[simp] theorem raise_eofSeen (F : FaultClass) (sub info : Nat) : (raise F sub info s).eofSeen = false := rfl
@[simp] theorem raise_cmd (F : FaultClass) (sub info : Nat) : (raise F sub info s).cmd = s.cmd := rfl
@[simp] theorem raise_faultCause (F : FaultClass) (sub info : Nat) : (raise F sub info s).faultCause = BitVec.ofNat 8 (16 * sub + F.code) := rfl
@[simp] theorem raise_faultInfo (F : FaultClass) (sub info : Nat) : (raise F sub info s).faultInfo = BitVec.ofNat 32 info := rfl
@[simp] theorem raise_src (F : FaultClass) (sub info : Nat) : (raise F sub info s).src = s.src := rfl
@[simp] theorem raise_srcPos (F : FaultClass) (sub info : Nat) : (raise F sub info s).srcPos = s.srcPos := rfl
@[simp] theorem raise_bin (F : FaultClass) (sub info : Nat) : (raise F sub info s).bin = s.bin := rfl
@[simp] theorem raise_binPos (F : FaultClass) (sub info : Nat) : (raise F sub info s).binPos = s.binPos := rfl
@[simp] theorem raise_bout (F : FaultClass) (sub info : Nat) : (raise F sub info s).bout = s.bout := rfl
@[simp] theorem raise_dst (F : FaultClass) (sub info : Nat) : (raise F sub info s).dst = s.dst := rfl
@[simp] theorem raise_pend (F : FaultClass) (sub info : Nat) : (raise F sub info s).pend = none := rfl
@[simp] theorem raise_answers (F : FaultClass) (sub info : Nat) : (raise F sub info s).answers = s.answers := rfl
@[simp] theorem raise_host (F : FaultClass) (sub info : Nat) : (raise F sub info s).host = s.host := rfl
@[simp] theorem raise_free (F : FaultClass) (sub info : Nat) : (raise F sub info s).free = s.free + 1 := rfl
@[simp] theorem raise_par (F : FaultClass) (sub info : Nat) : (raise F sub info s).par = s.par := rfl

/-! ### `withBuilder` -/

@[simp] theorem State.withBuilder_ft (B : Builder) : (s.withBuilder B).ft = s.ft := rfl
@[simp] theorem State.withBuilder_tree (B : Builder) : (s.withBuilder B).tree = s.tree := rfl
@[simp] theorem State.withBuilder_ct (B : Builder) : (s.withBuilder B).ct = s.ct := rfl
@[simp] theorem State.withBuilder_q (B : Builder) : (s.withBuilder B).q = B.q := rfl
@[simp] theorem State.withBuilder_seq (B : Builder) : (s.withBuilder B).seq = B.seq := rfl
@[simp] theorem State.withBuilder_r (B : Builder) : (s.withBuilder B).r = s.r := rfl
@[simp] theorem State.withBuilder_b (B : Builder) : (s.withBuilder B).b = s.b := rfl
@[simp] theorem State.withBuilder_v (B : Builder) : (s.withBuilder B).v = s.v := rfl
@[simp] theorem State.withBuilder_cur (B : Builder) : (s.withBuilder B).cur = s.cur := rfl
@[simp] theorem State.withBuilder_path (B : Builder) : (s.withBuilder B).path = s.path := rfl
@[simp] theorem State.withBuilder_stk (B : Builder) : (s.withBuilder B).stk = s.stk := rfl
@[simp] theorem State.withBuilder_nnodes (B : Builder) : (s.withBuilder B).nnodes = s.nnodes := rfl
@[simp] theorem State.withBuilder_a (B : Builder) : (s.withBuilder B).a = B.a := rfl
@[simp] theorem State.withBuilder_c (B : Builder) : (s.withBuilder B).c = B.c := rfl
@[simp] theorem State.withBuilder_k (B : Builder) : (s.withBuilder B).k = s.k := rfl
@[simp] theorem State.withBuilder_phase (B : Builder) : (s.withBuilder B).phase = s.phase := rfl
@[simp] theorem State.withBuilder_st (B : Builder) : (s.withBuilder B).st = s.st := rfl
@[simp] theorem State.withBuilder_ftValid (B : Builder) : (s.withBuilder B).ftValid = s.ftValid := rfl
@[simp] theorem State.withBuilder_treeValid (B : Builder) : (s.withBuilder B).treeValid = s.treeValid := rfl
@[simp] theorem State.withBuilder_ctValid (B : Builder) : (s.withBuilder B).ctValid = s.ctValid := rfl
@[simp] theorem State.withBuilder_eofSeen (B : Builder) : (s.withBuilder B).eofSeen = s.eofSeen := rfl
@[simp] theorem State.withBuilder_cmd (B : Builder) : (s.withBuilder B).cmd = s.cmd := rfl
@[simp] theorem State.withBuilder_faultCause (B : Builder) : (s.withBuilder B).faultCause = s.faultCause := rfl
@[simp] theorem State.withBuilder_faultInfo (B : Builder) : (s.withBuilder B).faultInfo = s.faultInfo := rfl
@[simp] theorem State.withBuilder_src (B : Builder) : (s.withBuilder B).src = s.src := rfl
@[simp] theorem State.withBuilder_srcPos (B : Builder) : (s.withBuilder B).srcPos = s.srcPos := rfl
@[simp] theorem State.withBuilder_bin (B : Builder) : (s.withBuilder B).bin = s.bin := rfl
@[simp] theorem State.withBuilder_binPos (B : Builder) : (s.withBuilder B).binPos = s.binPos := rfl
@[simp] theorem State.withBuilder_bout (B : Builder) : (s.withBuilder B).bout = s.bout := rfl
@[simp] theorem State.withBuilder_dst (B : Builder) : (s.withBuilder B).dst = s.dst := rfl
@[simp] theorem State.withBuilder_pend (B : Builder) : (s.withBuilder B).pend = s.pend := rfl
@[simp] theorem State.withBuilder_answers (B : Builder) : (s.withBuilder B).answers = s.answers := rfl
@[simp] theorem State.withBuilder_host (B : Builder) : (s.withBuilder B).host = s.host := rfl
@[simp] theorem State.withBuilder_free (B : Builder) : (s.withBuilder B).free = s.free := rfl
@[simp] theorem State.withBuilder_par (B : Builder) : (s.withBuilder B).par = s.par := rfl

/-! ### `applyReset` (R167, R168) -/

@[simp] theorem applyReset_ft : (applyReset s).ft = Tables.zero.ft := rfl
@[simp] theorem applyReset_tree : (applyReset s).tree = Tables.zero.tree := rfl
@[simp] theorem applyReset_ct : (applyReset s).ct = Tables.zero.ct := rfl
@[simp] theorem applyReset_q : (applyReset s).q = Tables.zero.q := rfl
@[simp] theorem applyReset_seq : (applyReset s).seq = Tables.zero.seq := rfl
@[simp] theorem applyReset_r : (applyReset s).r = Tables.zero.r := rfl
@[simp] theorem applyReset_b : (applyReset s).b = Tables.zero.b := rfl
@[simp] theorem applyReset_v : (applyReset s).v = Tables.zero.v := rfl
@[simp] theorem applyReset_cur : (applyReset s).cur = Tables.zero.cur := rfl
@[simp] theorem applyReset_path : (applyReset s).path = Tables.zero.path := rfl
@[simp] theorem applyReset_stk : (applyReset s).stk = Tables.zero.stk := rfl
@[simp] theorem applyReset_nnodes : (applyReset s).nnodes = Tables.zero.nnodes := rfl
@[simp] theorem applyReset_a : (applyReset s).a = Tables.zero.a := rfl
@[simp] theorem applyReset_c : (applyReset s).c = Tables.zero.c := rfl
@[simp] theorem applyReset_k : (applyReset s).k = Tables.zero.k := rfl
@[simp] theorem applyReset_phase : (applyReset s).phase = .idle := rfl
@[simp] theorem applyReset_st : (applyReset s).st = .idle := rfl
@[simp] theorem applyReset_ftValid : (applyReset s).ftValid = false := rfl
@[simp] theorem applyReset_treeValid : (applyReset s).treeValid = false := rfl
@[simp] theorem applyReset_ctValid : (applyReset s).ctValid = false := rfl
@[simp] theorem applyReset_eofSeen : (applyReset s).eofSeen = false := rfl
@[simp] theorem applyReset_cmd : (applyReset s).cmd = 0 := rfl
@[simp] theorem applyReset_faultCause : (applyReset s).faultCause = 0 := rfl
@[simp] theorem applyReset_faultInfo : (applyReset s).faultInfo = 0 := rfl
@[simp] theorem applyReset_src : (applyReset s).src = s.src := rfl
@[simp] theorem applyReset_srcPos : (applyReset s).srcPos = s.srcPos := rfl
@[simp] theorem applyReset_bin : (applyReset s).bin = s.bin := rfl
@[simp] theorem applyReset_binPos : (applyReset s).binPos = s.binPos := rfl
@[simp] theorem applyReset_bout : (applyReset s).bout = s.bout := rfl
@[simp] theorem applyReset_dst : (applyReset s).dst = s.dst := rfl
@[simp] theorem applyReset_pend : (applyReset s).pend = none := rfl
@[simp] theorem applyReset_answers : (applyReset s).answers = s.answers := rfl
@[simp] theorem applyReset_host : (applyReset s).host = s.host := rfl
@[simp] theorem applyReset_free : (applyReset s).free = s.free := rfl
@[simp] theorem applyReset_par : (applyReset s).par = s.par := rfl

end Sys2Proof.Machine
end

