-- ==== Sys2Proof/Laws/Run.lean ====
section
/-! SUPPORT. How a command runs under the collaborator's answers: one lemma for each way `run` can go on, and `Steps`, the
relation that chains them. -/

namespace Sys2Proof.Machine

/-! ### Outcomes -/

@[simp] theorem andThen_next (s : State) (f : State → Out) : andThen (.next s) f = f s := rfl

@[simp] theorem andThen_fault (r : Fault) (f : State → Out) : andThen (.fault r) f = .fault r := rfl

@[simp] theorem andThen_refused (r : Refusal) (f : State → Out) : andThen (.refused r) f = .refused r := rfl

theorem andThen_assoc (o : Out) (f g : State → Out) :
    andThen (andThen o f) g = andThen o (fun s => andThen (f s) g) := by
  cases o <;> rfl

/-- A next state of a sequence comes from a next state of its first part. -/
theorem andThen_eq_next {o : Out} {f : State → Out} {t : State} :
    andThen o f = .next t ↔ ∃ s, o = .next s ∧ f s = .next t := by
  cases o <;> simp

/-! ### Internal updates -/

theorem internal_of_not_busy {s : State} (h : s.st ≠ .busy) : internal s = .next s := by
  simp [internal, h]

theorem internal_of_pend {s : State} {t : Txn} (h : s.pend = some t) : internal s = .next s := by
  simp [internal, h]

theorem settle_of_not_busy {s : State} (h : s.st ≠ .busy) : settle s = .next s := by
  simp [settle, internal_of_not_busy h]

theorem settle_of_pend {s : State} {t : Txn} (h : s.pend = some t) : settle s = .next s := by
  simp [settle, internal_of_pend h]

/-! ### `run` -/

/-- A block that runs no command uses no answer. -/
theorem run_of_not_busy {s : State} (h : s.st ≠ .busy) (as : List Answer) :
    run as s = .next { s with answers := as } := by
  cases as <;> simp [run, h, settle_of_not_busy h]

/-- An answered transaction: its result is delivered, and the run goes on. -/
theorem run_ok {s : State} {t : Txn} (hb : s.st = .busy) (hp : s.pend = some t) (as : List Answer) :
    run (.ok :: as) s = andThen (deliver (perform t s).1 (perform t s).2.answered) (run as) := by
  simp [run, hb, settle_of_pend hp, transact, hp]

/-- A failed transaction raises IOFailure and moves no stream (R48). -/
theorem run_fail {s : State} {t : Txn} (hb : s.st = .busy) (hp : s.pend = some t) (as : List Answer) :
    run (.fail :: as) s = .next { raise .ioFailure t.port.number 0 s with answers := as } := by
  rw [← run_of_not_busy (by simp)]
  simp [run, hb, settle_of_pend hp, transact, hp]

/-- A `hold`: the block stays BUSY and keeps all its state (R166). -/
theorem run_hold {s : State} (hb : s.st = .busy) (as : List Answer) :
    run (.hold :: as) s = .next { s with answers := as } := by
  simp [run, hb]

/-- No answer is left: the block waits at its transaction. -/
theorem run_blocked {s : State} {t : Txn} (hp : s.pend = some t) :
    run [] s = .next { s with answers := [] } := by
  simp [run, settle_of_pend hp]

/-! ### How many internal updates can follow each other -/

/-- How many internal updates may still follow before a transaction or the end of the command. -/
def rank (s : State) : Nat :=
  if s.st = .busy ∧ s.pend = none then
    match s.phase with
    | .tbInit => 3
    | .tbMerge => 2
    | .cdWalk => 1
    | _ => 0
  else 0

theorem rank_le (s : State) : rank s ≤ 3 := by
  unfold rank; split
  · split <;> omega
  · omega

theorem internal_of_rank {s : State} (h : rank s = 0) : internal s = .next s := by
  unfold rank at h; unfold internal
  split at h
  · rename_i hb; rw [if_pos hb]; split at h <;> simp_all
  · rename_i hb; rw [if_neg hb]

theorem rank_sencStart (s : State) : rank (sencStart s) = 0 := by
  unfold sencStart beginUnit; split <;> simp [rank]

theorem rank_ctdrEnd (s : State) : rank (ctdrEnd s) = 0 := by
  unfold ctdrEnd endUnit; split
  · exact rank_sencStart _
  · simp [rank]

theorem rank_ctdrStart (s : State) : rank (ctdrStart s) ≤ 1 := by
  unfold ctdrStart beginUnit; split
  · simp only [rank]; split <;> simp
  · simp [rank]

theorem rank_tbldEnd (s : State) : rank (tbldEnd s) ≤ 1 := by
  unfold tbldEnd endUnit; split
  · exact rank_ctdrStart _
  · simp [rank]

/-- Each internal update brings the next transaction or the end of the command nearer. -/
theorem rank_internal {s t : State} (h : internal s = .next t) : rank t ≤ rank s - 1 := by
  by_cases hr : rank s = 0
  · rw [internal_of_rank hr] at h; cases h; omega
  unfold rank at hr
  split at hr
  · rename_i hb
    unfold internal at h; rw [if_pos hb] at h
    have hs : rank s = _ := if_pos hb
    split at h <;> rename_i hp <;> simp only [hp] at hr hs <;> rw [hs]
    · cases h; simp [rank, tbldInit, hb]
    · simp only [tbldMerge] at h
      split at h
      · cases h
      · split at h
        · cases h; exact rank_tbldEnd _
        · cases h
    · cases h; exact (rank_ctdrEnd _).le
    · simp_all
  · exact absurd rfl hr

/-- After `settle` no internal update is due. -/
theorem rank_settle {s t : State} (h : settle s = .next t) : rank t = 0 := by
  unfold settle at h
  obtain ⟨s2, h2, h3⟩ := andThen_eq_next.mp h
  obtain ⟨s1, h0, h1⟩ := andThen_eq_next.mp h2
  have := rank_internal h0; have := rank_internal h1; have := rank_internal h3; have := rank_le s
  omega

theorem settle_internal {s s' : State} (hi : internal s = .next s') : settle s' = settle s := by
  have hs : settle s = andThen (internal s') internal := by simp [settle, hi]
  rw [hs]
  unfold settle
  cases h1 : internal s' with
  | fault r => simp
  | refused r => simp
  | next s1 =>
    simp only [andThen_next]
    cases h2 : internal s1 with
    | fault r => simp
    | refused r => simp
    | next s2 =>
      have := rank_internal hi; have := rank_internal h1; have := rank_internal h2; have := rank_le s
      exact internal_of_rank (by omega)

theorem internal_st {s s' : State} (hi : internal s = .next s') (h : s'.st = .busy) : s.st = .busy := by
  by_contra hb
  rw [internal_of_not_busy hb] at hi; cases hi; exact hb h

theorem settle_st {s t : State} (hi : settle s = .next t) (h : t.st = .busy) : s.st = .busy := by
  by_contra hb
  rw [settle_of_not_busy hb] at hi; cases hi; exact hb h

/-- `run` settles first, unless the collaborator holds. -/
theorem run_settle (s : State) (as : List Answer) : as.head? ≠ some .hold →
    run as s = andThen (settle s) (fun s' =>
      match as with
      | [] => .next { s' with answers := [] }
      | a :: as => if s'.st = .busy then andThen (transact (decide (a = .fail)) s') (run as)
          else .next { s' with answers := a :: as }) := by
  intro h
  cases as with
  | nil => rfl
  | cons a as =>
    have ha : a ≠ .hold := by simpa using h
    by_cases hb : s.st = .busy
    · simp [run, hb, ha]
    · simp [run, hb, settle_of_not_busy hb]

/-- An internal update costs no answer, unless the collaborator holds there. -/
theorem run_internal {s s' : State} (hi : internal s = .next s') {as : List Answer} (h : as.head? ≠ some .hold) :
    run as s = run as s' := by
  rw [run_settle s as h, run_settle s' as h, settle_internal hi]

/-- Nothing but the script decides how a run ends: where one script of results leads to DONE, every script that leads to
DONE leads to the same state, but for the answers left. -/
theorem run_done_unique (as : List Answer) {n : Nat} {s t u : State} (h : run (List.replicate n .ok) s = .next u)
    (hu : u.st = .done) (h' : run as s = .next t) (ht : t.st = .done) :
    { t with answers := [] } = { u with answers := [] } := by
  -- where the updates alone end the command, the other script makes them too
  have settled : ∀ {n : Nat} {s t u : State}, run (List.replicate n .ok) s = .next u → settle s = .next t →
      t.st = .done → { t with answers := [] } = { u with answers := [] } := by
    intro n s t u h hs ht
    have hh : (List.replicate n Answer.ok).head? ≠ some .hold := by cases n <;> simp [List.replicate_succ]
    rw [run_settle s _ hh, hs, andThen_next] at h
    cases n with
    | zero => simp at h; rw [← h]
    | succ n =>
      have hb : t.st ≠ .busy := by simp [ht]
      rw [List.replicate_succ] at h
      simp only [if_neg hb] at h
      injection h with h
      rw [← h]
  induction as generalizing n s with
  | nil =>
    obtain ⟨t₁, h1, h2⟩ := andThen_eq_next.mp h'
    obtain rfl : { t₁ with answers := [] } = t := by injection h2
    have := settled h h1 ht
    exact this
  | cons a as ih =>
    rw [run] at h'
    split at h'
    · rename_i hb
      split at h'
      · obtain rfl : { s with answers := as } = t := by injection h'
        simp [hb] at ht
      · rename_i hh
        obtain ⟨t₁, h1, h2⟩ := andThen_eq_next.mp h'
        split at h2
        · rename_i hb'
          obtain ⟨t₂, h3, h4⟩ := andThen_eq_next.mp h2
          have ha : a = .ok := by
            cases a with
            | ok => rfl
            | hold => exact absurd rfl hh
            | fail =>
              exfalso
              unfold transact at h3
              split at h3
              · cases h3
              · simp at h3
                subst h3
                rw [run_of_not_busy (by simp)] at h4
                obtain rfl := by injection h4
                cases ht
          subst ha
          cases n with
          | zero =>
            have : run [] s = .next { t₁ with answers := [] } := by simp [run, h1]
            rw [List.replicate_zero, this] at h
            obtain rfl := by injection h
            simp [hb'] at hu
          | succ n =>
            rw [List.replicate_succ, run, if_pos hb, if_neg (by simp), h1, andThen_next, if_pos hb', h3,
              andThen_next] at h
            exact ih h h4
        · obtain rfl : { t₁ with answers := a :: as } = t := by injection h2
          have := settled h h1 ht
          exact this
    · rename_i hb
      rw [run_of_not_busy hb] at h
      injection h' with h'; injection h with h
      rw [← h, ← h']

/-! ### Chains of steps -/

/-- With `n` results the run goes from `s` to `s'` and on from there, whatever the answers after them. -/
def Steps (n : Nat) (s s' : State) : Prop :=
  ∀ as : List Answer, run (oks n as) s = run as s'

theorem Steps.refl (s : State) : Steps 0 s s := fun _ => rfl

theorem oks_add (n m : Nat) (as : List Answer) : oks (n + m) as = oks n (oks m as) := by
  rw [oks, oks, oks, List.replicate_add, List.append_assoc]

theorem oks_succ (n : Nat) (as : List Answer) : oks (n + 1) as = .ok :: oks n as := by
  simp [oks, List.replicate_succ]

theorem Steps.trans {n m : Nat} {s s' s'' : State} (h : Steps n s s') (h' : Steps m s' s'') :
    Steps (n + m) s s'' := fun as => by
  rw [oks_add, h, h' as]

theorem Steps.cast {n m : Nat} {s s' : State} (h : Steps n s s') (e : n = m) : Steps m s s' := e ▸ h

theorem Steps.of_eq {n : Nat} {s s' s'' : State} (h : Steps n s s') (e : s' = s'') : Steps n s s'' := e ▸ h

/-- One answered transaction. -/
theorem Steps.txn {s s' : State} {t : Txn} (hb : s.st = .busy) (hp : s.pend = some t)
    (hd : deliver (perform t s).1 (perform t s).2.answered = .next s') : Steps 1 s s' := fun as => by
  rw [oks_succ, run_ok hb hp, hd, andThen_next]; rfl

/-- An internal update costs no answer where a result follows. -/
theorem Steps.internal {n : Nat} {s s' s'' : State} (hi : internal s = .next s') (h : Steps (n + 1) s' s'') :
    Steps (n + 1) s s'' := fun as => by
  rw [run_internal hi (by simp [oks_succ]), h as]

/-- Where the last transaction ends the command, what is left of the answers stays. -/
theorem Steps.end {n : Nat} {s s' : State} (h : Steps n s s') (he : s'.st ≠ .busy) (rest : List Answer) :
    run (oks n rest) s = .next { s' with answers := rest } := by
  rw [h, run_of_not_busy he]

end Sys2Proof.Machine
end

