-- ==== Sys2Proof/Laws/Environment.lean ====
section
/-! SUPPORT. The units touch nothing outside the block but through transactions (R38, R51, R61): what they do with a result
neither reads nor changes the streams and the queues, and changes neither CMD nor the parameters. Hence how single steps
of the block (R9) and a run of a command go together. -/

namespace Sys2Proof.Machine

/-- What is outside the block (R42, R10): the streams and their positions, and the two queues. -/
structure Env where
  src : List Byte
  srcPos : Nat
  bin : List Bit
  binPos : Nat
  bout : List Bit
  dst : List Byte
  answers : List Answer
  host : List HostAct
  deriving DecidableEq, Repr

def State.env (s : State) : Env where
  src := s.src
  srcPos := s.srcPos
  bin := s.bin
  binPos := s.binPos
  bout := s.bout
  dst := s.dst
  answers := s.answers
  host := s.host

def State.withEnv (s : State) (e : Env) : State :=
  { s with
    src := e.src, srcPos := e.srcPos, bin := e.bin, binPos := e.binPos, bout := e.bout, dst := e.dst
    answers := e.answers, host := e.host }

@[simp] theorem State.withEnv_env (s : State) : s.withEnv s.env = s := rfl

@[simp] theorem State.env_withEnv (s : State) (e : Env) : (s.withEnv e).env = e := rfl

/-- The update neither reads nor changes what is outside the block, and changes neither CMD nor the parameters. -/
structure Inside (f : State → State) : Prop where
  env : ∀ s e, f (s.withEnv e) = (f s).withEnv e := by intros; rfl
  cmd : ∀ s, (f s).cmd = s.cmd := by intro; rfl
  par : ∀ s, (f s).par = s.par := by intro; rfl

/-- The same of a function that can stop. -/
structure InsideOut (f : State → Out) : Prop where
  env : ∀ s e, f (s.withEnv e) = andThen (f s) fun t => .next (t.withEnv e)
  cmd : ∀ s t, f s = .next t → t.cmd = s.cmd
  par : ∀ s t, f s = .next t → t.par = s.par

/-! ### Closure -/

variable {f g : State → State}

theorem Inside.comp (hf : Inside f) (hg : Inside g) : Inside (fun s => f (g s)) where
  env s e := by show f (g _) = _; rw [hg.env, hf.env]
  cmd s := (hf.cmd _).trans (hg.cmd s)
  par s := (hf.par _).trans (hg.par s)

/-- A choice by something inside the block. -/
theorem Inside.on {α : Type} (key : State → α) (hk : ∀ s e, key (s.withEnv e) = key s) {F : α → State → State}
    (hF : ∀ a, Inside (F a)) : Inside (fun s => F (key s) s) where
  env s e := by show F (key _) _ = _; rw [hk]; exact (hF _).env s e
  cmd s := (hF _).cmd s
  par s := (hF _).par s

theorem Inside.ite {c : State → Prop} [DecidablePred c] (hc : ∀ s e, c (s.withEnv e) ↔ c s) (hf : Inside f)
    (hg : Inside g) : Inside (fun s => if c s then f s else g s) := by
  have := Inside.on (fun s => decide (c s)) (fun s e => decide_eq_decide.mpr (hc s e))
    (F := fun b s => if b = true then f s else g s) fun b => by cases b; exacts [hg, hf]
  simpa using this

theorem InsideOut.next (hf : Inside f) : InsideOut (fun s => .next (f s)) where
  env s e := by show Host.Outcome.next _ = _; rw [hf.env]; rfl
  cmd s t h := by cases h; exact hf.cmd s
  par s t h := by cases h; exact hf.par s

theorem InsideOut.on {α : Type} (key : State → α) (hk : ∀ s e, key (s.withEnv e) = key s) {F : α → State → Out}
    (hF : ∀ a, InsideOut (F a)) : InsideOut (fun s => F (key s) s) where
  env s e := by show F (key _) _ = _; rw [hk]; exact (hF _).env s e
  cmd s := (hF _).cmd s
  par s := (hF _).par s

theorem InsideOut.comp {f : State → Out} (hf : InsideOut f) (hg : Inside g) : InsideOut (fun s => f (g s)) where
  env s e := by show f (g _) = _; rw [hg.env, hf.env]
  cmd s t h := (hf.cmd _ t h).trans (hg.cmd s)
  par s t h := (hf.par _ t h).trans (hg.par s)

theorem insideOut_fault (r : Fault) : InsideOut (fun _ => .fault r) :=
  ⟨fun _ _ => rfl, fun _ _ h => (by cases h), fun _ _ h => (by cases h)⟩

theorem insideOut_refused (r : Refusal) : InsideOut (fun _ => .refused r) :=
  ⟨fun _ _ => rfl, fun _ _ h => (by cases h), fun _ _ h => (by cases h)⟩

/-! ### The units -/

theorem inside_raise (F : FaultClass) (sub info : Nat) : Inside (raise F sub info) := {}

theorem inside_finish : Inside State.finish := {}

theorem inside_start (u : UnitCmd) : Inside (flagsAtStart u) := by
  cases u <;> exact {}

theorem inside_success (u : UnitCmd) : Inside (flagsOnSuccess u) := by
  cases u <;> exact {}

theorem inside_begin (u : UnitCmd) {body : State → State} (hb : Inside body) : Inside (beginUnit u body) :=
  Inside.ite (fun s e => by cases u <;> rfl) (hb.comp (inside_start u)) (inside_raise _ _ _)

theorem inside_endLast (u : UnitCmd) : Inside (endLast u) := inside_finish.comp (inside_success u)

theorem inside_end (u : UnitCmd) (op : BitVec 4) {next : State → State} (hn : Inside next) : Inside (endUnit u op next) :=
  Inside.ite (fun _ _ => Iff.rfl) (hn.comp (inside_success u)) (inside_endLast u)

theorem inside_emitTree : Inside emitTree := by
  refine Inside.on (fun s => s.tree) (fun _ _ => rfl) (F := fun t s => match t with
    | .leaf sym _ => { s with phase := .tsWalk, stk := [.sym sym] }.issue (.boutWriteBit false)
    | .internal left right _ =>
      { s with phase := .tsWalk, stk := [.sub left, .sub right] }.issue (.boutWriteBit true)) fun t => ?_
  cases t <;> exact {}

theorem inside_sencStart : Inside sencStart := inside_begin _ {}

theorem inside_ctdrStart : Inside ctdrStart := inside_begin _ {}

theorem inside_tbldStart : Inside tbldStart := inside_begin _ {}

theorem inside_fcntStart : Inside fcntStart := inside_begin _ {}

theorem inside_tserStart : Inside tserStart := inside_begin _ inside_emitTree

theorem inside_tdesStart : Inside tdesStart := inside_begin _ {}

theorem inside_sdecOuter : Inside sdecOuter := {}

theorem inside_sdecStart : Inside sdecStart := inside_begin _ inside_sdecOuter

theorem inside_mchkStart : Inside mchkStart := inside_begin _ {}

theorem inside_fcntEnd : Inside fcntEnd := inside_end _ _ inside_tbldStart

theorem inside_tserEnd : Inside tserEnd :=
  Inside.ite (fun _ _ => Iff.rfl) (inside_endLast _) {}

theorem inside_putBit (code : Code) {after : State → State} (ha : Inside after) (k : Nat) : Inside (putBit code after k) := by
  unfold putBit
  cases code[k]?
  · exact ha.comp {}
  · exact {}

theorem inside_put (sym : Symbol) {after : State → State} (ha : Inside after) : Inside (put sym after) := by
  refine Inside.on (fun s => ctAt s.ct sym) (fun _ _ => rfl) (F := fun code s => match code with
    | none => raise .internalConsistency 0 sym.val s
    | some code => putBit code after 0 s) fun code => ?_
  cases code
  · exact inside_raise _ _ _
  · exact inside_putBit _ ha 0

theorem insideOut_fcntGot (y : Read Byte) : InsideOut (fcntGot y) := by
  cases y with
  | END => exact .next (inside_fcntEnd.comp (g := fun s => { s with r := .END }) {})
  | val x =>
    refine InsideOut.on (fun s => widthFits s.par.width (ftAt s.ft x + 1)) (fun _ _ => rfl) (F := fun w s =>
      if w = true then .next { s with r := .val x, ft := ftIncr s.ft x, pend := some .srcRead }
      else .refused .countWidth) fun w => ?_
    cases w
    · exact insideOut_refused _
    · exact .next (f := fun s => { s with r := .val x, ft := ftIncr s.ft x, pend := some .srcRead })
        {}

theorem insideOut_tserNext : InsideOut tserNext := by
  refine InsideOut.on (fun s => s.stk) (fun _ _ => rfl) (F := fun stk s => match stk with
    | [] => .next (tserEnd s)
    | .sub (.leaf sym _) :: rest => .next ({ s with stk := .sym sym :: rest }.issue (.boutWriteBit false))
    | .sub (.internal left right _) :: rest =>
      .next ({ s with stk := .sub left :: .sub right :: rest }.issue (.boutWriteBit true))
    | .sym sym :: rest => .next ({ s with stk := rest }.issue (.boutWriteBits sym.val 9))
    | .needLeft :: _ => .fault (.unspecifiedRead .tsWalk)
    | .needRight _ :: _ => .fault (.unspecifiedRead .tsWalk)) fun stk => ?_
  match stk with
  | [] => exact .next inside_tserEnd
  | .sub (.leaf sym _) :: rest =>
    exact .next (f := fun s => { s with stk := .sym sym :: rest }.issue (.boutWriteBit false)) {}
  | .sub (.internal l r _) :: rest =>
    exact .next (f := fun s => { s with stk := .sub l :: .sub r :: rest }.issue (.boutWriteBit true)) {}
  | .sym sym :: rest => exact .next (f := fun s => { s with stk := rest }.issue (.boutWriteBits sym.val 9)) {}
  | .needLeft :: _ => exact insideOut_fault _
  | .needRight _ :: _ => exact insideOut_fault _

theorem insideOut_putNext (sym : Symbol) {after : State → State} (ha : Inside after) : InsideOut (putNext sym after) := by
  refine InsideOut.on (fun s => (ctAt s.ct sym, s.k, s.phase)) (fun _ _ => rfl) (F := fun x s => match x.1 with
    | none => .fault (.unspecifiedRead x.2.2)
    | some code => .next (putBit code after (x.2.1 + 1) s)) fun x => ?_
  obtain ⟨code, k, p⟩ := x
  cases code
  · exact insideOut_fault _
  · exact .next (inside_putBit _ ha _)

theorem inside_sencRead : Inside sencRead := {}

theorem inside_sencEnd : Inside sencEnd := inside_endLast _

theorem inside_sencGot (y : Read Byte) : Inside (sencGot y) := by
  cases y with
  | val x => exact (inside_put _ inside_sencRead).comp (g := fun s => { s with r := .val x }) {}
  | END => exact (inside_put _ inside_sencEnd).comp (g := fun s => { s with r := .END, phase := .seEofcode }) {}

theorem insideOut_sencWrote : InsideOut sencWrote := by
  refine InsideOut.on (fun s => s.r) (fun _ _ => rfl) (F := fun r s => match r with
    | .val x => putNext (symbolOfByte x) sencRead s
    | .END => .fault (.unspecifiedRead .sePayload)) fun r => ?_
  cases r
  · exact insideOut_putNext _ inside_sencRead
  · exact insideOut_fault _

theorem insideOut_sencWroteEof : InsideOut sencWroteEof := insideOut_putNext _ inside_sencEnd

theorem inside_tdesEnd : Inside tdesEnd := inside_end _ _ inside_sdecStart

theorem inside_mchkGot (y : Read Nat) : Inside (mchkGot y) := by
  cases y with
  | END => exact (inside_raise _ _ _).comp (g := fun s => { s with v := .END }) {}
  | val v =>
    exact Inside.ite (c := fun s => v = s.par.magic.toNat) (fun _ _ => Iff.rfl)
      ((inside_end _ _ inside_tdesStart).comp (g := fun s => { s with v := .val v }) {})
      ((inside_raise _ _ _).comp (g := fun s => { s with v := .val v }) {})

theorem inside_tdesMarker (y : Read Bit) : Inside (tdesMarker y) := by
  cases y with
  | END => exact (inside_raise _ _ _).comp (g := fun s => { s with b := .END }) {}
  | val b =>
    refine Inside.ite (c := fun s => overCap s.par.nodeCap s.nnodes = true) (fun _ _ => Iff.rfl)
      {} ?_
    cases b <;> exact {}

theorem insideOut_tdesReturn (stk : List StkEntry) (t : Tree) : InsideOut (tdesReturn t stk) := by
  induction stk generalizing t with
  | nil => exact .next (inside_tdesEnd.comp (g := fun s => { s with tree := t, stk := [] }) {})
  | cons a rest ih =>
    cases a with
    | sub _ => exact insideOut_fault _
    | sym _ => exact insideOut_fault _
    | needLeft => exact .next (f := fun s => State.issue { s with stk := .needRight t :: rest } .binReadBit) {}
    | needRight l => exact ih _

theorem insideOut_tdesSymbol (y : Read Nat) : InsideOut (tdesSymbol y) := by
  cases y with
  | END => exact .next ((inside_raise _ _ _).comp (g := fun s => { s with v := .END }) {})
  | val v =>
    refine InsideOut.on (fun s => (symbolOfNat v, s.stk)) (fun _ _ => rfl) (F := fun x s => match x.1 with
      | none => .next (raise .corruptHeader 2 v { s with v := .val v })
      | some sym => tdesReturn (.leaf sym 1) x.2 { s with v := .val v }) fun x => ?_
    obtain ⟨sym, stk⟩ := x
    cases sym
    · exact .next ((inside_raise _ _ _).comp (g := fun s => { s with v := .val v }) {})
    · exact (insideOut_tdesReturn _ _).comp (g := fun s => { s with v := .val v }) {}

theorem inside_sdecEnd : Inside sdecEnd := inside_endLast _

theorem inside_sdecWalk : Inside sdecWalk := by
  refine Inside.on (fun s => s.cur) (fun _ _ => rfl) (F := fun t s => match t with
    | .internal _ _ _ => s.issue .binReadBit
    | .leaf sym _ =>
      if sym = eofSym then sdecEnd { s with eofSeen := true } else s.issue (.dstWrite (byteOfSymbol sym))) fun t => ?_
  cases t
  · exact Inside.ite (fun _ _ => Iff.rfl) (inside_sdecEnd.comp (g := fun s => { s with eofSeen := true })
      {}) {}
  · exact {}

theorem inside_sdecMore (more : Bool) : Inside (sdecMore more) := by
  cases more with
  | true => exact inside_sdecWalk.comp (g := fun s => { s with phase := .sdWalk, cur := s.tree }) {}
  | false => exact inside_sdecEnd

theorem insideOut_sdecGot (y : Read Bit) : InsideOut (sdecGot y) := by
  cases y with
  | END => exact .next ((inside_raise _ _ _).comp (g := fun s => { s with b := .END }) {})
  | val b =>
    refine InsideOut.on (fun s => s.cur) (fun _ _ => rfl) (F := fun t s => match t with
      | .internal left right _ => .next (sdecWalk { s with b := .val b, cur := if b then right else left })
      | .leaf _ _ => .fault (.unspecifiedRead .sdWalk)) fun t => ?_
    cases t with
    | leaf => exact insideOut_fault _
    | internal l r w =>
      exact .next (inside_sdecWalk.comp (g := fun s => { s with b := .val b, cur := if b then r else l })
        {})

theorem insideOut_deliver (res : Result) : InsideOut (deliver res) := by
  refine InsideOut.on (fun s => s.phase) (fun _ _ => rfl) (F := fun p s => match p, res with
    | .fcScan, .byte y => fcntGot y s
    | .seMagic, .done => .next (emitTree s)
    | .tsWalk, .done => tserNext s
    | .seRewind, .done => .next (sencRead s)
    | .sePayload, .byte y => .next (sencGot y s)
    | .sePayload, .done => sencWrote s
    | .seEofcode, .done => sencWroteEof s
    | .mgCheck, .nat y => .next (mchkGot y s)
    | .tdWalk, .bit y => .next (tdesMarker y s)
    | .tdWalk, .nat y => tdesSymbol y s
    | .sdOuter, .flag more => .next (sdecMore more s)
    | .sdWalk, .bit y => sdecGot y s
    | .sdWalk, .done => .next (sdecOuter s)
    | p, _ => .fault (.unspecifiedRead p)) fun p => ?_
  cases p <;> cases res <;> first
    | exact insideOut_fault _
    | exact insideOut_fcntGot _
    | exact .next inside_emitTree
    | exact insideOut_tserNext
    | exact .next inside_sencRead
    | exact .next (inside_sencGot _)
    | exact insideOut_sencWrote
    | exact insideOut_sencWroteEof
    | exact .next (inside_mchkGot _)
    | exact .next (inside_tdesMarker _)
    | exact insideOut_tdesSymbol _
    | exact .next (inside_sdecMore _)
    | exact insideOut_sdecGot _
    | exact .next inside_sdecOuter

theorem inside_tbldEnd : Inside tbldEnd := inside_end _ _ inside_ctdrStart

theorem inside_tbldInit : Inside tbldInit := {}

theorem insideOut_tbldMerge : InsideOut tbldMerge := by
  refine InsideOut.on (fun s => (s.builder.merge s.q.length, s.par.width)) (fun _ _ => rfl) (F := fun x s =>
    match x.1.q with
    | [] => .fault (.unspecifiedRead .tbMerge)
    | e :: _ =>
      if widthFits x.2 e.t.weight then .next (tbldEnd { s.withBuilder x.1 with tree := e.t })
      else .refused .countWidth) fun x => ?_
  obtain ⟨B, w⟩ := x
  split
  · exact insideOut_fault _
  · split
    · exact .next (inside_tbldEnd.comp (g := fun s => { s.withBuilder B with tree := _ })
        {})
    · exact insideOut_refused _

theorem inside_ctdrWalk : Inside ctdrWalk :=
  (inside_end _ _ inside_sencStart).comp (g := fun s =>
    { s with
      ct := (walk s.tree [] { ct := Vector.replicate 257 none, path := [] }).ct
      path := (walk s.tree [] { ct := Vector.replicate 257 none, path := [] }).path, stk := [] }) {}

theorem insideOut_internal : InsideOut internal := by
  refine InsideOut.on (fun s => (s.st, s.pend, s.phase)) (fun _ _ => rfl) (F := fun x s =>
    if x.1 = .busy ∧ x.2.1 = none then
      match x.2.2 with
      | .tbInit => .next (tbldInit s)
      | .tbMerge => tbldMerge s
      | .cdWalk => .next (ctdrWalk s)
      | _ => .next s
    else .next s) fun x => ?_
  have hid : InsideOut fun s => .next s := .next (f := fun s => s) {}
  split
  · split
    · exact .next inside_tbldInit
    · exact insideOut_tbldMerge
    · exact .next inside_ctdrWalk
    · exact hid
  · exact hid

/-! ### Transactions -/

theorem Inside.env_eq (hf : Inside f) (s : State) : (f s).env = s.env := by
  have := congrArg State.env (hf.env s s.env)
  rwa [State.withEnv_env, State.env_withEnv] at this

/-- A command's start does not look at the script. -/
theorem Inside.answers (hf : Inside f) (s : State) (as : List Answer) :
    f { s with answers := as } = { f s with answers := as } := by
  have h : f { s with answers := as } = (f s).withEnv { s.env with answers := as } :=
    hf.env s { s.env with answers := as }
  rw [h, ← hf.env_eq s]; rfl

/-- What is inside moves nothing outside. -/
theorem InsideOut.env_eq {f : State → Out} (hf : InsideOut f) {s t : State} (h : f s = .next t) : t.env = s.env := by
  have := hf.env s s.env
  rw [State.withEnv_env, h, andThen_next] at this
  injection this with this
  rw [this, State.env_withEnv]

/-- A transaction looks at the streams alone. -/
theorem perform_queues (x : Txn) (s : State) (as : List Answer) (hs : List HostAct) :
    perform x { s with answers := as, host := hs } =
      ((perform x s).1, { (perform x s).2 with answers := as, host := hs }) := by
  cases x <;> simp only [perform, srcRead, srcRewind, binReadBit, binReadBits, binHasMoreBits, boutWriteBit,
    boutWriteBits, dstWrite] <;> split <;> rfl

theorem perform_keeps (x : Txn) (s : State) :
    (perform x s).2.answers = s.answers ∧ (perform x s).2.host = s.host ∧ (perform x s).2.cmd = s.cmd ∧
      (perform x s).2.par = s.par := by
  cases x <;> simp only [perform, srcRead, srcRewind, binReadBit, binReadBits, binHasMoreBits, boutWriteBit,
    boutWriteBits, dstWrite] <;> (try split) <;> simp

/-- The queues do not matter to an update that stays inside. -/
theorem InsideOut.queues {f : State → Out} (hf : InsideOut f) (s : State) (as : List Answer) (hs : List HostAct) :
    f { s with answers := as, host := hs } =
      andThen (f s) fun t => .next { t with answers := as, host := hs } := by
  have h : { s with answers := as, host := hs } = s.withEnv { s.env with answers := as, host := hs } := rfl
  rw [h, hf.env]
  cases hr : f s with
  | fault r => rfl
  | refused r => rfl
  | next t =>
    have he := hf.env_eq hr
    simp only [andThen_next, State.withEnv, ← he]
    rfl

theorem transact_ok {s : State} {x : Txn} (hp : s.pend = some x) :
    transact false s = deliver (perform x s).1 (perform x s).2.answered := by simp [transact, hp]

theorem transact_fail {s : State} {x : Txn} (hp : s.pend = some x) :
    transact true s = .next (raise .ioFailure x.port.number 0 s) := by simp [transact, hp]

/-- Nor do they matter to a transaction. -/
theorem transact_queues (fails : Bool) (s : State) (as : List Answer) (hs : List HostAct) :
    transact fails { s with answers := as, host := hs } =
      andThen (transact fails s) fun t => .next { t with answers := as, host := hs } := by
  by_cases hn : s.pend = none
  · have hn' : State.pend { s with answers := as, host := hs } = none := hn
    have h : ∀ u : State, u.pend = none → transact fails u = .fault (.unspecifiedRead u.phase) := fun u hu => by
      simp [transact, hu]
    rw [h _ hn, h _ hn']; rfl
  · obtain ⟨x, hp⟩ := Option.ne_none_iff_exists'.mp hn
    have hp' : State.pend { s with answers := as, host := hs } = some x := hp
    cases fails
    · rw [transact_ok hp, transact_ok hp', perform_queues]
      exact (insideOut_deliver (perform x s).1).queues (perform x s).2.answered as hs
    · rw [transact_fail hp, transact_fail hp']; rfl

/-- A transaction leaves the queues, CMD and the parameters alone, and moves the streams as `perform` does, or, where it
fails, not at all (R48). -/
theorem transact_keeps {fails : Bool} {s t : State} (h : transact fails s = .next t) :
    t.answers = s.answers ∧ t.host = s.host ∧ t.cmd = s.cmd ∧ t.par = s.par ∧
      ∃ x, s.pend = some x ∧ if fails then s.sameStreams t else (perform x s).2.sameStreams t := by
  unfold transact at h
  split at h
  · cases h
  · rename_i x hp
    split at h
    · rename_i hf
      cases h
      exact ⟨rfl, rfl, rfl, rfl, x, hp, by rw [if_pos hf]; exact ⟨rfl, rfl, rfl, rfl, rfl, rfl⟩⟩
    · rename_i hf
      have hd := insideOut_deliver (perform x s).1
      have he := hd.env_eq h
      obtain ⟨k1, k2, k3, k4⟩ := perform_keeps x s
      refine ⟨(congrArg Env.answers he).trans k1, (congrArg Env.host he).trans k2, (hd.cmd _ _ h).trans k3,
        (hd.par _ _ h).trans k4, x, hp, ?_⟩
      rw [if_neg hf]
      exact ⟨congrArg Env.src he, congrArg Env.srcPos he, congrArg Env.bin he, congrArg Env.binPos he,
        congrArg Env.bout he, congrArg Env.dst he⟩

/-! ### Single steps of the block (R9) -/

theorem internalDue_of_pend {s : State} {x : Txn} (hp : s.pend = some x) : s.internalDue = false := by
  simp [State.internalDue, hp]

/-- Where no internal update is due, there is none to make. -/
theorem internal_of_not_due {s : State} (h : s.internalDue = false) : internal s = .next s := by
  simp only [State.internalDue, decide_eq_false_iff_not] at h
  unfold internal
  split
  · rename_i hb
    split <;> simp_all
  · rfl

/-- Where none is left to make, none is due. -/
theorem not_due_of_rank {s : State} (h : rank s = 0) : s.internalDue = false := by
  simp only [State.internalDue, decide_eq_false_iff_not]
  rintro ⟨hb, hp, ph⟩
  unfold rank at h
  rw [if_pos ⟨hb, hp⟩] at h
  rcases ph with ph | ph | ph <;> simp [ph] at h

/-- An internal update is a step, and uses no answer. -/
theorem blockStep_due {s : State} (h : s.internalDue = true) : blockStep s = internal s := by
  have hb : s.st = .busy := by simp only [State.internalDue, decide_eq_true_eq] at h; exact h.1
  simp [blockStep, hb, h]

/-- One answered transaction is a step (R9, R61). -/
theorem blockStep_ok {s : State} {x : Txn} {as : List Answer} (hb : s.st = .busy) (hp : s.pend = some x)
    (ha : s.answers = .ok :: as) :
    blockStep s = andThen (deliver (perform x s).1 (perform x s).2.answered)
      fun t => .next { t with answers := as } := by
  have h : blockStep s = transact false { s with answers := as, host := s.host } := by
    simp [blockStep, hb, internalDue_of_pend hp, ha]
  have ht : transact false s = deliver (perform x s).1 (perform x s).2.answered := by simp [transact, hp]
  rw [h, transact_queues, ht]
  cases hd : deliver (perform x s).1 (perform x s).2.answered with
  | fault r => rfl
  | refused r => rfl
  | next t =>
    have he : t.host = s.host :=
      (congrArg Env.host ((insideOut_deliver _).env_eq hd)).trans (perform_keeps x s).2.1
    rw [andThen_next, andThen_next, ← he]

/-- One failed transaction is a step (R48). -/
theorem blockStep_fail {s : State} {x : Txn} {as : List Answer} (hb : s.st = .busy) (hp : s.pend = some x)
    (ha : s.answers = .fail :: as) :
    blockStep s = .next { raise .ioFailure x.port.number 0 s with answers := as } := by
  simp [blockStep, hb, internalDue_of_pend hp, ha, transact, hp]
  rfl

/-- A `hold` passes (R166). -/
theorem blockStep_hold {s : State} {x : Txn} {as : List Answer} (hb : s.st = .busy) (hp : s.pend = some x)
    (ha : s.answers = .hold :: as) : blockStep s = .next { s with answers := as } := by
  simp [blockStep, hb, internalDue_of_pend hp, ha]

/-- Without an answer the block waits (R166). -/
theorem blockStep_wait {s : State} {x : Txn} (hp : s.pend = some x) (ha : s.answers = []) : blockStep s = .next s := by
  simp [blockStep, internalDue_of_pend hp, ha]

/-- What a step of the block by itself does: it makes an internal update with no answer, or it uses one answer and makes at
most its transaction, or it waits (R9, R61). -/
theorem blockStep_cases {s t : State} (h : blockStep s = .next t) :
    (t = s) ∨ (s.internalDue = true ∧ internal s = .next t) ∨
    (∃ as, s.answers = .hold :: as ∧ t = { s with answers := as }) ∨
    ∃ fails as, s.answers = (if fails then .fail else .ok) :: as ∧ transact fails { s with answers := as } = .next t := by
  unfold blockStep at h
  split at h
  · split at h
    · exact .inr (.inl ⟨‹_›, h⟩)
    · split at h
      · cases h; exact .inl rfl
      · cases h; exact .inr (.inr (.inl ⟨_, ‹_›, rfl⟩))
      · exact .inr (.inr (.inr ⟨false, _, ‹_›, h⟩))
      · exact .inr (.inr (.inr ⟨true, _, ‹_›, h⟩))
  · cases h; exact .inl rfl

/-- A step of the block by itself neither looks at the host's queue nor changes it. -/
theorem blockStep_host (s : State) (hs : List HostAct) :
    blockStep { s with host := hs } = andThen (blockStep s) fun t => .next { t with host := hs } := by
  have hd : State.internalDue { s with host := hs } = s.internalDue := rfl
  have ht : ∀ fails as, transact fails { s with answers := as, host := hs } =
      andThen (transact fails { s with answers := as }) fun t => .next { t with host := hs } := fun fails as => by
    rw [transact_queues fails s as hs, show transact fails { s with answers := as } = _ from
      transact_queues fails s as s.host, andThen_assoc]
    rfl
  unfold blockStep
  rw [hd]
  by_cases hb : s.st = .busy
  · rw [if_pos (show State.st { s with host := hs } = .busy from hb), if_pos hb]
    split
    · rw [show internal { s with host := hs } = _ from insideOut_internal.queues s s.answers hs]
      cases hi : internal s with
      | fault r => rfl
      | refused r => rfl
      | next t =>
        have he : t.answers = s.answers := congrArg Env.answers (insideOut_internal.env_eq hi)
        rw [andThen_next, andThen_next, ← he]
    · cases ha : s.answers with
      | nil => show Host.Outcome.next { s with answers := [], host := hs } = .next { s with host := hs }; rw [← ha]
      | cons a as =>
        cases a with
        | hold => rfl
        | ok => exact ht false as
        | fail => exact ht true as
  · rw [if_neg (show ¬ State.st { s with host := hs } = .busy from hb), if_neg hb]; rfl

/-! ### A run is made of single steps -/

theorem steps_add (n m : Nat) (s : State) : steps (n + m) s = andThen (steps n s) (steps m) := by
  induction n generalizing s with
  | zero => simp [steps]
  | succ n ih =>
    rw [Nat.succ_add]
    simp only [steps]
    rw [andThen_assoc]
    exact congrArg _ (funext fun u => ih u)

theorem step_block {s : State} (hh : s.host = []) : step s = blockStep s := by
  simp [step, stepHost, hh]

/-- `tick` is one step of the block, after which the host goes on. -/
theorem step_tick {s : State} {rest : List HostAct} (hh : s.host = .tick :: rest) :
    step s = andThen (step { s with host := [] }) fun t => .next { t with host := rest } := by
  rw [step_block (s := { s with host := [] }) rfl, blockStep_host s [], andThen_assoc]
  simp only [step, stepHost, hh, hostAct]
  rw [blockStep_host s rest]
  rfl

/-- The updates up to the next transaction are steps. -/
theorem settle_steps {s t : State} (as : List Answer) (h : settle s = .next t) :
    ∃ n, steps n { s with answers := as, host := [] } = .next { t with answers := as, host := [] } := by
  have one : ∀ {s t : State}, internal s = .next t →
      ∃ n, steps n { s with answers := as, host := [] } = .next { t with answers := as, host := [] } := by
    intro s t h
    by_cases hd : s.internalDue = true
    · refine ⟨1, ?_⟩
      have hd' : State.internalDue { s with answers := as, host := [] } = true := hd
      simp only [steps, step_block, blockStep_due hd']
      rw [insideOut_internal.queues, h]; rfl
    · rw [internal_of_not_due (by simpa using hd)] at h
      cases h; exact ⟨0, rfl⟩
  unfold settle at h
  obtain ⟨s2, h2, h3⟩ := andThen_eq_next.mp h
  obtain ⟨s1, h0, h1⟩ := andThen_eq_next.mp h2
  obtain ⟨n0, e0⟩ := one h0
  obtain ⟨n1, e1⟩ := one h1
  obtain ⟨n2, e2⟩ := one h3
  exact ⟨n0 + n1 + n2, by rw [steps_add, steps_add, e0, andThen_next, e1, andThen_next, e2]⟩

/-- Under a script without a `hold`, what a run does, so many single steps do (R9, R61). -/
theorem run_steps (as : List Answer) {s t : State} (hh : .hold ∉ as) (h : run as s = .next t) :
    ∃ n, steps n { s with answers := as, host := [] } = .next { t with host := [] } := by
  induction as generalizing s with
  | nil =>
    obtain ⟨u, h1, h2⟩ := andThen_eq_next.mp h
    cases h2
    obtain ⟨n, e⟩ := settle_steps [] h1
    exact ⟨n, e⟩
  | cons a as ih =>
    rw [List.mem_cons, not_or] at hh
    rw [run_settle s (a :: as) (by simp; exact fun e => hh.1 e.symm)] at h
    obtain ⟨u, h1, h2⟩ := andThen_eq_next.mp h
    obtain ⟨n, e⟩ := settle_steps (a :: as) h1
    dsimp only at h2
    split at h2
    · rename_i hb
      obtain ⟨w, h3, h4⟩ := andThen_eq_next.mp h2
      obtain ⟨m, e'⟩ := ih hh.2 h4
      refine ⟨n + 1 + m, ?_⟩
      have hd : State.internalDue { u with answers := a :: as, host := [] } = false :=
        not_due_of_rank (s := u) (rank_settle h1)
      have one : steps 1 { u with answers := a :: as, host := [] } = .next { w with answers := as, host := [] } := by
        have : blockStep { u with answers := a :: as, host := [] }
            = transact (decide (a = .fail)) { u with answers := as, host := [] } := by
          unfold blockStep
          rw [if_pos (show State.st { u with answers := a :: as, host := [] } = .busy from hb), if_neg (by rw [hd]; simp)]
          cases a with
          | hold => exact absurd rfl hh.1
          | ok => rfl
          | fail => rfl
        simp only [steps, step_block, this]
        rw [transact_queues, h3]; rfl
      rw [steps_add, steps_add, e, andThen_next, one, andThen_next, e']
    · cases h2
      exact ⟨n, e⟩

end Sys2Proof.Machine
end

