-- ==== Sys2Proof/Laws/Ports.lean ====
section
/-! SUPPORT. What an answered transaction returns and moves (R44 to R47). -/

namespace Sys2Proof.Machine

theorem getElem?_of_drop {α : Type} {l : List α} {i : Nat} {x : α} {xs : List α} (h : l.drop i = x :: xs) :
    l[i]? = some x := by
  have := congrArg List.head? h
  simpa [List.head?_drop] using this

theorem drop_succ_of_drop {α : Type} {l : List α} {i : Nat} {x : α} {xs : List α} (h : l.drop i = x :: xs) :
    l.drop (i + 1) = xs := by
  rw [← List.tail_drop, h]; rfl

theorem drop_add_of_drop {α : Type} {l : List α} {i : Nat} {xs ys : List α} (h : l.drop i = xs ++ ys) :
    l.drop (i + xs.length) = ys := by
  rw [← List.drop_drop, h]; simp

/-- A byte that is there is returned, and src_pos moves by one (R44). -/
theorem perform_srcRead_val {s : State} {y : Byte} {ys : List Byte} (h : s.src.drop s.srcPos = y :: ys) :
    perform .srcRead s = (.byte (.val y), { s with srcPos := s.srcPos + 1 }) := by
  simp [perform, srcRead, getElem?_of_drop h]

/-- At the end of SRC the answer is END, and nothing moves (R44). -/
theorem perform_srcRead_end {s : State} (h : s.src.drop s.srcPos = []) :
    perform .srcRead s = (.byte .END, s) := by
  have : s.src[s.srcPos]? = none := by simpa using h
  simp [perform, srcRead, this]

@[simp] theorem perform_srcRewind (s : State) : perform .srcRewind s = (.done, { s with srcPos := 0 }) := rfl

/-- A bit that is there is returned, and bin_pos moves by one (R45). -/
theorem perform_binReadBit_val {s : State} {b : Bit} {bs : List Bit} (h : s.bin.drop s.binPos = b :: bs) :
    perform .binReadBit s = (.bit (.val b), { s with binPos := s.binPos + 1 }) := by
  simp [perform, binReadBit, getElem?_of_drop h]

theorem perform_binReadBit_end {s : State} (h : s.bin.drop s.binPos = []) :
    perform .binReadBit s = (.bit .END, s) := by
  have : s.bin[s.binPos]? = none := by simpa using h
  simp [perform, binReadBit, this]

/-- A group of n bits that is there is returned as the value whose `bin_n` it is (R45). -/
theorem perform_binReadBits_val {s : State} {n v : Nat} {bs : List Bit} (hv : v < 2 ^ n) (hn : 0 < n)
    (h : s.bin.drop s.binPos = toBits n v ++ bs) :
    perform (.binReadBits n) s = (.nat (.val v), { s with binPos := s.binPos + n }) := by
  have hl : s.binPos + n ≤ s.bin.length := by
    have := congrArg List.length h
    simp at this; omega
  have ht : (s.bin.drop s.binPos).take n = toBits n v := by
    rw [h, List.take_append_of_le_length (by simp)]
    exact List.take_of_length_le (by simp)
  simp [perform, binReadBits, hl, ht, ofBits_toBits hv]

/-- A short read returns END and moves to the end (R45). -/
theorem perform_binReadBits_end {s : State} {n : Nat} (h : s.bin.length < s.binPos + n) :
    perform (.binReadBits n) s = (.nat .END, { s with binPos := s.bin.length }) := by
  simp [perform, binReadBits, h]

theorem perform_binHasMoreBits (s : State) :
    perform .binHasMoreBits s = (.flag (decide (s.binPos < s.bin.length)), s) := rfl

@[simp] theorem perform_boutWriteBit (b : Bit) (s : State) :
    perform (.boutWriteBit b) s = (.done, { s with bout := s.bout ++ [b] }) := rfl

@[simp] theorem perform_boutWriteBits (v n : Nat) (s : State) :
    perform (.boutWriteBits v n) s = (.done, { s with bout := s.bout ++ toBits n v }) := rfl

@[simp] theorem perform_dstWrite (y : Byte) (s : State) :
    perform (.dstWrite y) s = (.done, { s with dst := s.dst ++ [y] }) := rfl

/-! ### One answered transaction, as a step of a run -/

theorem Steps.srcRead {s s' : State} {y : Byte} {ys : List Byte} (hb : s.st = .busy) (hp : s.pend = some .srcRead)
    (h : s.src.drop s.srcPos = y :: ys)
    (hd : deliver (.byte (.val y)) { s with srcPos := s.srcPos + 1, pend := none } = .next s') : Steps 1 s s' :=
  Steps.txn hb hp (by rw [perform_srcRead_val h]; exact hd)

theorem Steps.srcEnd {s s' : State} (hb : s.st = .busy) (hp : s.pend = some .srcRead)
    (h : s.src.drop s.srcPos = []) (hd : deliver (.byte .END) { s with pend := none } = .next s') : Steps 1 s s' :=
  Steps.txn hb hp (by rw [perform_srcRead_end h]; exact hd)

theorem Steps.rewind {s s' : State} (hb : s.st = .busy) (hp : s.pend = some .srcRewind)
    (hd : deliver .done { s with srcPos := 0, pend := none } = .next s') : Steps 1 s s' :=
  Steps.txn hb hp hd

theorem Steps.readBit {s s' : State} {b : Bit} {bs : List Bit} (hb : s.st = .busy) (hp : s.pend = some .binReadBit)
    (h : s.bin.drop s.binPos = b :: bs)
    (hd : deliver (.bit (.val b)) { s with binPos := s.binPos + 1, pend := none } = .next s') : Steps 1 s s' :=
  Steps.txn hb hp (by rw [perform_binReadBit_val h]; exact hd)

theorem Steps.readBits {s s' : State} {n v : Nat} {bs : List Bit} (hb : s.st = .busy)
    (hp : s.pend = some (.binReadBits n)) (hv : v < 2 ^ n) (hn : 0 < n) (h : s.bin.drop s.binPos = toBits n v ++ bs)
    (hd : deliver (.nat (.val v)) { s with binPos := s.binPos + n, pend := none } = .next s') : Steps 1 s s' :=
  Steps.txn hb hp (by rw [perform_binReadBits_val hv hn h]; exact hd)

theorem Steps.hasMore {s s' : State} (hb : s.st = .busy) (hp : s.pend = some .binHasMoreBits)
    (hd : deliver (.flag (decide (s.binPos < s.bin.length))) { s with pend := none } = .next s') : Steps 1 s s' :=
  Steps.txn hb hp hd

theorem Steps.writeBit {s s' : State} {b : Bit} (hb : s.st = .busy) (hp : s.pend = some (.boutWriteBit b))
    (hd : deliver .done { s with bout := s.bout ++ [b], pend := none } = .next s') : Steps 1 s s' :=
  Steps.txn hb hp hd

theorem Steps.writeBits {s s' : State} {v n : Nat} (hb : s.st = .busy) (hp : s.pend = some (.boutWriteBits v n))
    (hd : deliver .done { s with bout := s.bout ++ toBits n v, pend := none } = .next s') : Steps 1 s s' :=
  Steps.txn hb hp hd

theorem Steps.dstWrite {s s' : State} {y : Byte} (hb : s.st = .busy) (hp : s.pend = some (.dstWrite y))
    (hd : deliver .done { s with dst := s.dst ++ [y], pend := none } = .next s') : Steps 1 s s' :=
  Steps.txn hb hp hd

/-- A transaction moves nothing but the streams (R51, R61). -/
structure StreamsOnly (s t : State) : Prop where
  tables : t.toTables = s.toTables
  phase : t.phase = s.phase
  st : t.st = s.st
  ftValid : t.ftValid = s.ftValid
  treeValid : t.treeValid = s.treeValid
  ctValid : t.ctValid = s.ctValid
  eofSeen : t.eofSeen = s.eofSeen
  cmd : t.cmd = s.cmd
  faultCause : t.faultCause = s.faultCause
  faultInfo : t.faultInfo = s.faultInfo
  src : t.src = s.src
  bin : t.bin = s.bin
  binPos : s.binPos ≤ s.bin.length → s.binPos ≤ t.binPos ∧ t.binPos ≤ t.bin.length
  srcPos : s.srcPos ≤ s.src.length → t.srcPos ≤ t.src.length
  bout : s.bout <+: t.bout
  dst : s.dst <+: t.dst
  pend : t.pend = s.pend
  answers : t.answers = s.answers
  host : t.host = s.host
  free : t.free = s.free
  par : t.par = s.par

theorem perform_streamsOnly (t : Txn) (s : State) : StreamsOnly s (perform t s).2 := by
  cases t with
  | srcRead =>
    simp only [perform, srcRead]
    split
    · rename_i y hy
      have := (List.getElem?_eq_some_iff.mp hy).1
      constructor <;> simp; omega
    · constructor <;> simp
  | srcRewind => constructor <;> simp [perform, srcRewind]
  | binReadBit =>
    simp only [perform, binReadBit]
    split
    · rename_i y hy
      have := (List.getElem?_eq_some_iff.mp hy).1
      constructor <;> simp; omega
    · constructor <;> simp
  | binReadBits n =>
    simp only [perform, binReadBits]
    split <;> (constructor <;> (simp; try omega))
  | binHasMoreBits => constructor <;> simp [perform, binHasMoreBits]
  | boutWriteBit b => constructor <;> simp [perform, boutWriteBit]
  | boutWriteBits v n => constructor <;> simp [perform, boutWriteBits]
  | dstWrite y => constructor <;> simp [perform, dstWrite]

end Sys2Proof.Machine
end

