-- ==== Sys2Proof/Laws/FrequencyCounter.lean ====
section
/-! SUPPORT. FC_SCAN: the loop of FCNT (R83). -/

namespace Sys2Proof.Machine

/-- What FC_SCAN has done once it has read the bytes `ys`: FT counts them, src_pos is past them, r holds the last. -/
def State.scanned (s : State) (ys : List Byte) : State :=
  { s with
    ft := ys.foldl ftIncr s.ft
    srcPos := s.srcPos + ys.length
    r := (ys.getLast?.map Read.val).getD s.r }

/-- The answer to a read in FC_SCAN, where a byte is left: it is counted, or its count does not fit (R83, R86). -/
theorem fcScan_deliver {s : State} {y : Byte} {rest : List Byte} (hp : s.phase = .fcScan)
    (hq : s.pend = some .srcRead) (h : s.src.drop s.srcPos = y :: rest) :
    deliver (perform .srcRead s).1 (perform .srcRead s).2.answered =
      if widthFits s.par.width (ftAt s.ft y + 1) then .next (s.scanned [y]) else .refused .countWidth := by
  rw [perform_srcRead_val h]
  simp [deliver, hp, fcntGot, State.scanned, State.answered, hq]

/-- FC_SCAN reads byte after byte, one transaction each, while every count fits (R86). -/
theorem fcScan_steps (ys : List Byte) {s : State} {rest : List Byte} (hb : s.st = .busy) (hp : s.phase = .fcScan)
    (hq : s.pend = some .srcRead) (h : s.src.drop s.srcPos = ys ++ rest)
    (hw : ∀ y, widthFits s.par.width (ftAt s.ft y + ys.count y) = true) :
    Steps ys.length s (s.scanned ys) := by
  induction ys generalizing s with
  | nil => exact Steps.refl s
  | cons y ys ih =>
    have hy : widthFits s.par.width (ftAt s.ft y + 1) = true := widthFits_le (by simp) (hw y)
    have h1 := Steps.txn hb hq ((fcScan_deliver hp hq h).trans (if_pos hy))
    have h2 := @ih (s.scanned [y]) hb hp hq (drop_succ_of_drop h) fun z => by
      have : ftAt (s.scanned [y]).ft z + ys.count z = ftAt s.ft z + (y :: ys).count z := by
        simp only [State.scanned, ftAt_foldl, List.count_cons, List.count_nil]; omega
      exact this ▸ hw z
    refine ((h1.trans h2).cast (by simp [Nat.add_comm])).of_eq ?_
    have hl : ((y :: ys).getLast?.map Read.val).getD s.r
        = (ys.getLast?.map Read.val).getD (.val y) := by
      cases ys with
      | nil => rfl
      | cons z zs => simp [List.getLast?_cons_cons, List.getLast?_eq_some_getLast]
    simp [State.scanned, hl, Nat.add_assoc, Nat.add_comm 1]

/-- FC_SCAN is refused where a count would reach 2^W (R86, U3). -/
theorem fcScan_refused (ys : List Byte) {s : State} {rest : List Byte} {z : Byte} (as : List Answer)
    (hb : s.st = .busy) (hp : s.phase = .fcScan) (hq : s.pend = some .srcRead) (h : s.src.drop s.srcPos = ys ++ rest)
    (h0 : widthFits s.par.width (ftAt s.ft z) = true)
    (hz : widthFits s.par.width (ftAt s.ft z + ys.count z) = false) :
    run (oks ys.length as) s = .refused .countWidth := by
  induction ys generalizing s with
  | nil => simp [h0] at hz
  | cons y ys ih =>
    rw [List.length_cons, oks_succ, run_ok hb hq, fcScan_deliver hp hq h]
    by_cases hy : widthFits s.par.width (ftAt s.ft y + 1) = true
    · rw [if_pos hy, andThen_next]
      have e : ∀ n, ftAt (s.scanned [y]).ft z + n = ftAt s.ft z + ([y].count z + n) := fun n => by
        simp only [State.scanned, ftAt_foldl]; omega
      refine @ih (s.scanned [y]) hb hp hq (drop_succ_of_drop h) ?_ ?_
      · by_cases hyz : y = z
        · subst hyz; simpa [State.scanned, ftAt_incr] using hy
        · have := e 0; simp [hyz] at this; rw [this]; exact h0
      · have : [y].count z + ys.count z = (y :: ys).count z := by simp only [List.count_cons, List.count_nil]; omega
        rw [e, this]; exact hz
    · rw [if_neg hy, andThen_refused]

/-- The END that follows the last byte ends the loop (R83). -/
theorem fcScan_end {s : State} (hb : s.st = .busy) (hp : s.phase = .fcScan) (hq : s.pend = some .srcRead)
    (h : s.src.drop s.srcPos = []) : Steps 1 s (fcntEnd { s with r := .END, pend := none }) :=
  Steps.srcEnd hb hq h (by simp [deliver, hp, fcntGot])

/-- The counters after FC_SCAN (R83, R86). -/
theorem ftAt_scanned (s : State) (ys : List Byte) (y : Byte) :
    ftAt (s.scanned ys).ft y = ftAt s.ft y + ys.count y := ftAt_foldl ys s.ft y

/-- FT depends on the multiset of the bytes only (R88). -/
theorem foldl_ftIncr_perm {ys zs : List Byte} (h : ys.Perm zs) (ft : Vector Nat 256) :
    ys.foldl ftIncr ft = zs.foldl ftIncr ft :=
  ft_ext fun y => by rw [ftAt_foldl, ftAt_foldl, h.count_eq]

end Sys2Proof.Machine
end

