-- ==== Sys2Proof/Laws/StreamDecoder.lean ====
section
/-! SUPPORT. SD_WALK takes one bit for each internal node on the path to a leaf, and SD_OUTER repeats it (R129). -/

namespace Sys2Proof.Machine

/-- A path of the tree that stands next on BIN is walked to its leaf (R79, R129). -/
theorem walk_steps (t : Tree) {s : State} {sym : Symbol} {code : Code} {bs : List Bit} (hb : s.st = .busy)
    (hn : s.pend = none) (hp : s.phase = .sdWalk) (hm : (sym, code) ∈ t.codes)
    (h : s.bin.drop s.binPos = code ++ bs) :
    ∃ b w, Steps code.length (sdecWalk { s with cur := t })
      (sdecWalk { s with b := b, cur := .leaf sym w, binPos := s.binPos + code.length }) := by
  induction t generalizing s code with
  | leaf sym' w =>
    simp only [Tree.codes, List.mem_singleton, Prod.mk.injEq] at hm
    obtain ⟨rfl, rfl⟩ := hm
    exact ⟨s.b, w, Steps.refl _⟩
  | internal l r w hl hr =>
    have key : ∀ (x : Bit) (u : Tree) (code' : Code), u = (if x then r else l) → code = x :: code' →
        (∃ b w, Steps code'.length (sdecWalk { s with b := .val x, binPos := s.binPos + 1, cur := u })
          (sdecWalk { s with b := b, cur := .leaf sym w, binPos := s.binPos + 1 + code'.length })) →
        ∃ b w', Steps code.length (sdecWalk { s with cur := .internal l r w })
          (sdecWalk { s with b := b, cur := .leaf sym w', binPos := s.binPos + code.length }) := by
      rintro x u code' rfl rfl ⟨b, w', e2⟩
      have e1 : Steps 1 (sdecWalk { s with cur := .internal l r w })
          (sdecWalk { s with b := .val x, binPos := s.binPos + 1, cur := if x then r else l }) :=
        Steps.readBit (s := sdecWalk { s with cur := .internal l r w }) hb rfl h
          (by simp [deliver, sdecWalk, State.issue, hp, sdecGot, hn])
      refine ⟨b, w', ((e1.trans e2).cast ?_).of_eq ?_⟩
      · simp [Nat.add_comm]
      · simp [Nat.add_assoc, Nat.add_comm 1]
    simp only [Tree.codes, List.mem_append, List.mem_map, Prod.mk.injEq] at hm
    rcases hm with ⟨f, hf, rfl, rfl⟩ | ⟨f, hf, rfl, rfl⟩
    · exact key false l f.2 rfl rfl (@hl { s with b := .val false, binPos := s.binPos + 1 } f.2 hb hn hp hf
        (drop_succ_of_drop h))
    · exact key true r f.2 rfl rfl (@hr { s with b := .val true, binPos := s.binPos + 1 } f.2 hb hn hp hf
        (drop_succ_of_drop h))

/-- More bits: the walk starts at the root (R129). -/
theorem sdecOuter_step {s : State} (hb : s.st = .busy) (hn : s.pend = none) (h : s.binPos < s.bin.length) :
    Steps 1 (sdecOuter s) (sdecWalk { s with phase := .sdWalk, cur := s.tree }) :=
  Steps.hasMore (s := sdecOuter s) hb rfl (by simp [deliver, sdecOuter, sdecMore, h, hn])

/-- No more bits: SDEC ends (R132). -/
theorem sdecOuter_end {s : State} (hb : s.st = .busy) (hn : s.pend = none) (h : s.bin.length ≤ s.binPos) :
    Steps 1 (sdecOuter s) (sdecEnd { s with phase := .sdOuter }) :=
  Steps.hasMore (s := sdecOuter s) hb rfl (by simp [deliver, sdecOuter, sdecMore, hn, Nat.not_lt.mpr h])

theorem lt_of_drop {s : State} {bs : List Bit} (h : s.bin.drop s.binPos = bs) (hne : bs ≠ []) :
    s.binPos < s.bin.length := by
  by_contra hlt
  rw [List.drop_eq_nil_of_le (by omega)] at h
  exact hne h.symm

/-- One symbol: its Code is read and its byte is written (R129). -/
theorem symbol_steps {s : State} {y : Byte} {code : Code} {bs : List Bit} (hb : s.st = .busy) (hn : s.pend = none)
    (hm : (symbolOfByte y, code) ∈ s.tree.codes) (h : s.bin.drop s.binPos = code ++ bs) (hne : code ++ bs ≠ []) :
    ∃ b cur, Steps (1 + code.length + 1) (sdecOuter s)
      (sdecOuter { s with b := b, cur := cur, binPos := s.binPos + code.length, dst := s.dst ++ [y] }) := by
  have e1 := sdecOuter_step hb hn (lt_of_drop h hne)
  obtain ⟨b, w, e2⟩ := @walk_steps s.tree { s with phase := .sdWalk } _ _ _ hb hn rfl hm h
  have e3 : Steps 1 (sdecWalk { s with
        phase := .sdWalk, b := b, cur := .leaf (symbolOfByte y) w, binPos := s.binPos + code.length })
      (sdecOuter { s with
        b := b, cur := .leaf (symbolOfByte y) w, binPos := s.binPos + code.length, dst := s.dst ++ [y] }) := by
    have e0 : sdecWalk { s with
        phase := .sdWalk, b := b, cur := .leaf (symbolOfByte y) w, binPos := s.binPos + code.length }
        = { s with
        phase := .sdWalk, b := b, cur := .leaf (symbolOfByte y) w, binPos := s.binPos + code.length,
        pend := some (.dstWrite y) } := by
      simp [sdecWalk, symbolOfByte_ne_eof, State.issue]
    rw [e0]
    exact Steps.dstWrite hb rfl (by simp [deliver, sdecOuter])
  exact ⟨b, _, (e1.trans e2).trans e3⟩

/-- The EOF-symbol: its Code is read and the decoder stops (R129, R133). -/
theorem eof_steps {s : State} {code : Code} {bs : List Bit} (hb : s.st = .busy) (hn : s.pend = none)
    (hm : (eofSym, code) ∈ s.tree.codes) (h : s.bin.drop s.binPos = code ++ bs) (hne : code ++ bs ≠ []) :
    ∃ b cur, Steps (1 + code.length) (sdecOuter s)
      (sdecEnd { s with
        phase := .sdWalk, b := b, cur := cur, binPos := s.binPos + code.length, eofSeen := true }) := by
  have e1 := sdecOuter_step hb hn (lt_of_drop h hne)
  obtain ⟨b, w, e2⟩ := @walk_steps s.tree { s with phase := .sdWalk } _ _ _ hb hn rfl hm h
  refine ⟨b, .leaf eofSym w, (e1.trans e2).of_eq ?_⟩
  simp [sdecWalk, sdecEnd, endLast]

end Sys2Proof.Machine
end

