-- ==== Sys2Proof/Laws/StreamEncoder.lean ====
section
/-! SUPPORT. SE_PAYLOAD and SE_EOFCODE write the Codes of the bytes of SRC and of the EOF-symbol (R116, R117). -/

namespace Sys2Proof.Machine

/-- Nothing is outstanding where the last bit has been answered. -/
theorem putBit_pend {s : State} {code : Code} {after : State → State} {j : Nat} {bout : List Bit}
    (hn : s.pend = none) :
    putBit code after (j + 1) { s with k := j, bout := bout, pend := none }
      = putBit code after (j + 1) { s with k := j, bout := bout } := by
  rw [← hn]

/-- The bits of a Code from bit j on are written one by one, then `after` goes on (R116 `put`, R117). -/
theorem putBit_steps {s : State} {code : Code} {after : State → State} (hb : s.st = .busy) (hn : s.pend = none)
    (hw : ∀ s' : State, s'.toTables = { s.toTables with k := s'.k } → s'.phase = s.phase →
      deliver .done s' = .next (putBit code after (s'.k + 1) s'))
    (j : Nat) (hj : j ≤ code.length) :
    Steps (code.length - j) (putBit code after j s)
      (after { s with k := code.length, bout := s.bout ++ code.drop j }) := by
  induction h : code.length - j generalizing s j with
  | zero =>
    have hj' : j = code.length := by omega
    subst hj'
    refine (Steps.refl _).of_eq ?_
    simp [putBit]
  | succ n ih =>
    have hlt : j < code.length := by omega
    have e0 : putBit code after j s = { s with k := j, pend := some (.boutWriteBit code[j]) } := by
      simp [putBit, hlt]
    have e1 : Steps 1 { s with k := j, pend := some (.boutWriteBit code[j]) }
        (putBit code after (j + 1) { s with k := j, bout := s.bout ++ [code[j]] }) :=
      Steps.writeBit hb rfl (by
        have h1 := hw { s with k := j, bout := s.bout ++ [code[j]], pend := none } rfl rfl
        rw [h1, putBit_pend hn])
    have e2 := @ih { s with k := j, bout := s.bout ++ [code[j]] } hb hn
      (fun s' h1 h2 => hw s' h1 h2) (j + 1) hlt (by omega)
    rw [e0]
    refine ((e1.trans e2).cast (by omega)).of_eq ?_
    simp only [List.append_assoc, List.singleton_append, ← List.drop_eq_getElem_cons hlt]

/-- The Code of a byte is written, then the next byte is read (R116). -/
theorem put_byte_steps {s : State} {y : Byte} {code : Code} (hb : s.st = .busy) (hn : s.pend = none)
    (hp : s.phase = .sePayload) (hr : s.r = .val y) (hc : ctAt s.ct (symbolOfByte y) = some code) :
    Steps code.length (put (symbolOfByte y) sencRead s)
      (sencRead { s with k := code.length, bout := s.bout ++ code }) := by
  have h := @putBit_steps s code sencRead hb hn (fun s' h1 h2 => by
    have hr' : s'.r = .val y := by rw [h1]; exact hr
    have hc' : ctAt s'.ct (symbolOfByte y) = some code := by rw [h1]; exact hc
    simp [deliver, h2, hp, sencWrote, putNext, hr', hc']) 0 (Nat.zero_le _)
  simpa [put, hc] using h

/-- The EOF-symbol's Code is written, then the command ends (R116). -/
theorem put_eof_steps {s : State} {code : Code} (hb : s.st = .busy) (hn : s.pend = none)
    (hp : s.phase = .seEofcode) (hc : ctAt s.ct eofSym = some code) :
    Steps code.length (put eofSym sencEnd s) (sencEnd { s with k := code.length, bout := s.bout ++ code }) := by
  have h := @putBit_steps s code sencEnd hb hn (fun s' h1 h2 => by
    have hc' : ctAt s'.ct eofSym = some code := by rw [h1]; exact hc
    simp [deliver, h2, hp, sencWroteEof, putNext, hc']) 0 (Nat.zero_le _)
  simpa [put, hc] using h

/-- The Codes of a list of bytes. -/
def codesOf (ct : Vector (Option Code) 257) (ys : List Byte) : List Bit :=
  ys.flatMap (fun y => codeBits ct (symbolOfByte y))

/-- SE_PAYLOAD reads byte after byte and writes its Code (R80, R116, R117). -/
theorem payload_steps (ys : List Byte) {s : State} {rest : List Byte} (hb : s.st = .busy) (hn : s.pend = none)
    (h : s.src.drop s.srcPos = ys ++ rest) (hc : ∀ y ∈ ys, ctAt s.ct (symbolOfByte y) ≠ none) :
    ∃ r k, Steps (ys.length + (codesOf s.ct ys).length) (sencRead s)
      (sencRead { s with
        r := r, k := k, srcPos := s.srcPos + ys.length, bout := s.bout ++ codesOf s.ct ys }) := by
  induction ys generalizing s with
  | nil =>
    refine ⟨s.r, s.k, (Steps.refl _).of_eq ?_⟩
    simp [codesOf]
  | cons y ys ih =>
    obtain ⟨code, hcode⟩ := Option.ne_none_iff_exists'.mp (hc y (by simp))
    have e1 : Steps 1 (sencRead s) (put (symbolOfByte y) sencRead
        { s with phase := .sePayload, r := .val y, srcPos := s.srcPos + 1 }) :=
      Steps.srcRead (s := sencRead s) hb rfl h (by simp [deliver, sencRead, sencGot, hn])
    have e2 := @put_byte_steps { s with phase := .sePayload, r := .val y, srcPos := s.srcPos + 1 } y code hb hn rfl rfl
      hcode
    obtain ⟨r, k, e3⟩ := @ih { s with
        r := .val y, srcPos := s.srcPos + 1, k := code.length, bout := s.bout ++ code } hb hn
      (drop_succ_of_drop h) (fun z hz => hc z (by simp [hz]))
    refine ⟨r, k, ((e1.trans (e2.trans e3)).cast ?_).of_eq ?_⟩
    · simp [codesOf, codeBits, hcode]; omega
    · simp [codesOf, codeBits, hcode, Nat.add_assoc, Nat.add_comm 1]

/-- END leads to the EOF-symbol's Code and the end of the command (R116 step 4). -/
theorem eofcode_steps {s : State} (hb : s.st = .busy) (hn : s.pend = none) (h : s.src.drop s.srcPos = [])
    (hc : ctAt s.ct eofSym ≠ none) :
    Steps (1 + (codeBits s.ct eofSym).length) (sencRead s)
      (sencEnd { s with
        r := .END, phase := .seEofcode, k := (codeBits s.ct eofSym).length,
        bout := s.bout ++ codeBits s.ct eofSym }) := by
  obtain ⟨code, hcode⟩ := Option.ne_none_iff_exists'.mp hc
  have e1 : Steps 1 (sencRead s) (put eofSym sencEnd { s with r := .END, phase := .seEofcode }) :=
    Steps.srcEnd (s := sencRead s) hb rfl h (by simp [deliver, sencRead, sencGot, hn])
  have e2 := @put_eof_steps { s with r := .END, phase := .seEofcode } code hb hn rfl hcode
  refine ((e1.trans e2).cast ?_).of_eq ?_ <;> simp [codeBits, hcode]

end Sys2Proof.Machine
end

