-- ==== Sys2Proof/Laws/TreeBuilder.lean ====
section
/-! SUPPORT. The builder of TBLD: Q stays in the order of R90, the leaves stay the same, and one tree is left (R89 to R95). -/

namespace Sys2Proof.Machine

/-! ### The order of R90 -/

theorem before_iff {e f : QEntry} : e.before f = true ↔ e.w < f.w ∨ (e.w = f.w ∧ e.seq < f.seq) := by
  simp [QEntry.before]

theorem before_trans {e f g : QEntry} (h : e.before f = true) (h' : f.before g = true) : e.before g = true := by
  rw [before_iff] at *; omega

/-- Of two entries with different numbers one stands before the other. -/
theorem before_total {e f : QEntry} (h : e.seq ≠ f.seq) (hn : ¬ e.before f = true) : f.before e = true := by
  rw [before_iff] at *; omega

theorem qInsert_perm (e : QEntry) (q : List QEntry) : (qInsert e q).Perm (e :: q) := by
  induction q with
  | nil => simp [qInsert]
  | cons f q ih =>
    rw [qInsert]; split
    · exact .refl _
    · exact (ih.cons f).trans (.swap e f q)

theorem qInsert_ne_nil (e : QEntry) (q : List QEntry) : qInsert e q ≠ [] := by
  intro h
  have := (qInsert_perm e q).length_eq
  simp [h] at this

theorem mem_qInsert {e f : QEntry} {q : List QEntry} : f ∈ qInsert e q ↔ f = e ∨ f ∈ q := by
  rw [(qInsert_perm e q).mem_iff, List.mem_cons]

/-- Inserting an entry with a new number keeps Q in the order of R90. -/
theorem qInsert_sorted {e : QEntry} {q : List QEntry} (hq : q.Pairwise (fun a b => a.before b = true))
    (hs : ∀ f ∈ q, f.seq ≠ e.seq) : (qInsert e q).Pairwise (fun a b => a.before b = true) := by
  induction q with
  | nil => simp [qInsert]
  | cons f q ih =>
    rw [List.pairwise_cons] at hq
    rw [qInsert]; split
    · rename_i hb
      refine List.pairwise_cons.mpr ⟨fun g hg => ?_, List.pairwise_cons.mpr hq⟩
      rcases List.mem_cons.mp hg with rfl | hg
      · exact hb
      · exact before_trans hb (hq.1 g hg)
    · rename_i hb
      refine List.pairwise_cons.mpr ⟨fun g hg => ?_, ih hq.2 fun g hg => hs g (by simp [hg])⟩
      rcases mem_qInsert.mp hg with rfl | hg
      · exact before_total (fun h => hs f (by simp) h.symm) hb
      · exact hq.1 g hg

/-! ### `insert` -/

/-- The leaves of all trees in Q. -/
def qLeaves (q : List QEntry) : List (Symbol × Nat) := q.flatMap (fun e => e.t.leaves)

theorem insert_queueOk {B : Builder} {t : Tree} (h : queueOk B.q B.seq) (ht : t.weighted = true) :
    queueOk (B.insert t).q (B.insert t).seq where
  sorted := qInsert_sorted h.sorted fun f hf => (h.numbers f hf).ne
  weights := by
    intro e he
    rcases mem_qInsert.mp he with rfl | he
    · exact ⟨rfl, ht⟩
    · exact h.weights e he
  numbers := by
    intro e he
    show e.seq < B.seq + 1
    rcases mem_qInsert.mp he with rfl | he
    · exact Nat.lt_succ_self _
    · exact (h.numbers e he).trans (Nat.lt_succ_self _)

theorem insert_length (B : Builder) (t : Tree) : (B.insert t).q.length = B.q.length + 1 :=
  (qInsert_perm _ _).length_eq

theorem insert_leaves (B : Builder) (t : Tree) : (qLeaves (B.insert t).q).Perm (t.leaves ++ qLeaves B.q) :=
  (qInsert_perm _ _).flatMap_right _

@[simp] theorem insert_seq (B : Builder) (t : Tree) : (B.insert t).seq = B.seq + 1 := rfl

/-! ### TB_INIT -/

theorem queueOk_nil : queueOk [] 0 := ⟨.nil, by simp, by simp⟩

theorem insertPresent_foldl (ft : Vector Nat 256) (ss : List (Fin 256)) (B : Builder) (h : queueOk B.q B.seq)
    (hn : B.seq = B.q.length) :
    let B' := ss.foldl (insertPresent ft) B
    let new := (ss.filter (fun s => 1 ≤ ft[s.val])).map (fun s => (s.castSucc, ft[s.val]))
    queueOk B'.q B'.seq ∧ B'.seq = B'.q.length ∧ B'.q.length = B.q.length + new.length ∧
      (qLeaves B'.q).Perm (qLeaves B.q ++ new) := by
  induction ss generalizing B with
  | nil => exact ⟨h, hn, rfl, by simp⟩
  | cons s ss ih =>
    rw [List.foldl_cons]
    by_cases hs : 1 ≤ ft[s.val]
    · have e : insertPresent ft B s = B.insert (.leaf s.castSucc ft[s.val]) := if_pos hs
      have := ih (B.insert (.leaf s.castSucc ft[s.val])) (insert_queueOk h (by simpa [Tree.weighted] using hs))
        (by simp [insert_length, hn])
      rw [e]
      obtain ⟨h1, h2, h3, h4⟩ := this
      refine ⟨h1, h2, ?_, ?_⟩
      · rw [h3, insert_length]; simp [hs]; omega
      · refine h4.trans (((insert_leaves B _).append_right _).trans ?_)
        simp [hs, Tree.leaves]
        exact List.perm_middle.symm
    · have e : insertPresent ft B s = B := if_neg hs
      rw [e]
      simpa [hs] using ih B h hn

theorem presentCount_eq (ft : Vector Nat 256) :
    presentCount ft = ((List.finRange 256).filter (fun s => 1 ≤ ft[s.val])).length := by
  rw [presentCount, ← List.countP_eq_length_filter]
  have : ft.toList = (List.finRange 256).map (fun s => ft[s.val]) := by
    apply List.ext_getElem
    · simp
    · intro i h1 h2; simp
  rw [this, List.countP_map]; rfl

/-- After TB_INIT, Q holds the EOF-symbol leaf and one leaf for each present symbol (R89, R95). -/
theorem init_spec (ft : Vector Nat 256) (B : Builder) :
    queueOk (B.init ft).q (B.init ft).seq ∧ (B.init ft).q.length = presentCount ft + 1 ∧
      (B.init ft).seq = presentCount ft + 1 ∧ (qLeaves (B.init ft).q).Perm (initialLeaves ft) := by
  have h0 : queueOk (Builder.insert (.leaf eofSym 1) { B with q := [], seq := 0 }).q
      (Builder.insert (.leaf eofSym 1) { B with q := [], seq := 0 }).seq :=
    insert_queueOk queueOk_nil rfl
  obtain ⟨h1, h2, h3, h4⟩ := insertPresent_foldl ft (List.finRange 256) _ h0 rfl
  have hl : (B.init ft).q.length = presentCount ft + 1 := by
    rw [presentCount_eq, Builder.init, h3, List.length_map, insert_length]
    simp only [List.length_nil]; omega
  exact ⟨h1, hl, h2.trans hl, h4⟩

/-! ### TB_MERGE -/

/-- One merge: the two least entries become one (R89, R91). -/
def Builder.mergeOnce (a c : QEntry) (rest : List QEntry) (B : Builder) : Builder :=
  Builder.insert (.internal a.t c.t (a.t.weight + c.t.weight)) { B with q := rest, a := a, c := c }

theorem mergeOnce_queueOk {B : Builder} {a c : QEntry} {rest : List QEntry} (h : queueOk B.q B.seq)
    (hq : B.q = a :: c :: rest) : queueOk (B.mergeOnce a c rest).q (B.mergeOnce a c rest).seq := by
  rw [hq] at h
  have hr : queueOk rest B.seq :=
    ⟨(List.pairwise_cons.mp (List.pairwise_cons.mp h.sorted).2).2, fun e he => h.weights e (by simp [he]),
      fun e he => h.numbers e (by simp [he])⟩
  refine insert_queueOk (B := { B with q := rest, a := a, c := c }) hr ?_
  simp [Tree.weighted, (h.weights a (by simp)).2, (h.weights c (by simp)).2]

theorem mergeOnce_leaves {B : Builder} {a c : QEntry} {rest : List QEntry} (hq : B.q = a :: c :: rest) :
    (qLeaves (B.mergeOnce a c rest).q).Perm (qLeaves B.q) := by
  refine (insert_leaves _ _).trans ?_
  rw [hq]; simp [qLeaves, Tree.leaves]

theorem mergeOnce_length (B : Builder) (a c : QEntry) (rest : List QEntry) :
    (B.mergeOnce a c rest).q.length = rest.length + 1 := insert_length _ _

/-- TB_MERGE leaves one entry, made of the leaves it started from by |Q| - 1 merges (R89, R95). -/
theorem merge_spec (n : Nat) (B : Builder) (h : queueOk B.q B.seq) (hne : B.q ≠ []) (hn : B.q.length ≤ n + 1) :
    ∃ e, (B.merge n).q = [e] ∧ e.w = e.t.weight ∧ e.t.weighted = true ∧ e.t.leaves.Perm (qLeaves B.q) ∧
      (B.merge n).seq = B.seq + (B.q.length - 1) := by
  induction n generalizing B with
  | zero =>
    match hq : B.q with
    | [] => exact absurd hq hne
    | [e] =>
      have := h.weights e (by simp [hq])
      exact ⟨e, by simp [Builder.merge, hq], this.1, this.2, by simp [qLeaves], by simp [Builder.merge]⟩
    | _ :: _ :: _ => simp [hq] at hn
  | succ n ih =>
    match hq : B.q with
    | [] => exact absurd hq hne
    | [e] =>
      have := h.weights e (by simp [hq])
      exact ⟨e, by simp [Builder.merge, hq], this.1, this.2, by simp [qLeaves], by simp [Builder.merge, hq]⟩
    | a :: c :: rest =>
      have hm : B.merge (n + 1) = (B.mergeOnce a c rest).merge n := by
        rw [Builder.merge, hq]; rfl
      have hl := mergeOnce_length B a c rest
      obtain ⟨e, h1, h2, h3, h4, h5⟩ := ih (B.mergeOnce a c rest) (mergeOnce_queueOk h hq)
        (qInsert_ne_nil _ _) (by rw [hq] at hn; simp at hn; omega)
      refine ⟨e, hm ▸ h1, h2, h3, h4.trans ?_, ?_⟩
      · rw [← hq]; exact mergeOnce_leaves hq
      · rw [hm, h5, hl]; simp [Builder.mergeOnce]; omega

/-- What TBLD builds from FT (R89, R95). -/
theorem build_spec (ft : Vector Nat 256) (B : Builder) :
    ∃ e, ((B.init ft).merge (B.init ft).q.length).q = [e] ∧ e.w = e.t.weight ∧ e.t.weighted = true ∧
      e.t.leaves.Perm (initialLeaves ft) ∧
      ((B.init ft).merge (B.init ft).q.length).seq = 2 * presentCount ft + 1 := by
  obtain ⟨h1, h2, h3, h4⟩ := init_spec ft B
  obtain ⟨e, g1, g2, g3, g4, g5⟩ := merge_spec (B.init ft).q.length (B.init ft) h1
    (by intro h; rw [h] at h2; simp at h2) (by omega)
  exact ⟨e, g1, g2, g3, g4.trans h4, by rw [g5, h3, h2]; omega⟩

/-- Once one entry is left, a further turn changes nothing (R89). -/
theorem merge_succ_of_length_le (n : Nat) (B : Builder) (h : B.q.length ≤ n + 1) : B.merge (n + 1) = B.merge n := by
  induction n generalizing B with
  | zero =>
    match hq : B.q with
    | [] => simp [Builder.merge, hq]
    | [_] => simp [Builder.merge, hq]
    | _ :: _ :: _ => simp [hq] at h
  | succ n ih =>
    match hq : B.q with
    | [] => simp [Builder.merge, hq]
    | [_] => simp [Builder.merge, hq]
    | a :: c :: rest =>
      have hl : (B.mergeOnce a c rest).q.length ≤ n + 1 := by
        rw [mergeOnce_length]; simpa [hq] using h
      have e : ∀ m, B.merge (m + 1) = (B.mergeOnce a c rest).merge m := fun m => by
        rw [Builder.merge, hq]; rfl
      rw [e, e, ih _ hl]

/-- TB_MERGE makes one merge for each present symbol (R95). -/
theorem merge_all (ft : Vector Nat 256) (B : Builder) :
    (B.init ft).merge (B.init ft).q.length = (B.init ft).merge (presentCount ft) := by
  have h := (init_spec ft B).2.1
  rw [h]
  exact merge_succ_of_length_le _ _ h.le

/-- The initial Q does not depend on what the builder's registers held (R89). -/
theorem init_congr (ft : Vector Nat 256) (B B' : Builder) (ha : B.a = B'.a) (hc : B.c = B'.c) :
    B.init ft = B'.init ft := by
  simp [Builder.init, ha, hc]

end Sys2Proof.Machine
end

