-- ==== Sys2Proof/Laws/TreeCodec.lean ====
section
/-! SUPPORT. TS_WALK writes `ser` of what is pending (R99); TD_WALK reads it back (R101, R108). -/

namespace Sys2Proof.Machine

/-! ### TS_WALK -/

/-- The walk of TREE starts like the walk of a pending subtree. -/
theorem tserNext_root (s : State) :
    tserNext { s with phase := .tsWalk, stk := [.sub s.tree] } = .next (emitTree s) := by
  unfold tserNext emitTree
  split <;> simp_all

/-- A write in TS_WALK is followed by the next transaction of the walk. -/
theorem deliver_tsWalk {s : State} (hp : s.phase = .tsWalk) : deliver .done s = tserNext s := by
  simp [deliver, hp]

/-- A pending subtree is written whole, then what is below it on the stack goes on (R99, R100). -/
theorem emit_steps (t : Tree) {s s₂ : State} {stk : List StkEntry} (hb : s.st = .busy) (hp : s.phase = .tsWalk)
    (hn : s.pend = none) (h : tserNext { s with stk := stk, bout := s.bout ++ t.ser } = .next s₂) :
    ∃ s₁, tserNext { s with stk := .sub t :: stk } = .next s₁ ∧ Steps t.txns s₁ s₂ := by
  induction t generalizing s s₂ stk with
  | leaf sym w =>
    have e1 : Steps 1 { s with stk := .sym sym :: stk, pend := some (.boutWriteBit false) }
        { s with stk := stk, bout := s.bout ++ [false], pend := some (.boutWriteBits sym.val 9) } :=
      Steps.writeBit hb rfl (by simp [deliver, hp, tserNext, State.issue])
    have e2 : Steps 1 { s with stk := stk, bout := s.bout ++ [false], pend := some (.boutWriteBits sym.val 9) } s₂ :=
      Steps.writeBits hb rfl (by rw [← h]; simp [deliver, hp, Tree.ser, hn])
    exact ⟨_, rfl, e1.trans e2⟩
  | internal l r w hl hr =>
    obtain ⟨sr, hsr, r2⟩ := @hr { s with bout := s.bout ++ [true] ++ l.ser } s₂ stk hb hp hn (by
      rw [← h]; simp [Tree.ser])
    obtain ⟨sl, hsl, l2⟩ := @hl { s with bout := s.bout ++ [true] } sr (.sub r :: stk) hb hp hn hsr
    have e1 : Steps 1 { s with stk := .sub l :: .sub r :: stk, pend := some (.boutWriteBit true) } sl :=
      Steps.writeBit hb rfl (by rw [← hsl]; simp [deliver, hp, hn])
    refine ⟨_, rfl, (e1.trans (l2.trans r2)).cast ?_⟩
    simp only [Tree.txns, Tree.leafCount, Tree.innerCount]; omega

/-- The whole of TREE is written, then the walk is over (R99). -/
theorem emitTree_steps {s : State} (hb : s.st = .busy) (hn : s.pend = none) :
    Steps s.tree.txns (emitTree s)
      (tserEnd { s with phase := .tsWalk, stk := [], bout := s.bout ++ s.tree.ser }) := by
  obtain ⟨s₁, h1, h2⟩ := @emit_steps s.tree { s with phase := .tsWalk } _ [] hb rfl hn rfl
  rw [tserNext_root] at h1
  cases h1
  exact h2

/-! ### TD_WALK -/

/-- What `parse` returns does not depend on the stack it was called with being still in State. -/
theorem tdesReturn_stk (t : Tree) (stk stk' : List StkEntry) (s : State) :
    tdesReturn t stk { s with stk := stk' } = tdesReturn t stk s := by
  induction stk generalizing t with
  | nil => rfl
  | cons e rest ih =>
    cases e with
    | needLeft => rfl
    | needRight l => exact ih _
    | sub _ => rfl
    | sym _ => rfl

/-- There is room for `n` more nodes (R104). -/
def State.hasRoom (s : State) (n : Nat) : Prop := ∀ cap, s.par.nodeCap = some cap → s.nnodes + n ≤ cap

theorem overCap_of_hasRoom {s : State} {n : Nat} (h : s.hasRoom n) (hn : 0 < n) :
    overCap s.par.nodeCap s.nnodes = false := by
  unfold overCap
  split
  · rfl
  · rename_i cap hc
    have := h cap hc
    simp; omega

/-- A subtree whose serialization stands next on BIN is parsed whole, then returned to the stack (R101, R108). -/
theorem parse_steps (t : Tree) {s : State} {bs : List Bit} (hb : s.st = .busy) (hp : s.phase = .tdWalk)
    (hq : s.pend = some .binReadBit) (hd : s.bin.drop s.binPos = t.ser ++ bs) (hr : s.hasRoom t.nodeCount) :
    ∃ b v, ∀ s₂, tdesReturn t.placeholder s.stk
        { s with b := b, v := v, nnodes := s.nnodes + t.nodeCount, binPos := s.binPos + t.ser.length, pend := none }
          = .next s₂ → Steps t.txns s s₂ := by
  induction t generalizing s bs with
  | leaf sym w =>
    refine ⟨.val false, .val sym.val, fun s₂ h => ?_⟩
    have hc := overCap_of_hasRoom hr (by simp [Tree.nodeCount, Tree.leafCount])
    have hd' : s.bin.drop s.binPos = false :: (toBits 9 sym.val ++ bs) := hd
    have hlt : sym.val < 2 ^ 9 := by have := sym.isLt; omega
    have e1 : Steps 1 s { s with
        b := .val false, nnodes := s.nnodes + 1, binPos := s.binPos + 1, pend := some (.binReadBits 9) } :=
      Steps.readBit hb hq hd' (by simp [deliver, hp, tdesMarker, hc, State.issue])
    have e2 : Steps 1 { s with
        b := .val false, nnodes := s.nnodes + 1, binPos := s.binPos + 1, pend := some (.binReadBits 9) } s₂ :=
      Steps.readBits hb rfl hlt (by omega) (drop_succ_of_drop hd') (by
        rw [← h]
        simp [deliver, hp, tdesSymbol, Tree.placeholder, Tree.nodeCount, Tree.leafCount, Tree.innerCount, Tree.ser,
          Nat.add_assoc])
    exact e1.trans e2
  | internal l r w hl hrr =>
    have hd' : s.bin.drop s.binPos = true :: (l.ser ++ (r.ser ++ bs)) := by
      rw [hd]; simp [Tree.ser]
    have hnc : (Tree.internal l r w).nodeCount = l.nodeCount + r.nodeCount + 1 := by
      simp only [Tree.nodeCount, Tree.leafCount, Tree.innerCount]; omega
    rw [hnc] at hr
    have hc := overCap_of_hasRoom hr (by omega)
    -- the marker, then the left child, then the right child
    have e1 : Steps 1 s { s with
        b := .val true, nnodes := s.nnodes + 1, stk := .needLeft :: s.stk, binPos := s.binPos + 1 } :=
      Steps.readBit hb hq hd' (by simp [deliver, hp, tdesMarker, hc, State.issue, hq])
    obtain ⟨b1, v1, H1⟩ := @hl { s with
        b := .val true, nnodes := s.nnodes + 1, stk := .needLeft :: s.stk, binPos := s.binPos + 1 } (r.ser ++ bs)
      hb hp hq (drop_succ_of_drop hd') (fun cap hcap => by have := hr cap hcap; simp only; omega)
    have e2 := H1 { s with
        b := b1, v := v1, nnodes := s.nnodes + 1 + l.nodeCount, stk := .needRight l.placeholder :: s.stk,
        binPos := s.binPos + 1 + l.ser.length } (by simp [tdesReturn, State.issue, hq])
    obtain ⟨b2, v2, H2⟩ := @hrr { s with
        b := b1, v := v1, nnodes := s.nnodes + 1 + l.nodeCount, stk := .needRight l.placeholder :: s.stk,
        binPos := s.binPos + 1 + l.ser.length } bs hb hp hq
      (drop_add_of_drop (drop_succ_of_drop hd'))
      (fun cap hcap => by have := hr cap hcap; simp only; omega)
    refine ⟨b2, v2, fun s₂ h => (e1.trans (e2.trans (H2 s₂ ?_))).cast ?_⟩
    · rw [← h, tdesReturn, ← tdesReturn_stk _ _ s.stk]
      simp [hnc, Tree.placeholder, Tree.ser, Nat.add_assoc, Nat.add_comm, Nat.add_left_comm]
    · simp only [Tree.txns, Tree.leafCount, Tree.innerCount]; omega

end Sys2Proof.Machine
end

