-- ==== Sys2Proof/Laws/Commands.lean ====
section
/-! SUPPORT. How each command starts once its "requires" column is met (R28, R30), what the internal updates of TBLD and
CTDR answer, the whole of SENC and of SDEC's loop as one chain of transactions, how a step runs them, and sums of counts. -/

namespace Sys2Proof.Machine

/-! ### Counts -/

/-- A tree is no deeper than it has internal nodes (R95). -/
theorem Tree.depth_le_innerCount (t : Tree) : t.depth ≤ t.innerCount := by
  induction t with
  | leaf => simp [Tree.depth]
  | internal l r w hl hr => simp [Tree.depth, Tree.innerCount]; omega

theorem ft_toList (ft : Vector Nat 256) : ft.toList = (List.finRange 256).map (fun s => ft[s.val]) := by
  apply List.ext_getElem
  · simp
  · intro i h1 h2; simp

theorem sum_filter_pos (l : List Nat) : (l.filter (fun x => decide (1 ≤ x))).sum = l.sum := by
  induction l with
  | nil => rfl
  | cons a l ih => by_cases h : 1 ≤ a <;> simp [h, ih]; omega

/-- The leaves TBLD starts from weigh 1 + the sum of FT together (R94). -/
theorem initialLeaves_sum (ft : Vector Nat 256) :
    ((initialLeaves ft).map Prod.snd).sum = 1 + ft.toList.sum := by
  have : ft.toList.sum = (ft.toList.filter (fun x => decide (1 ≤ x))).sum := (sum_filter_pos _).symm
  rw [this, ft_toList, List.filter_map]
  simp only [initialLeaves, List.map_cons, List.sum_cons, List.map_map]
  rfl

theorem initialLeaves_length (ft : Vector Nat 256) : (initialLeaves ft).length = presentCount ft + 1 := by
  rw [presentCount_eq]; simp [initialLeaves]

/-- The symbols TBLD starts from: the EOF-symbol and the bytes with a counter of at least 1 (R89, R114). -/
theorem mem_initialLeaves (ft : Vector Nat 256) (s : Symbol) :
    s ∈ (initialLeaves ft).map Prod.fst ↔ s = eofSym ∨ ∃ y : Byte, s = symbolOfByte y ∧ 1 ≤ ftAt ft y := by
  simp only [initialLeaves, List.map_cons, List.mem_cons, List.map_map, List.mem_map, List.mem_filter,
    List.mem_finRange, true_and, decide_eq_true_eq, Function.comp]
  refine or_congr Iff.rfl ⟨?_, ?_⟩
  · rintro ⟨x, hx, rfl⟩
    exact ⟨BitVec.ofFin x, rfl, hx⟩
  · rintro ⟨y, rfl, hy⟩
    exact ⟨y.toFin, hy, rfl⟩

theorem sum_set_succ (l : List Nat) (i : Nat) (h : i < l.length) : (l.set i (l[i] + 1)).sum = l.sum + 1 := by
  induction l generalizing i with
  | nil => simp at h
  | cons x l ih =>
    cases i with
    | zero => simp; omega
    | succ i => simp at h ⊢; rw [ih i h]; omega

theorem ftIncr_sum (ft : Vector Nat 256) (y : Byte) : (ftIncr ft y).toList.sum = ft.toList.sum + 1 := by
  have h : y.toNat < ft.toList.length := by have := y.isLt; simpa using this
  rw [← sum_set_succ ft.toList y.toNat h]
  simp [ftIncr, ftAt, Vector.toList_set]

/-- The counters together count every byte (R84). -/
theorem foldl_ftIncr_sum (ys : List Byte) (ft : Vector Nat 256) :
    (ys.foldl ftIncr ft).toList.sum = ft.toList.sum + ys.length := by
  induction ys generalizing ft with
  | nil => simp
  | cons y ys ih => rw [List.foldl_cons, ih, ftIncr_sum, List.length_cons]; omega

/-! ### Commands and steps as runs -/

theorem command_run {s : State} (ha : s.accepts = true) (op : BitVec 4) (start : State → State) :
    command op start s = run s.answers (start { s with cmd := op, st := .busy }) := by
  simp [command, ha]

theorem command_oks {s : State} (ha : s.accepts = true) {as : List Answer} (hr : s.answers = as) (op : BitVec 4)
    (start : State → State) : command op start s = run as (start { s with cmd := op, st := .busy }) := by
  subst hr; exact command_run ha op start

/-- A start that raises ends the command with no answer used. -/
theorem command_raise {s : State} (ha : s.accepts = true) (op : BitVec 4) (start : State → State) (F : FaultClass)
    (sub info : Nat)
    (h : start { s with cmd := op, st := .busy } = raise F sub info { s with cmd := op, st := .busy }) :
    command op start s = .next (raise F sub info { s with cmd := op, st := .busy }) := by
  rw [command_run ha, h, run_of_not_busy (by simp)]; rfl

theorem stepHost_nil {s : State} (hh : s.host = []) : stepHost s = blockStep s := by
  simp [stepHost, hh]

theorem stepHost_pass {s : State} {rest : List HostAct} {as : List Answer} (hh : s.host = .pass :: rest)
    (hb : s.st = .busy) (ha : s.answers = as) : stepHost s = run as { s with host := rest } := by
  unfold stepHost
  rw [hh]
  exact (if_pos hb).trans (congrArg (run · _) ha)

/-- One answered transaction, as a step (R9). -/
theorem stepHost_ok {s t : State} {rest : List Answer} (hh : s.host = []) (hb : s.st = .busy) {txn : Txn}
    (hp : s.pend = some txn) (ha : s.answers = .ok :: rest)
    (hd : deliver (perform txn s).1 (perform txn s).2.answered = .next t) :
    stepHost s = .next { t with answers := rest } := by
  rw [stepHost_nil hh, blockStep_ok hb hp ha, hd, andThen_next]

/-- A `hold` is used only while the command runs. -/
theorem run_hold_any (t : State) (as : List Answer) :
    run (.hold :: as) t = .next { t with answers := if t.st = .busy then as else .hold :: as } := by
  by_cases hb : t.st = .busy <;> simp [run, hb]

/-! ### What a fault records -/

theorem tookFault_raise (F : FaultClass) (sub info : Nat) (s : State) (hs : sub < 16) (hi : info < 2 ^ 32) :
    (raise F sub info s).tookFault F.code sub info := by
  have hF : F.code < 16 := by cases F <;> decide
  refine ⟨?_, ?_, ?_, ⟨rfl, rfl, rfl⟩, rfl, ⟨rfl, rfl⟩, rfl⟩
  · simp [raise]; omega
  · simp [raise]; omega
  · simp [raise]; omega

theorem raised {F : FaultClass} {sub info : Nat} {s s' : State} {rest : List Answer} (hs : sub < 16)
    (hi : info < 2 ^ 32) (hst : s'.sameStreams s) :
    State.tookFault { raise F sub info s with answers := rest } F.code sub info ∧
      s'.sameStreams { raise F sub info s with answers := rest } := by
  have := tookFault_raise F sub info s hs hi
  exact ⟨⟨this.1, this.2, this.3, this.4, this.5, this.6, this.7⟩, ⟨hst.1, hst.2, hst.3, hst.4, hst.5, hst.6⟩⟩

/-! ### The starts -/

theorem tbld_start {s : State} (hf : s.ftValid = true) :
    tbldStart s = { s with
      eofSeen := false, treeValid := false, ctValid := false, phase := .tbInit, pend := none } := by
  rw [tbldStart, beginUnit]; simp [requires, hf, flagsAtStart]

theorem ctdr_start {s : State} (hf : s.treeValid = true) :
    ctdrStart s = { s with eofSeen := false, ctValid := false, phase := .cdWalk, pend := none } := by
  rw [ctdrStart, beginUnit]; simp [requires, hf, flagsAtStart]

theorem tser_start {s : State} (hf : s.treeValid = true) : tserStart s = emitTree { s with eofSeen := false } := by
  rw [tserStart, beginUnit]; simp [requires, hf, flagsAtStart]

theorem tdes_start (s : State) :
    tdesStart s = { s with
      eofSeen := false, treeValid := false, ctValid := false, phase := .tdWalk, nnodes := 0, stk := [],
      pend := some .binReadBit } := by
  rw [tdesStart, beginUnit]; simp [requires, flagsAtStart]

theorem senc_start {s : State} (h1 : s.treeValid = true) (h2 : s.ctValid = true) :
    sencStart s = { s with
      eofSeen := false, phase := .seMagic, pend := some (.boutWriteBits s.par.magic.toNat 32) } := by
  rw [sencStart, beginUnit]; simp [requires, h1, h2, flagsAtStart]

theorem sdec_start {s : State} (hf : s.treeValid = true) : sdecStart s = sdecOuter { s with eofSeen := false } := by
  rw [sdecStart, beginUnit]; simp [requires, hf, flagsAtStart]

theorem mchk_start (s : State) :
    mchkStart s = { s with eofSeen := false, phase := .mgCheck, pend := some (.binReadBits 32) } := by
  rw [mchkStart, beginUnit]; simp [requires, flagsAtStart]

/-- The transaction a unit issues first does not depend on what was outstanding. -/
theorem emitTree_pend (s : State) (p : Option Txn) : emitTree { s with pend := p } = emitTree s := by
  unfold emitTree; split <;> rename_i h <;> dsimp only at h <;> simp only [h] <;> rfl

theorem sdecOuter_pend (s : State) (p : Option Txn) (ph : Phase) :
    sdecOuter { s with pend := p, phase := ph } = sdecOuter s := rfl

/-! ### The internal updates -/

/-- TB_INIT and TB_MERGE (R89); the second stops only where the root's weight, which is 1 + the sum of FT, does not fit
(R94). -/
theorem tbld_internal {s : State} (hb : s.st = .busy) (hn : s.pend = none) (hp : s.phase = .tbInit) :
    ∃ (e a c : QEntry), e.w = e.t.weight ∧ e.t.leaves.Perm (initialLeaves s.ft) ∧ e.t.weighted = true ∧
      e.t.weight = 1 + s.ft.toList.sum ∧
      ((s.builder.init s.ft).merge (s.builder.init s.ft).q.length).q = [e] ∧
      internal s = .next (tbldInit s) ∧ internal (tbldInit s) =
        if widthFits s.par.width (1 + s.ft.toList.sum) then .next (tbldEnd { s with
          phase := .tbMerge, tree := e.t, q := [e], seq := 2 * presentCount s.ft + 1, a := a, c := c })
        else .refused .countWidth := by
  obtain ⟨e, h1, h2, h3, h4, h5⟩ := build_spec s.ft s.builder
  have hw : e.t.weight = 1 + s.ft.toList.sum := by
    rw [Tree.weight_eq_sum h3, (h4.map Prod.snd).sum_eq, initialLeaves_sum]
  refine ⟨e, ((s.builder.init s.ft).merge (s.builder.init s.ft).q.length).a,
    ((s.builder.init s.ft).merge (s.builder.init s.ft).q.length).c, h2, h4, h3, hw, h1, ?_, ?_⟩
  · simp [internal, hb, hn, hp]
  · have hbb : (tbldInit s).builder = s.builder.init s.ft := rfl
    have hq : (tbldInit s).q = (s.builder.init s.ft).q := rfl
    have hpar : (tbldInit s).par = s.par := rfl
    have : internal (tbldInit s) = tbldMerge (tbldInit s) := by
      unfold internal; rw [if_pos ⟨hb, hn⟩]; rfl
    rw [this]
    unfold tbldMerge
    simp only [hbb, hq, h1, hpar, hw]
    simp [tbldInit, State.withBuilder, h5, h1]

/-- CD_WALK (R109). -/
theorem ctdr_internal {s : State} (hb : s.st = .busy) (hn : s.pend = none) (hp : s.phase = .cdWalk) :
    ∃ path, internal s = .next (ctdrEnd { s with ct := s.tree.table, path := path, stk := [] }) := by
  refine ⟨(walk s.tree [] { ct := Vector.replicate 257 none, path := [] }).path, ?_⟩
  simp [internal, hb, hn, hp, ctdrWalk, walk_table]

/-! ### SENC -/

/-- The magic, the tree and the rewind, up to the first read of SE_PAYLOAD (R116, R122). -/
theorem header_steps {s : State} (hb : s.st = .busy) (hn : s.pend = none) (hc : s.cmd ≠ 6) :
    Steps (1 + s.tree.txns + 1) { s with phase := .seMagic, pend := some (.boutWriteBits s.par.magic.toNat 32) }
      (sencRead { s with
        bout := s.bout ++ toBits 32 s.par.magic.toNat ++ s.tree.ser, stk := [], srcPos := 0 }) := by
  have e1 : Steps 1 { s with phase := .seMagic, pend := some (.boutWriteBits s.par.magic.toNat 32) }
      (emitTree { s with phase := .seMagic, bout := s.bout ++ toBits 32 s.par.magic.toNat }) :=
    Steps.writeBits hb rfl (by simp [deliver, hn])
  have e2 := @emitTree_steps { s with phase := .seMagic, bout := s.bout ++ toBits 32 s.par.magic.toNat } hb hn
  have e3 : Steps 1 (tserEnd { s with
        phase := .tsWalk, stk := [], bout := s.bout ++ toBits 32 s.par.magic.toNat ++ s.tree.ser })
      (sencRead { s with
        bout := s.bout ++ toBits 32 s.par.magic.toNat ++ s.tree.ser, stk := [], srcPos := 0 }) := by
    have : tserEnd { s with
          phase := .tsWalk, stk := [], bout := s.bout ++ toBits 32 s.par.magic.toNat ++ s.tree.ser }
        = sencRewind { s with
          phase := .tsWalk, stk := [], bout := s.bout ++ toBits 32 s.par.magic.toNat ++ s.tree.ser } := by
      simp [tserEnd, UnitCmd.opcode]; intro h; exact absurd h hc
    rw [this]
    exact @Steps.rewind (sencRewind { s with
        phase := .tsWalk, stk := [], bout := s.bout ++ toBits 32 s.par.magic.toNat ++ s.tree.ser }) _ hb rfl
      (by simp [deliver, sencRewind, sencRead])
  exact (e1.trans e2).trans e3

/-- All of SENC where every symbol has a Code (R116, R121). -/
theorem senc_steps {s : State} (hb : s.st = .busy) (hn : s.pend = none) (hc : s.cmd ≠ 6) (hcov : covers s.ct s.src) :
    Steps (sencTxns s.tree s.ct s.src)
      { s with phase := .seMagic, pend := some (.boutWriteBits s.par.magic.toNat 32) }
      (sencEnd { s with
        bout := s.bout ++ toBits 32 s.par.magic.toNat ++ s.tree.ser ++ payload s.ct s.src
        srcPos := s.src.length, r := .END, stk := [], k := (codeBits s.ct eofSym).length, phase := .seEofcode }) := by
  have h1 := header_steps hb hn hc
  obtain ⟨r, k, h2⟩ := @payload_steps s.src { s with
      bout := s.bout ++ toBits 32 s.par.magic.toNat ++ s.tree.ser, stk := [], srcPos := 0 } [] hb hn (by simp) hcov.1
  have h3 := @eofcode_steps { s with
      bout := s.bout ++ toBits 32 s.par.magic.toNat ++ s.tree.ser ++ codesOf s.ct s.src, stk := []
      srcPos := 0 + s.src.length, r := r, k := k } hb hn (by simp) hcov.2
  refine (((h1.trans h2).trans h3).cast ?_).of_eq ?_
  · simp [sencTxns, payload, codesOf]; omega
  · simp [payload, codesOf]

/-! ### SDEC -/

theorem payloadBits_cons (e : Byte × Code) (cs : List (Byte × Code)) :
    payloadBits (e :: cs) = e.2 ++ payloadBits cs := rfl

theorem payloadTxns_cons (e : Byte × Code) (cs : List (Byte × Code)) :
    payloadTxns (e :: cs) = e.2.length + 2 + payloadTxns cs := by
  simp [payloadTxns]

/-- The loop of SD_OUTER over symbols whose Codes are not empty (R129, R134). -/
theorem symbols_steps (cs : List (Byte × Code)) {s : State} {bs : List Bit} (hb : s.st = .busy) (hn : s.pend = none)
    (ht : onTree s.tree cs) (h : s.bin.drop s.binPos = payloadBits cs ++ bs) (hne : ∀ e ∈ cs, e.2 ≠ []) :
    ∃ b cur, Steps (payloadTxns cs) (sdecOuter s) (sdecOuter { s with
      b := b, cur := cur, binPos := s.binPos + (payloadBits cs).length, dst := s.dst ++ payloadBytes cs }) := by
  induction cs generalizing s with
  | nil => exact ⟨s.b, s.cur, (Steps.refl _).of_eq (by simp [payloadBits, payloadBytes])⟩
  | cons e cs ih =>
    rw [payloadBits_cons, List.append_assoc] at h
    have he : e.2 ++ (payloadBits cs ++ bs) ≠ [] := by
      intro hnil; rw [List.append_eq_nil_iff] at hnil; exact hne e (by simp) hnil.1
    obtain ⟨b, cur, h1⟩ := @symbol_steps s e.1 e.2 (payloadBits cs ++ bs) hb hn (ht e (by simp)) h he
    obtain ⟨b2, cur2, h2⟩ := @ih { s with
        b := b, cur := cur, binPos := s.binPos + e.2.length, dst := s.dst ++ [e.1] } hb hn
      (fun f hf => ht f (by simp [hf])) (drop_add_of_drop h) (fun f hf => hne f (by simp [hf]))
    refine ⟨b2, cur2, ((h1.trans h2).cast ?_).of_eq ?_⟩
    · rw [payloadTxns_cons]; omega
    · simp [payloadBits_cons, payloadBytes, Nat.add_assoc]

/-- A symbol's Code is not empty where another symbol has one (R79). -/
theorem Tree.codes_ne_nil {t : Tree} {sym sym' : Symbol} {code code' : Code} (h : (sym, code) ∈ t.codes)
    (h' : (sym', code') ∈ t.codes) (hne : sym ≠ sym') : code ≠ [] := by
  rintro rfl
  exact hne (Tree.codes_prefix h h' List.nil_prefix).1

/-- All of SDEC where the payload ends with the EOF-symbol's Code (R129, R133). -/
theorem sdec_steps {s : State} {cs : List (Byte × Code)} {code : Code} {bs : List Bit} (hb : s.st = .busy)
    (hn : s.pend = none) (ht : onTree s.tree cs) (hc : (eofSym, code) ∈ s.tree.codes)
    (hd : s.bin.drop s.binPos = payloadBits cs ++ code ++ bs) (hne : payloadBits cs ++ code ++ bs ≠ []) :
    ∃ b cur, Steps (payloadTxns cs + (1 + code.length)) (sdecOuter s)
      (sdecEnd { s with
        phase := .sdWalk, b := b, cur := cur, binPos := s.binPos + (payloadBits cs ++ code).length
        dst := s.dst ++ payloadBytes cs, eofSeen := true }) := by
  have hall : ∀ e ∈ cs, e.2 ≠ [] := fun e he => Tree.codes_ne_nil (ht e he) hc (symbolOfByte_ne_eof _)
  obtain ⟨b, cur, h1⟩ := @symbols_steps cs s (code ++ bs) hb hn ht (by rw [hd, List.append_assoc]) hall
  have hne2 : code ++ bs ≠ [] := by
    intro hnil
    cases cs with
    | nil => rw [List.append_assoc, hnil] at hne; exact hne rfl
    | cons e cs =>
      rw [List.append_eq_nil_iff] at hnil
      exact Tree.codes_ne_nil hc (ht e (by simp)) (symbolOfByte_ne_eof _).symm hnil.1
  obtain ⟨b2, cur2, h2⟩ := @eof_steps { s with
      b := b, cur := cur, binPos := s.binPos + (payloadBits cs).length, dst := s.dst ++ payloadBytes cs }
    code bs hb hn hc (drop_add_of_drop (by rw [hd, List.append_assoc])) hne2
  exact ⟨b2, cur2, (h1.trans h2).of_eq (by simp [Nat.add_assoc])⟩

/-- A walk that the end of BIN cuts short inside a Code raises CorruptStream (R131). -/
theorem cut_steps (t : Tree) {s : State} {sym : Symbol} {code p : Code} (hb : s.st = .busy) (hn : s.pend = none)
    (hp : s.phase = .sdWalk) (hm : (sym, code) ∈ t.codes) (hpre : p <+: code) (hne : p ≠ code)
    (h : s.bin.drop s.binPos = p) :
    ∃ u : State, u.sameStreams { s with binPos := s.bin.length ⊔ s.binPos } ∧ u.cmd = s.cmd ∧
      Steps (p.length + 1) (sdecWalk { s with cur := t }) (raise .corruptStream 0 0 u) := by
  induction t generalizing s code p with
  | leaf sym' w =>
    simp only [Tree.codes, List.mem_singleton, Prod.mk.injEq] at hm
    obtain ⟨rfl, rfl⟩ := hm
    simp at hpre; exact absurd hpre hne
  | internal l r w hl hr =>
    cases p with
    | nil =>
      refine ⟨{ s with b := .END, cur := .internal l r w, pend := none }, ⟨rfl, rfl, rfl, ?_, rfl, rfl⟩, rfl, ?_⟩
      · simp at h ⊢; omega
      · exact Steps.txn (s := sdecWalk { s with cur := .internal l r w }) (t := .binReadBit) hb rfl (by
          rw [perform_binReadBit_end (s := sdecWalk { s with cur := .internal l r w }) h]
          simp [deliver, sdecWalk, State.issue, hp, sdecGot, State.answered])
    | cons x p' =>
      have key : ∀ (u : Tree) (code' : Code), u = (if x then r else l) → code = x :: code' →
          (∃ v : State, v.sameStreams { s with binPos := s.bin.length ⊔ (s.binPos + 1) } ∧ v.cmd = s.cmd ∧
            Steps (p'.length + 1) (sdecWalk { s with b := .val x, binPos := s.binPos + 1, cur := u })
              (raise .corruptStream 0 0 v)) →
          ∃ v : State, v.sameStreams { s with binPos := s.bin.length ⊔ s.binPos } ∧ v.cmd = s.cmd ∧
            Steps ((x :: p').length + 1) (sdecWalk { s with cur := .internal l r w })
              (raise .corruptStream 0 0 v) := by
        rintro u code' rfl rfl ⟨v, hv, hc, e2⟩
        have e1 : Steps 1 (sdecWalk { s with cur := .internal l r w })
            (sdecWalk { s with b := .val x, binPos := s.binPos + 1, cur := if x then r else l }) :=
          Steps.readBit (s := sdecWalk { s with cur := .internal l r w }) hb rfl h
            (by simp [deliver, sdecWalk, State.issue, hp, sdecGot, hn])
        have hlt := congrArg List.length h
        simp at hlt
        refine ⟨v, ⟨hv.1, hv.2, hv.3, ?_, hv.5, hv.6⟩, hc, (e1.trans e2).cast ?_⟩
        · have := hv.4; simp at this ⊢; omega
        · simp; omega
      simp only [Tree.codes, List.mem_append, List.mem_map, Prod.mk.injEq] at hm
      rcases hm with ⟨f, hf, rfl, rfl⟩ | ⟨f, hf, rfl, rfl⟩
      · obtain ⟨rfl, hp'⟩ := List.cons_prefix_cons.mp hpre
        obtain ⟨v, h1, h2, h3⟩ := @hl { s with b := .val false, binPos := s.binPos + 1 } f.2 p' hb hn hp hf hp'
          (by simpa using hne) (drop_succ_of_drop h)
        exact key l f.2 rfl rfl ⟨v, ⟨h1.1, h1.2, h1.3, h1.4, h1.5, h1.6⟩, h2, h3⟩
      · obtain ⟨rfl, hp'⟩ := List.cons_prefix_cons.mp hpre
        obtain ⟨v, h1, h2, h3⟩ := @hr { s with b := .val true, binPos := s.binPos + 1 } f.2 p' hb hn hp hf hp'
          (by simpa using hne) (drop_succ_of_drop h)
        exact key r f.2 rfl rfl ⟨v, ⟨h1.1, h1.2, h1.3, h1.4, h1.5, h1.6⟩, h2, h3⟩

end Sys2Proof.Machine
end

