-- ==== Sys2Proof/Laws/Invariant.lean ====
section
/-! SUPPORT. A property that every internal update and every answered transaction keeps is kept by a run; the invariant
of Safety.lean is such a property, and where it holds no step stops (R26, R29, R41). -/

namespace Sys2Proof.Machine

/-! ### Properties kept by a run -/

/-- The outcome is a next state with the property, or, where W is finite, the refusal of U3. -/
def Keeps (P : State → Prop) (w : Option Nat) (o : Out) : Prop :=
  (∃ t, o = .next t ∧ P t) ∨ (o = .refused .countWidth ∧ w ≠ none)

theorem Keeps.next {P : State → Prop} {w : Option Nat} {t : State} (h : P t) : Keeps P w (.next t) := .inl ⟨t, rfl, h⟩

theorem Keeps.andThen {P Q : State → Prop} {w : Option Nat} {o : Out} {f : State → Out} (h : Keeps P w o)
    (hf : ∀ t, o = .next t → P t → Keeps Q w (f t)) : Keeps Q w (Machine.andThen o f) := by
  rcases h with ⟨t, rfl, h⟩ | ⟨rfl, h⟩
  · exact hf t rfl h
  · exact .inr ⟨rfl, h⟩

theorem Keeps.imp {P Q : State → Prop} {w : Option Nat} {o : Out} (h : Keeps P w o)
    (hpq : ∀ t, o = .next t → P t → Q t) : Keeps Q w o := by
  rcases h with ⟨t, e, h⟩ | h
  · exact .inl ⟨t, e, hpq t e h⟩
  · exact .inr h

/-- A property that each part of a run keeps, and under which no part stops but for a finite W, is kept by the run. -/
theorem run_keeps {P : State → Prop} {w : Option Nat} (hi : ∀ s, P s → Keeps P w (internal s))
    (ht : ∀ s f, P s → s.st = .busy → rank s = 0 → Keeps P w (transact f s))
    (ha : ∀ s as, P s → P { s with answers := as }) (as : List Answer) : ∀ s, P s → Keeps P w (run as s) := by
  have hs : ∀ s, P s → Keeps P w (settle s) := fun s h =>
    ((hi s h).andThen fun s1 _ h1 => hi s1 h1).andThen fun s2 _ h2 => hi s2 h2
  induction as with
  | nil => exact fun s h => (hs s h).andThen fun t _ h' => .next (ha t _ h')
  | cons a as ih =>
    intro s h
    rw [run]
    split
    · split
      · exact .next (ha s _ h)
      · refine (hs s h).andThen fun t e h' => ?_
        split
        · exact (ht t _ h' ‹_› (rank_settle e)).andThen fun u _ h'' => ih u h''
        · exact .next (ha t _ h')
    · exact .next (ha s _ h)

/-- A property that each part of a run keeps is kept by the run. -/
theorem run_preserves {P : State → Prop} (hi : ∀ s t, P s → internal s = .next t → P t)
    (ht : ∀ s f t, P s → s.st = .busy → transact f s = .next t → P t)
    (ha : ∀ s as, P s → P { s with answers := as }) (as : List Answer) :
    ∀ s t, P s → run as s = .next t → P t := by
  have hs : ∀ s t, P s → settle s = .next t → P t := by
    intro s t h e
    unfold settle at e
    obtain ⟨s2, e2, e3⟩ := andThen_eq_next.mp e
    obtain ⟨s1, e0, e1⟩ := andThen_eq_next.mp e2
    exact hi _ _ (hi _ _ (hi _ _ h e0) e1) e3
  induction as with
  | nil =>
    intro s t h e
    obtain ⟨s1, e1, e2⟩ := andThen_eq_next.mp e
    cases e2
    exact ha _ _ (hs _ _ h e1)
  | cons a as ih =>
    intro s t h e
    rw [run] at e
    split at e
    · split at e
      · cases e
        exact ha _ _ h
      · obtain ⟨s1, e1, e2⟩ := andThen_eq_next.mp e
        split at e2
        · rename_i hb
          obtain ⟨s2, e3, e4⟩ := andThen_eq_next.mp e2
          exact ih _ _ (ht _ _ _ (hs _ _ h e1) hb e3) e4
        · cases e2
          exact ha _ _ (hs _ _ h e1)
    · cases e
      exact ha _ _ h

/-! ### The invariant -/

/-- The invariant without the place in the pseudocode: what a running command keeps between its transactions. -/
structure State.Base (s : State) : Prop where
  srcPos_le : s.srcPos ≤ s.src.length
  binPos_le : s.binPos ≤ s.bin.length
  busy : s.st = .busy
  no_fault : s.faultCause = 0 ∧ s.faultInfo = 0
  eof : s.eofSeen = false
  tree_weighted : s.treeValid = true → s.tree.weighted = true
  ct_table : s.ctValid = true → s.ct = s.tree.table
  legal : s.par.legal = true

/-- What a command keeps between its parts, before it clears eof_seen. -/
structure State.Pre (s : State) : Prop where
  srcPos_le : s.srcPos ≤ s.src.length
  binPos_le : s.binPos ≤ s.bin.length
  busy : s.st = .busy
  no_fault : s.faultCause = 0 ∧ s.faultInfo = 0
  tree_weighted : s.treeValid = true → s.tree.weighted = true
  ct_table : s.ctValid = true → s.ct = s.tree.table
  legal : s.par.legal = true

theorem State.Base.pre {s : State} (h : s.Base) : s.Pre := ⟨h.1, h.2, h.3, h.4, h.6, h.7, h.8⟩

theorem State.Inv.base {s : State} (h : s.Inv) (hb : s.st = .busy) : s.Base where
  srcPos_le := h.srcPos_le
  binPos_le := h.binPos_le
  busy := hb
  no_fault := h.no_fault (by simp [hb])
  eof := by
    cases he : s.eofSeen
    · rfl
    · have := h.eof_done he; simp [hb] at this
  tree_weighted := h.tree_weighted
  ct_table := h.ct_table
  legal := h.par_legal

theorem State.Base.inv {s : State} (h : s.Base) (hs : s.seqOk) : s.Inv where
  srcPos_le := h.srcPos_le
  binPos_le := h.binPos_le
  pend_none := fun hn => absurd h.busy hn
  phase_idle := by simp [h.busy]
  phase_halt := by simp [h.busy]
  seq := fun _ => hs
  no_fault := fun _ => h.no_fault
  fault_flags := by simp [h.busy]
  idle_flags := by simp [h.busy]
  eof_done := by simp [h.eof]
  tree_weighted := h.tree_weighted
  ct_table := h.ct_table
  par_legal := h.legal

theorem inv_finish {s : State} (h1 : s.srcPos ≤ s.src.length) (h2 : s.binPos ≤ s.bin.length)
    (h3 : s.faultCause = 0 ∧ s.faultInfo = 0) (hl : s.par.legal = true) (h4 : s.treeValid = true → s.tree.weighted = true)
    (h5 : s.ctValid = true → s.ct = s.tree.table) : s.finish.Inv where
  srcPos_le := h1
  binPos_le := h2
  pend_none := fun _ => rfl
  phase_idle := by simp
  phase_halt := fun _ => rfl
  seq := by simp
  no_fault := fun _ => h3
  fault_flags := by simp
  idle_flags := by simp
  eof_done := fun _ => rfl
  tree_weighted := h4
  ct_table := h5
  par_legal := hl

theorem faultCause_code (F : FaultClass) (sub : Nat) :
    (BitVec.ofNat 8 (16 * sub + F.code)).toNat % 16 ∈ [1, 2, 3, 4, 5, 6] := by
  have : (BitVec.ofNat 8 (16 * sub + F.code)).toNat % 16 = F.code := by
    have : F.code < 16 := by cases F <;> decide
    simp; omega
  rw [this]; cases F <;> decide

theorem inv_raise {s : State} (h1 : s.srcPos ≤ s.src.length) (h2 : s.binPos ≤ s.bin.length)
    (hl : s.par.legal = true) (F : FaultClass) (sub info : Nat) : (raise F sub info s).Inv where
  srcPos_le := h1
  binPos_le := h2
  pend_none := fun _ => rfl
  phase_idle := by simp
  phase_halt := fun _ => rfl
  seq := by simp
  no_fault := by simp
  fault_flags := fun _ => ⟨faultCause_code F sub, rfl, rfl, rfl⟩
  idle_flags := by simp
  eof_done := by simp
  tree_weighted := by simp
  ct_table := by simp
  par_legal := hl

/-- After reset the invariant holds wherever the streams stand. -/
theorem inv_applyReset {s : State} (h1 : s.srcPos ≤ s.src.length) (h2 : s.binPos ≤ s.bin.length)
    (hl : s.par.legal = true) :
    (applyReset s).Inv where
  srcPos_le := h1
  binPos_le := h2
  pend_none := fun _ => rfl
  phase_idle := fun _ => rfl
  phase_halt := by simp [applyReset, State.reset]
  seq := by simp [applyReset, State.reset]
  no_fault := fun _ => ⟨rfl, rfl⟩
  fault_flags := by simp [applyReset, State.reset]
  idle_flags := fun _ => ⟨rfl, rfl, rfl⟩
  eof_done := by simp [applyReset, State.reset]
  tree_weighted := by simp [applyReset, State.reset]
  ct_table := by simp [applyReset, State.reset]
  par_legal := hl

/-! ### Starts and ends of the units -/

theorem inv_raise_pre {s : State} (h : s.Pre) (F : FaultClass) (sub info : Nat) : (raise F sub info s).Inv :=
  inv_raise h.srcPos_le h.binPos_le h.legal F sub info

theorem inv_fcntStart {s : State} (h : s.Pre) (hc : s.running [0x3, opEncode]) : (fcntStart s).Inv :=
  State.Base.inv ⟨h.1, h.2, h.3, h.4, rfl, h.5, h.6, h.7⟩ ⟨rfl, hc, rfl⟩

theorem inv_tbldStart {s : State} (h : s.Pre) (hc : s.running [0x4, opEncode]) : (tbldStart s).Inv := by
  unfold tbldStart beginUnit
  split
  · rename_i hr
    exact State.Base.inv ⟨h.1, h.2, h.3, h.4, rfl, by simp [flagsAtStart], by simp [flagsAtStart], h.7⟩
      ⟨rfl, hc, hr, rfl, rfl⟩
  · exact inv_raise_pre h _ _ _

theorem inv_ctdrStart {s : State} (h : s.Pre) (hc : s.running [0x5, opEncode]) : (ctdrStart s).Inv := by
  unfold ctdrStart beginUnit
  split
  · rename_i hr
    exact State.Base.inv ⟨h.1, h.2, h.3, h.4, rfl, h.5, by simp [flagsAtStart], h.7⟩ ⟨rfl, hc, hr, rfl⟩
  · exact inv_raise_pre h _ _ _

theorem inv_sencStart {s : State} (h : s.Pre) (hc : s.running [0x8, opEncode]) : (sencStart s).Inv := by
  unfold sencStart beginUnit
  split
  · rename_i hr
    rw [requires, Bool.and_eq_true] at hr
    exact State.Base.inv ⟨h.1, h.2, h.3, h.4, rfl, h.5, h.6, h.7⟩ ⟨rfl, hc, hr⟩
  · exact inv_raise_pre h _ _ _

theorem inv_mchkStart {s : State} (h : s.Pre) (hc : s.running [0xA, opDecode]) : (mchkStart s).Inv :=
  State.Base.inv ⟨h.1, h.2, h.3, h.4, rfl, h.5, h.6, h.7⟩ ⟨rfl, hc⟩

theorem inv_tdesStart {s : State} (h : s.Pre) (hc : s.running [0x7, opDecode]) : (tdesStart s).Inv :=
  State.Base.inv (s := { flagsAtStart .tdes s with
      phase := .tdWalk, nnodes := 0, stk := [], pend := some .binReadBit })
    ⟨h.1, h.2, h.3, h.4, rfl, by simp [flagsAtStart], by simp [flagsAtStart], h.7⟩ ⟨.inl rfl, by simp, hc, rfl, rfl⟩

theorem inv_sdecOuter {s : State} (h : s.Base) (hc : s.running [0x9, opDecode]) (ht : s.treeValid = true) :
    (sdecOuter s).Inv :=
  State.Base.inv ⟨h.1, h.2, h.3, h.4, h.5, h.6, h.7, h.8⟩ ⟨rfl, hc, ht⟩

theorem inv_sdecStart {s : State} (h : s.Pre) (hc : s.running [0x9, opDecode]) : (sdecStart s).Inv := by
  unfold sdecStart beginUnit
  split
  · rename_i hr
    exact inv_sdecOuter ⟨h.1, h.2, h.3, h.4, rfl, h.5, h.6, h.7⟩ hc hr
  · exact inv_raise_pre h _ _ _

theorem inv_emitTree {s : State} (h : s.Base) (ht : s.treeValid = true)
    (hc : s.running [0x6] ∨ (s.running [0x8, opEncode] ∧ s.tablesReady)) : (emitTree s).Inv := by
  unfold emitTree
  split <;>
    exact State.Base.inv ⟨h.1, h.2, h.3, h.4, h.5, h.6, h.7, h.8⟩
      ⟨.inl ⟨_, rfl⟩, by simp [StkEntry.isWrite], ht, hc⟩

theorem inv_tserStart {s : State} (h : s.Pre) (hc : s.running [0x6]) : (tserStart s).Inv := by
  unfold tserStart beginUnit
  split
  · rename_i hr
    exact inv_emitTree ⟨h.1, h.2, h.3, h.4, rfl, h.5, h.6, h.7⟩ hr (.inl hc)
  · exact inv_raise_pre h _ _ _

theorem inv_sencRead {s : State} (h : s.Base) (hc : s.running [0x8, opEncode]) (ht : s.tablesReady) :
    (sencRead s).Inv :=
  State.Base.inv ⟨h.1, h.2, h.3, h.4, h.5, h.6, h.7, h.8⟩ ⟨hc, ht, .inl rfl⟩

theorem inv_sencEnd {s : State} (h : s.Base) : (sencEnd s).Inv :=
  inv_finish h.1 h.2 h.4 h.8 (by simp [flagsOnSuccess]) (by simp [flagsOnSuccess])

theorem inv_tserEnd {s : State} (h : s.Base)
    (hc : s.running [0x6] ∨ (s.running [0x8, opEncode] ∧ s.tablesReady)) : (tserEnd s).Inv := by
  unfold tserEnd
  split
  · exact inv_finish h.1 h.2 h.4 h.8 h.6 h.7
  · rename_i hn
    rcases hc with hc | hc
    · simp [State.running] at hc; exact absurd hc hn
    · exact State.Base.inv ⟨h.1, h.2, h.3, h.4, h.5, h.6, h.7, h.8⟩ ⟨rfl, hc⟩

theorem inv_ctdrEnd {s : State} (h : s.Base) (hct : s.ct = s.tree.table) : (ctdrEnd s).Inv := by
  unfold ctdrEnd endUnit
  split
  · rename_i he
    exact inv_sencStart ⟨h.1, h.2, h.3, h.4, h.6, fun _ => hct, h.8⟩
      (by simp [State.running, flagsOnSuccess, he])
  · exact inv_finish h.1 h.2 h.4 h.8 h.6 fun _ => hct

theorem inv_ctdrWalk {s : State} (h : s.Base) :
    (ctdrWalk s).Inv :=
  inv_ctdrEnd (s := { s with
      ct := (walk s.tree [] { ct := Vector.replicate 257 none, path := [] }).ct
      path := (walk s.tree [] { ct := Vector.replicate 257 none, path := [] }).path, stk := [] })
    ⟨h.1, h.2, h.3, h.4, h.5, h.6, fun _ => walk_table _ _, h.8⟩ (walk_table _ _)

theorem inv_tbldEnd {s : State} (h : s.Base) (hw : s.tree.weighted = true)
    (hcv : s.ctValid = false) : (tbldEnd s).Inv := by
  unfold tbldEnd endUnit
  split
  · rename_i he
    exact inv_ctdrStart ⟨h.1, h.2, h.3, h.4, fun _ => hw, by simp [flagsOnSuccess, hcv], h.8⟩
      (by simp [State.running, flagsOnSuccess, he])
  · exact inv_finish h.1 h.2 h.4 h.8 (fun _ => hw) (by simp [flagsOnSuccess, hcv])

end Sys2Proof.Machine
end

