-- ==== Sys2Proof/Laws/PerInstr.lean ====
section
/-! SUPPORT. Statements made instruction by instruction. Family `TableWord`: the word of the opcode table that a
well-formed instruction's encoding spells, in the table's numbering of bits, decodes to the instruction. -/

namespace Sys2Proof.Laws.TableWord

open Sys2Proof Sys2Proof.Machine

/-- The bits of an instruction's row, in whole bytes. -/
def width : Space → Instr → Nat
  | .node, i => if (encode Config.magic i).length ≤ 8 then 8 else 16
  | _, _ => 32

/-- The row's word, read from the instruction's encoding, decodes to the instruction. -/
def Statement (i : Instr) : Prop :=
  i.wf = true → decodeTableWord (width i.space i) (ofBits (encode Config.magic i)) = some i

theorem encode : Statement .encode := by unfold Statement; decide

theorem decode : Statement .decode := by unfold Statement; decide

theorem fcnt : Statement .fcnt := by unfold Statement; decide

theorem tbld : Statement .tbld := by unfold Statement; decide

theorem ctdr : Statement .ctdr := by unfold Statement; decide

theorem tser : Statement .tser := by unfold Statement; decide

theorem tdes : Statement .tdes := by unfold Statement; decide

theorem senc : Statement .senc := by unfold Statement; decide

theorem sdec : Statement .sdec := by unfold Statement; decide

theorem mchk : Statement .mchk := by unfold Statement; decide

theorem reserved0 : Statement .reserved0 := by unfold Statement; decide

theorem reservedB : Statement .reservedB := by unfold Statement; decide

theorem reservedC : Statement .reservedC := by unfold Statement; decide

theorem reservedD : Statement .reservedD := by unfold Statement; decide

theorem reservedE : Statement .reservedE := by unfold Statement; decide

theorem reservedF : Statement .reservedF := by unfold Statement; decide

theorem fileMagic : Statement .fileMagic := by unfold Statement; decide

theorem fileNodeInternal : Statement .fileNodeInternal := by unfold Statement; decide

/-- Every symbol value the format uses (R74, R77). -/
theorem fileNodeLeaf (v : BitVec 9) : Statement (.fileNodeLeaf v) := by
  intro h
  have hv : v.toNat < 2 ^ 9 := v.isLt
  have h9 : v.toNat ≤ 256 := by simpa [Instr.wf, symbolFieldOk] using h
  have ho : ofBits (false :: toBits 9 v.toNat) = v.toNat := by
    have : ofBits (false :: toBits 9 v.toNat) = ofBits (toBits 9 v.toNat) := rfl
    rw [this, ofBits_toBits hv]
  have ht : toBits 10 v.toNat = false :: toBits 9 v.toNat := by
    have : v.toNat.testBit 9 = false := Nat.testBit_lt_two_pow hv
    simp [toBits, this]
  have hd : Sys2Proof.decode Config.magic .node (toBits 10 v.toNat) = .ok (.fileNodeLeaf v, []) := by
    have hl : (toBits 9 v.toNat).length = 9 := by simp
    rw [ht]
    simp only [Sys2Proof.decode, decodeNode, hl, List.take_of_length_le hl.le, ofBits_toBits hv,
      List.drop_of_length_le hl.le]
    simp [h9]
  have hw : width .node (.fileNodeLeaf v) = 16 := by simp [width, Sys2Proof.encode]
  show decodeTableWord (width .node (.fileNodeLeaf v)) (ofBits (false :: toBits 9 v.toNat)) = _
  rw [ho, hw]
  simp only [decodeTableWord, hd]
  rw [if_pos (by omega)]

end Sys2Proof.Laws.TableWord
end

