-- ==== Sys2Proof/Laws/Progress.lean ====
section
/-! SUPPORT. Every answered transaction and every internal update of a state of the invariant gives a state of the
invariant, or is refused because W is finite (R26, R41, U3). -/

namespace Sys2Proof.Machine

/-! ### The result of each transaction -/

theorem perform_srcRead_fst (s : State) : ∃ y, (perform .srcRead s).1 = .byte y := by
  simp only [perform, srcRead]; split <;> exact ⟨_, rfl⟩

theorem perform_binReadBit_fst (s : State) : ∃ y, (perform .binReadBit s).1 = .bit y := by
  simp only [perform, binReadBit]; split <;> exact ⟨_, rfl⟩

theorem perform_binReadBits_fst (s : State) (n : Nat) : ∃ y, (perform (.binReadBits n) s).1 = .nat y := by
  simp only [perform, binReadBits]; split <;> exact ⟨_, rfl⟩

/-- After a transaction the command stands as before, but for the streams. -/
theorem base_perform {s : State} (h : s.Base) (t : Txn) : (perform t s).2.answered.Base := by
  have p := perform_streamsOnly t s
  have hb := p.binPos h.binPos_le
  refine ⟨p.srcPos h.srcPos_le, hb.2, ?_, ?_, ?_, ?_, ?_, (congrArg _ p.par).trans h.legal⟩
  · exact p.st.trans h.busy
  · exact ⟨p.faultCause.trans h.no_fault.1, p.faultInfo.trans h.no_fault.2⟩
  · exact p.eofSeen.trans h.eof
  · intro hv
    have e : (perform t s).2.tree = s.tree := congrArg Tables.tree p.tables
    rw [State.answered_tree, e]
    exact h.tree_weighted (p.treeValid ▸ hv)
  · intro hv
    have e : (perform t s).2.tree = s.tree := congrArg Tables.tree p.tables
    have e' : (perform t s).2.ct = s.ct := congrArg Tables.ct p.tables
    rw [State.answered_tree, State.answered_ct, e, e']
    exact h.ct_table (p.ctValid ▸ hv)

/-! ### The units -/

theorem inv_fcntGot {s : State} (h : s.Base) (hp : s.phase = .fcScan) (hc : s.running [0x3, opEncode])
    (hf : s.ftValid = false) (y : Read Byte) : Keeps State.Inv s.par.width (fcntGot y s) := by
  cases y with
  | val x =>
    unfold fcntGot
    dsimp only
    split
    · refine .next (State.Base.inv (s := { s with r := .val x, ft := ftIncr s.ft x, pend := some .srcRead })
        ⟨h.1, h.2, h.3, h.4, h.5, h.6, h.7, h.8⟩ ?_)
      simp only [State.seqOk, hp]
      exact ⟨trivial, hc, hf⟩
    · exact .inr ⟨rfl, width_ne_none ‹_›⟩
  | END =>
    refine .next (t := endUnit .fcnt opEncode tbldStart { s with r := .END }) ?_
    unfold endUnit
    split
    · rename_i he
      exact inv_tbldStart ⟨h.1, h.2, h.3, h.4, h.6, h.7, h.8⟩ (by
        have : s.cmd = opEncode := he
        simp [State.running, flagsOnSuccess, this])
    · exact inv_finish h.1 h.2 h.4 h.8 h.6 h.7

theorem inv_tserNext {s : State} (h : s.Base) (hp : s.phase = .tsWalk) (hk : ∀ e ∈ s.stk, e.isWrite = true)
    (ht : s.treeValid = true) (hc : s.running [0x6] ∨ (s.running [0x8, opEncode] ∧ s.tablesReady)) :
    ∃ t, tserNext s = .next t ∧ t.Inv := by
  unfold tserNext
  split
  · exact ⟨_, rfl, inv_tserEnd h hc⟩
  · rename_i sym w rest e
    refine ⟨_, rfl, State.Base.inv ⟨h.1, h.2, h.3, h.4, h.5, h.6, h.7, h.8⟩ ?_⟩
    rw [e] at hk
    simp only [State.seqOk, State.issue_phase, hp]
    refine ⟨.inl ⟨_, rfl⟩, ?_, ht, hc⟩
    simp only [State.issue_stk, List.mem_cons, forall_eq_or_imp]
    exact ⟨rfl, fun e he => hk e (by simp [he])⟩
  · rename_i l r w rest e
    refine ⟨_, rfl, State.Base.inv ⟨h.1, h.2, h.3, h.4, h.5, h.6, h.7, h.8⟩ ?_⟩
    rw [e] at hk
    simp only [State.seqOk, State.issue_phase, hp]
    refine ⟨.inl ⟨_, rfl⟩, ?_, ht, hc⟩
    simp only [State.issue_stk, List.mem_cons, forall_eq_or_imp]
    exact ⟨rfl, rfl, fun e he => hk e (by simp [he])⟩
  · rename_i sym rest e
    refine ⟨_, rfl, State.Base.inv ⟨h.1, h.2, h.3, h.4, h.5, h.6, h.7, h.8⟩ ?_⟩
    rw [e] at hk
    simp only [State.seqOk, State.issue_phase, hp]
    refine ⟨.inr ⟨sym.val, by omega, rfl⟩, ?_, ht, hc⟩
    exact fun e he => hk e (by simp at he; simp [he])
  · rename_i e
    rw [e] at hk
    exact absurd (hk _ (List.mem_cons_self ..)) (by simp [StkEntry.isWrite])
  · rename_i e
    rw [e] at hk
    exact absurd (hk _ (List.mem_cons_self ..)) (by simp [StkEntry.isWrite])

theorem inv_putBit_byte {s : State} (h : s.Base) (hp : s.phase = .sePayload) (hc : s.running [0x8, opEncode])
    (ht : s.tablesReady) {x : Byte} {code : Code} (hr : s.r = .val x)
    (hx : ctAt s.ct (symbolOfByte x) = some code) (k : Nat) : (putBit code sencRead k s).Inv := by
  unfold putBit
  split
  · rename_i b hb
    refine State.Base.inv ⟨h.1, h.2, h.3, h.4, h.5, h.6, h.7, h.8⟩ ?_
    simp only [State.seqOk, hp]
    exact ⟨hc, ht, .inr ⟨x, code, b, hr, hx, hb, rfl⟩⟩
  · exact inv_sencRead ⟨h.1, h.2, h.3, h.4, h.5, h.6, h.7, h.8⟩ hc ht

theorem inv_putBit_eof {s : State} (h : s.Base) (hp : s.phase = .seEofcode) (hc : s.running [0x8, opEncode])
    (ht : s.tablesReady) {code : Code} (hx : ctAt s.ct eofSym = some code) (k : Nat) :
    (putBit code sencEnd k s).Inv := by
  unfold putBit
  split
  · rename_i b hb
    refine State.Base.inv ⟨h.1, h.2, h.3, h.4, h.5, h.6, h.7, h.8⟩ ?_
    simp only [State.seqOk, hp]
    exact ⟨hc, ht, ⟨code, b, hx, hb, rfl⟩⟩
  · exact inv_sencEnd ⟨h.1, h.2, h.3, h.4, h.5, h.6, h.7, h.8⟩

theorem inv_sencGot {s : State} (h : s.Base) (hp : s.phase = .sePayload) (hc : s.running [0x8, opEncode])
    (ht : s.tablesReady) (y : Read Byte) : (sencGot y s).Inv := by
  cases y with
  | val x =>
    show (put (symbolOfByte x) sencRead { s with r := .val x }).Inv
    unfold put
    split
    · exact inv_raise h.1 h.2 h.8 _ _ _
    · rename_i code hx
      exact inv_putBit_byte (s := { s with r := .val x }) ⟨h.1, h.2, h.3, h.4, h.5, h.6, h.7, h.8⟩ hp hc ht rfl hx 0
  | END =>
    show (put eofSym sencEnd { s with r := .END, phase := .seEofcode }).Inv
    unfold put
    split
    · exact inv_raise h.1 h.2 h.8 _ _ _
    · rename_i code hx
      exact inv_putBit_eof (s := { s with r := .END, phase := .seEofcode })
        ⟨h.1, h.2, h.3, h.4, h.5, h.6, h.7, h.8⟩ rfl hc ht hx 0

theorem inv_tdesEnd {s : State} (h : s.Base) (hw : s.tree.weighted = true) (hv : s.ctValid = false) :
    (tdesEnd s).Inv := by
  unfold tdesEnd endUnit
  split
  · rename_i he
    exact inv_sdecStart ⟨h.1, h.2, h.3, h.4, fun _ => hw, by simp [flagsOnSuccess, hv], h.8⟩ (by
      simp [State.running, flagsOnSuccess, he])
  · exact inv_finish h.1 h.2 h.4 h.8 (fun _ => hw) (by simp [flagsOnSuccess, hv])

theorem inv_tdesReturn (stk : List StkEntry) {t : Tree} {s : State} (h : s.Base) (hp : s.phase = .tdWalk)
    (hk : ∀ e ∈ stk, e.isParse = true) (hc : s.running [0x7, opDecode]) (hv : s.noTree)
    (hw : t.weighted = true) : ∃ u, tdesReturn t stk s = .next u ∧ u.Inv := by
  induction stk generalizing t with
  | nil => exact ⟨_, rfl, inv_tdesEnd ⟨h.1, h.2, h.3, h.4, h.5, fun _ => hw, by simp [hv.2], h.8⟩ hw hv.2⟩
  | cons e rest ih =>
    have hr : ∀ e ∈ rest, e.isParse = true := fun e he => hk e (by simp [he])
    cases e with
    | sub _ => exact absurd (hk _ (List.mem_cons_self ..)) (by simp [StkEntry.isParse])
    | sym _ => exact absurd (hk _ (List.mem_cons_self ..)) (by simp [StkEntry.isParse])
    | needLeft =>
      refine ⟨_, rfl, State.Base.inv ⟨h.1, h.2, h.3, h.4, h.5, h.6, h.7, h.8⟩ ?_⟩
      simp only [State.seqOk, State.issue_phase, hp]
      refine ⟨.inl rfl, ?_, hc, hv⟩
      simp only [State.issue_stk, List.mem_cons, forall_eq_or_imp]
      exact ⟨hw, hr⟩
    | needRight l =>
      have hl : l.weighted = true := hk _ (List.mem_cons_self ..)
      exact ih hr (by simp [Tree.weighted, hl, hw])

theorem inv_tdesMarker {s : State} (h : s.Base) (hp : s.phase = .tdWalk)
    (hk : ∀ e ∈ s.stk, e.isParse = true) (hc : s.running [0x7, opDecode]) (hv : s.noTree) (y : Read Bit) :
    (tdesMarker y s).Inv := by
  cases y with
  | END => exact inv_raise h.1 h.2 h.8 _ _ _
  | val b =>
    simp only [tdesMarker]
    split
    · exact inv_raise h.1 h.2 h.8 _ _ _
    · split
      · refine State.Base.inv ⟨h.1, h.2, h.3, h.4, h.5, h.6, h.7, h.8⟩ ?_
        simp only [State.seqOk, State.issue_phase, hp]
        refine ⟨.inl rfl, ?_, hc, hv⟩
        simp only [State.issue_stk, List.mem_cons, forall_eq_or_imp]
        exact ⟨rfl, hk⟩
      · refine State.Base.inv ⟨h.1, h.2, h.3, h.4, h.5, h.6, h.7, h.8⟩ ?_
        simp only [State.seqOk, State.issue_phase, hp]
        exact ⟨.inr rfl, hk, hc, hv⟩

theorem inv_tdesSymbol {s : State} (h : s.Base) (hp : s.phase = .tdWalk)
    (hk : ∀ e ∈ s.stk, e.isParse = true) (hc : s.running [0x7, opDecode]) (hv : s.noTree) (y : Read Nat) :
    ∃ t, tdesSymbol y s = .next t ∧ t.Inv := by
  cases y with
  | END => exact ⟨_, rfl, inv_raise h.1 h.2 h.8 _ _ _⟩
  | val v =>
    simp only [tdesSymbol]
    split
    · exact ⟨_, rfl, inv_raise h.1 h.2 h.8 _ _ _⟩
    · exact inv_tdesReturn s.stk (s := { s with v := .val v }) ⟨h.1, h.2, h.3, h.4, h.5, h.6, h.7, h.8⟩ hp hk hc hv rfl

theorem inv_sdecEnd {s : State} (h1 : s.srcPos ≤ s.src.length) (h2 : s.binPos ≤ s.bin.length)
    (h3 : s.faultCause = 0 ∧ s.faultInfo = 0) (hl : s.par.legal = true) (h4 : s.ctValid = true → s.ct = s.tree.table) :
    (sdecEnd s).Inv :=
  inv_finish h1 h2 h3 hl (by simp [flagsOnSuccess]) h4

theorem inv_sdecWalk {s : State} (h : s.Base) (hp : s.phase = .sdWalk) (hc : s.running [0x9, opDecode])
    (ht : s.treeValid = true) : (sdecWalk s).Inv := by
  unfold sdecWalk
  split
  · rename_i l r w e
    refine State.Base.inv ⟨h.1, h.2, h.3, h.4, h.5, h.6, h.7, h.8⟩ ?_
    simp only [State.seqOk, State.issue_phase, hp]
    exact ⟨hc, ht, .inl ⟨rfl, l, r, w, e⟩⟩
  · rename_i sym w e
    split
    · exact inv_sdecEnd h.1 h.2 h.4 h.8 h.7
    · rename_i hn
      refine State.Base.inv ⟨h.1, h.2, h.3, h.4, h.5, h.6, h.7, h.8⟩ ?_
      simp only [State.seqOk, State.issue_phase, hp]
      exact ⟨hc, ht, .inr ⟨sym, w, e, hn, rfl⟩⟩

theorem inv_sdecMore {s : State} (h : s.Base) (hc : s.running [0x9, opDecode]) (ht : s.treeValid = true)
    (more : Bool) : (sdecMore more s).Inv := by
  unfold sdecMore
  split
  · exact inv_sdecWalk ⟨h.1, h.2, h.3, h.4, h.5, h.6, h.7, h.8⟩ rfl hc ht
  · exact inv_sdecEnd h.1 h.2 h.4 h.8 h.7

theorem inv_sdecGot {s : State} (h : s.Base) (hp : s.phase = .sdWalk) (hc : s.running [0x9, opDecode])
    (ht : s.treeValid = true) (hi : ∃ l r w, s.cur = .internal l r w) (y : Read Bit) :
    ∃ t, sdecGot y s = .next t ∧ t.Inv := by
  obtain ⟨l, r, w, e⟩ := hi
  cases y with
  | END => exact ⟨_, rfl, inv_raise h.1 h.2 h.8 _ _ _⟩
  | val b =>
    simp only [sdecGot, e]
    exact ⟨_, rfl, inv_sdecWalk ⟨h.1, h.2, h.3, h.4, h.5, h.6, h.7, h.8⟩ hp hc ht⟩

theorem inv_mchkGot {s : State} (h : s.Base) (y : Read Nat) : (mchkGot y s).Inv := by
  cases y with
  | END => exact inv_raise h.1 h.2 h.8 _ _ _
  | val v =>
    simp only [mchkGot]
    split
    · unfold mchkEnd endUnit
      split
      · rename_i he
        exact inv_tdesStart ⟨h.1, h.2, h.3, h.4, h.6, h.7, h.8⟩ (by simp [State.running, flagsOnSuccess, he])
      · exact inv_finish h.1 h.2 h.4 h.8 h.6 h.7
    · exact inv_raise h.1 h.2 h.8 _ _ _

/-! ### Transactions and internal updates -/

/-- The invariant reads none of the model's own queues. -/
theorem State.Inv.congr {s : State} (h : s.Inv) (as : List Answer) (hs : List HostAct) :
    State.Inv { s with answers := as, host := hs } :=
  ⟨h.1, h.2, h.3, h.4, h.5, h.6, h.7, h.8, h.9, h.10, h.11, h.12, h.13⟩

/-- What follows from a state of the invariant: another one with the same parameters, or U3's refusal. -/
def KeepsInv (s : State) (o : Out) : Prop := Keeps (fun t => t.Inv ∧ t.par = s.par) s.par.width o

/-- An answered transaction of a running command leads on (R26, R41). -/
theorem inv_deliver {s : State} (h : s.Inv) (hb : s.st = .busy) {t : Txn} (hp : s.pend = some t) :
    KeepsInv s (deliver (perform t s).1 (perform t s).2.answered) := by
  have p := perform_streamsOnly t s
  have hd := insideOut_deliver (perform t s).1
  refine Keeps.imp (P := State.Inv) ?_ fun u hu hI => ⟨hI, (hd.par _ _ hu).trans p.par⟩
  have hB := base_perform (h.base hb) t
  have hs := h.seq hb
  have et : ∀ {α : Type} (f : Tables → α), f (perform t s).2.toTables = f s.toTables :=
    fun f => congrArg f p.tables
  have ep : (perform t s).2.answered.phase = s.phase := p.phase
  have er : ∀ ops, s.running ops → (perform t s).2.answered.running ops := fun ops hr => by
    simpa [State.running, p.cmd] using hr
  have ev : s.treeValid = true → (perform t s).2.answered.treeValid = true := fun hv => p.treeValid.trans hv
  have eready : s.tablesReady → (perform t s).2.answered.tablesReady := fun hv =>
    ⟨p.treeValid.trans hv.1, p.ctValid.trans hv.2⟩
  have enot : s.noTree → (perform t s).2.answered.noTree := fun hv =>
    ⟨p.treeValid.trans hv.1, p.ctValid.trans hv.2⟩
  have estk : (perform t s).2.answered.stk = s.stk := et Tables.stk
  have ect : (perform t s).2.answered.ct = s.ct := et Tables.ct
  have err : (perform t s).2.answered.r = s.r := et Tables.r
  have ecur : (perform t s).2.answered.cur = s.cur := et Tables.cur
  unfold State.seqOk at hs
  unfold deliver
  rw [ep]
  cases hph : s.phase <;> rw [hph] at hs <;> simp only at hs
  case fcScan =>
    obtain ⟨h1, h2, h3⟩ := hs
    obtain rfl : t = .srcRead := by simpa [hp] using h1
    obtain ⟨y, hy⟩ := perform_srcRead_fst s
    rw [hy]
    have := inv_fcntGot hB (ep.trans hph) (er _ h2) (p.ftValid.trans h3) y
    rwa [State.answered_par, p.par] at this
  case tbInit => simp [hp] at hs
  case tbMerge => simp [hp] at hs
  case cdWalk => simp [hp] at hs
  case seMagic =>
    obtain ⟨h1, h2, h3⟩ := hs
    obtain rfl : t = _ := by simpa [hp] using h1
    exact .next (inv_emitTree hB (ev h3.1) (.inr ⟨er _ h2, eready h3⟩))
  case tsWalk =>
    obtain ⟨h1, h2, h3, h4⟩ := hs
    have hd : (perform t s).1 = .done := by
      rcases h1 with ⟨b, h1⟩ | ⟨v, -, h1⟩ <;> (obtain rfl : t = _ := by simpa [hp] using h1) <;> rfl
    rw [hd]
    exact .inl <| inv_tserNext hB (ep.trans hph) (by rw [estk]; exact h2) (ev h3)
      (h4.imp (er _) fun h => ⟨er _ h.1, eready h.2⟩)
  case seRewind =>
    obtain ⟨h1, h2, h3⟩ := hs
    obtain rfl : t = _ := by simpa [hp] using h1
    exact .next (inv_sencRead hB (er _ h2) (eready h3))
  case sePayload =>
    obtain ⟨h1, h2, h3 | ⟨x, code, b, h3, h4, h5, h6⟩⟩ := hs
    · obtain rfl : t = _ := by simpa [hp] using h3
      obtain ⟨y, hy⟩ := perform_srcRead_fst s
      rw [hy]
      exact .next (inv_sencGot hB (ep.trans hph) (er _ h1) (eready h2) y)
    · obtain rfl : t = _ := by simpa [hp] using h6
      have hr : s.r = .val x := h3
      have hx : ctAt s.ct (symbolOfByte x) = some code := h4
      simp only [perform_boutWriteBit, sencWrote, putNext, State.answered_r, State.answered_ct, hr, hx]
      exact .next (inv_putBit_byte hB (ep.trans hph) (er _ h1) (eready h2) hr hx _)
  case seEofcode =>
    obtain ⟨h1, h2, code, b, h4, h5, h6⟩ := hs
    obtain rfl : t = _ := by simpa [hp] using h6
    have hx : ctAt s.ct eofSym = some code := h4
    simp only [perform_boutWriteBit, sencWroteEof, putNext, State.answered_ct, hx]
    exact .next (inv_putBit_eof hB (ep.trans hph) (er _ h1) (eready h2) hx _)
  case mgCheck =>
    obtain ⟨h1, h2⟩ := hs
    obtain rfl : t = _ := by simpa [hp] using h1
    obtain ⟨y, hy⟩ := perform_binReadBits_fst s 32
    rw [hy]
    exact .next (inv_mchkGot hB y)
  case tdWalk =>
    obtain ⟨h1 | h1, h2, h3, h4⟩ := hs
    · obtain rfl : t = _ := by simpa [hp] using h1
      obtain ⟨y, hy⟩ := perform_binReadBit_fst s
      rw [hy]
      exact .next (inv_tdesMarker hB (ep.trans hph) (by rw [estk]; exact h2) (er _ h3) (enot h4) y)
    · obtain rfl : t = _ := by simpa [hp] using h1
      obtain ⟨y, hy⟩ := perform_binReadBits_fst s 9
      rw [hy]
      exact .inl <| inv_tdesSymbol hB (ep.trans hph) (by rw [estk]; exact h2) (er _ h3) (enot h4) y
  case sdOuter =>
    obtain ⟨h1, h2, h3⟩ := hs
    obtain rfl : t = _ := by simpa [hp] using h1
    exact .next (inv_sdecMore hB (er _ h2) (ev h3) _)
  case sdWalk =>
    obtain ⟨h1, h2, ⟨h3, h4⟩ | ⟨sym, w, h3, h4, h5⟩⟩ := hs
    · obtain rfl : t = _ := by simpa [hp] using h3
      obtain ⟨y, hy⟩ := perform_binReadBit_fst s
      rw [hy]
      exact .inl <| inv_sdecGot hB (ep.trans hph) (er _ h1) (ev h2) (by rw [ecur]; exact h4) y
    · obtain rfl : t = _ := by simpa [hp] using h5
      exact .next (inv_sdecOuter hB (er _ h1) (ev h2))

theorem inv_internal {s : State} (h : s.Inv) : KeepsInv s (internal s) := by
  refine Keeps.imp (P := State.Inv) ?_ fun u hu hI => ⟨hI, insideOut_internal.par _ _ hu⟩
  unfold internal
  split
  · rename_i hb
    have hB := h.base hb.1
    have hs := h.seq hb.1
    unfold State.seqOk at hs
    split <;> rename_i hph <;> (try rw [hph] at hs) <;> (try simp only at hs)
    · obtain ⟨h1, h2, h3, h4⟩ := hs
      obtain ⟨g1, g2, -, -⟩ := init_spec s.ft s.builder
      refine .next (State.Base.inv ⟨hB.1, hB.2, hB.3, hB.4, hB.5, hB.6, hB.7, hB.8⟩
        ⟨h1, h2, h3, h4, ?_, g1⟩)
      intro e
      have e' : (s.builder.init s.ft).q = [] := e
      rw [e'] at g2; simp at g2
    · obtain ⟨h1, h2, h3, h4, h5, h6⟩ := hs
      obtain ⟨e, g1, -, g3, -, -⟩ := merge_spec s.q.length s.builder h6 h5 (Nat.le_succ _)
      simp only [tbldMerge, g1]
      split
      · refine .next (inv_tbldEnd ⟨hB.1, hB.2, hB.3, hB.4, hB.5, fun _ => g3, ?_, hB.8⟩ g3 h4.2)
        intro hv; rw [State.withBuilder] at hv; simp [h4.2] at hv
      · exact .inr ⟨rfl, width_ne_none ‹_›⟩
    · exact .next (inv_ctdrWalk hB)
    · exact .next h
  · exact .next h

/-- A running command that has no internal update to make has a transaction outstanding. -/
theorem pend_of_rank {s : State} (h : s.Inv) (hb : s.st = .busy) (hr : rank s = 0) : ∃ t, s.pend = some t := by
  cases hp : s.pend with
  | some t => exact ⟨t, rfl⟩
  | none =>
    have hs := h.seq hb
    unfold State.seqOk at hs
    unfold rank at hr
    rw [if_pos ⟨hb, hp⟩] at hr
    cases hph : s.phase <;> rw [hph] at hs hr <;> simp [hp] at hs hr

theorem inv_transact {s : State} (fails : Bool) (h : s.Inv) (hb : s.st = .busy) (hr : rank s = 0) :
    KeepsInv s (transact fails s) := by
  obtain ⟨t, hp⟩ := pend_of_rank h hb hr
  cases fails with
  | true => rw [transact_fail hp]; exact .next ⟨inv_raise h.1 h.2 h.par_legal _ _ _, rfl⟩
  | false => rw [transact_ok hp]; exact inv_deliver h hb hp

theorem KeepsInv.trans {s u : State} {o : Out} (h : KeepsInv u o) (e : u.par = s.par) : KeepsInv s o := by
  unfold KeepsInv at *; rwa [e] at h

/-- A run of a state of the invariant keeps it, and the parameters; only a finite W can stop it (R41, U3). -/
theorem inv_run (as : List Answer) {s : State} (h : s.Inv) : KeepsInv s (run as s) :=
  run_keeps (P := fun t => t.Inv ∧ t.par = s.par) (fun _ hu => (inv_internal hu.1).trans hu.2)
    (fun _ f hu hb hr => (inv_transact f hu.1 hb hr).trans hu.2)
    (fun u as hu => ⟨hu.1.congr as u.host, hu.2⟩) as s ⟨h, rfl⟩

/-- So does one step of the block by itself (R9). -/
theorem inv_blockStep {s : State} (h : s.Inv) : KeepsInv s (blockStep s) := by
  have ht : ∀ fails as, s.internalDue ≠ true → s.st = .busy →
      KeepsInv s (transact fails { s with answers := as }) := fun fails as hd hb =>
    inv_transact fails (h.congr as s.host) hb (by
      by_contra hr
      refine hd ?_
      have hr : rank s ≠ 0 := hr
      unfold rank at hr
      split at hr
      · rename_i hbp
        simp only [State.internalDue, decide_eq_true_eq]
        refine ⟨hbp.1, hbp.2, ?_⟩
        split at hr <;> simp_all
      · exact absurd rfl hr)
  unfold blockStep
  split
  · split
    · exact inv_internal h
    · split
      · exact .next ⟨h, rfl⟩
      · exact .next ⟨h.congr _ s.host, rfl⟩
      · exact ht false _ ‹_› ‹_›
      · exact ht true _ ‹_› ‹_›
  · exact .next ⟨h, rfl⟩

end Sys2Proof.Machine
end

