-- ==== Sys2Proof/Tests/Slice0.lean ====
section
/-! SUPPORT. Tests: ill-formed terms, words written out bit by bit from 30_encoding.md, the vectors of
95_test_vectors.md (named by their ids), and for each statement with hypotheses a state that meets them. -/

namespace Sys2Proof.Tests

open Sys2Proof Sys2Proof.Machine

/-! ### Helpers -/

/-- Bits written as 0 and 1. -/
def bits (l : List Nat) : List Bit := l.map (· == 1)

/-- Bytes written as numbers. -/
def bytes (l : List Nat) : List Byte := l.map (BitVec.ofNat 8)

/-- After reset, with SRC and BIN supplied and `n` answers to come. -/
def ready (src : List Byte) (bin : List Bit) (n : Nat) : State :=
  { State.reset with src := src, bin := bin, answers := List.replicate n .ok }

/-- The outcome is a next state with this property. -/
def outIs (o : Out) (p : State → Bool) : Bool :=
  match o with
  | .next s => p s
  | .fault _ => false
  | .refused _ => false

theorem exists_of_outIs {o : Out} {p : State → Bool} (h : outIs o p = true) : ∃ t, o = .next t ∧ p t = true := by
  cases o with
  | next s => exact ⟨s, rfl, h⟩
  | fault r => cases h
  | refused r => cases h

/-- A command that ends in DONE. -/
def isDone (t : State) : Bool := decide (t.st = .done)

theorem exists_done {o : Out} (h : outIs o isDone = true) : ∃ t, o = .next t ∧ t.st = .done := by
  obtain ⟨t, h1, h2⟩ := exists_of_outIs h
  exact ⟨t, h1, by simpa [isDone] using h2⟩

/-- STATUS, FAULT_CAUSE and FAULT_INFO read as these. -/
def shows (status cause info : Nat) (s : State) : Bool :=
  (s.readReg 1).toNat == status && (s.readReg 2).toNat == cause && (s.readReg 3).toNat == info

/-- FT with these entries, zeros elsewhere. -/
def ftOf (l : List (Nat × Nat)) : Vector Nat 256 :=
  l.foldl (fun ft e => ft.set! e.1 e.2) (Vector.replicate 256 0)

/-- A leaf and an internal node, weights as TDES gives them. -/
def L (n : Nat) : Tree := .leaf (Fin.ofNat 257 n) 1

def N (l r : Tree) : Tree := .internal l r (l.weight + r.weight)

/-- T4's tree. -/
def t4 : Tree := N (N (L 256) (L 0x42)) (L 0x41)

/-- A state with this TREE, valid, and its CT, valid. -/
def withTree (t : Tree) (s : State) : State :=
  { s with tree := t, ct := t.table, treeValid := true, ctValid := true, st := .done, phase := .halt }

/-- The 32 magic bits. -/
def m : List Bit :=
  bits [0, 0, 0, 0, 0, 0, 0, 0, 0, 0, 0, 0, 0, 0, 0, 0, 0, 0, 0, 0, 0, 1, 1, 1, 0, 0, 1, 1, 0, 1, 1, 0]

/-- H3: the serialization of T4's tree. -/
def h3 : List Bit :=
  bits [1, 1, 0, 1, 0, 0, 0, 0, 0, 0, 0, 0, 0, 0, 0, 1, 0, 0, 0, 0, 1, 0, 0, 0, 0, 1, 0, 0, 0, 0, 0, 1]

set_option maxRecDepth 20000
set_option Elab.async false

/-! ### Well-formedness: one check, and the terms on either side of it -/

theorem test_wf_refuses_257 : (Instr.fileNodeLeaf 257).wf = false := by decide

theorem test_wf_refuses_511 : (Instr.fileNodeLeaf 511).wf = false := by decide

theorem test_wf_accepts_256 : (Instr.fileNodeLeaf 256).wf = true := by decide

/-! ### Words written out from the spec's encodings -/

theorem test_word_commands :
    decode 1846 .command (bits [0, 0, 0, 0, 0, 0, 0, 0, 0, 0, 0, 0, 0, 0, 0, 0, 0, 0, 0, 0, 0, 0, 0, 0, 0, 0, 0, 0, 1, 0, 1, 0])
      = .ok (.mchk, []) ∧
    decode 1846 .command (bits [1, 1, 1, 1, 1, 1, 1, 1, 1, 1, 1, 1, 1, 1, 1, 1, 1, 1, 1, 1, 1, 1, 1, 1, 0, 0, 0, 1, 0, 0, 1, 1])
      = .ok (.fcnt, []) := by decide

theorem test_word_table_commands :
    (List.range 16).map (decodeTableWord 32) =
      [some .reserved0, some .encode, some .decode, some .fcnt, some .tbld, some .ctdr, some .tser, some .tdes,
        some .senc, some .sdec, some .mchk, some .reservedB, some .reservedC, some .reservedD, some .reservedE,
        some .reservedF] := by decide

theorem test_word_magic : decode 1846 .magic m = .ok (.fileMagic, []) ∧ decodeTableWord 32 0x736 = some .fileMagic := by
  decide

theorem test_word_internal :
    decode 1846 .node (bits [1, 0]) = .ok (.fileNodeInternal, [false]) ∧ decodeTableWord 8 1 = some .fileNodeInternal := by
  decide

theorem test_word_leaf :
    decode 1846 .node (bits [0, 1, 0, 0, 0, 0, 0, 0, 0, 0]) = .ok (.fileNodeLeaf 256, []) ∧
    decode 1846 .node (bits [0, 0, 0, 1, 0, 0, 0, 0, 0, 1]) = .ok (.fileNodeLeaf 0x41, []) ∧
    decode 1846 .node (bits [0, 0, 1, 1, 1, 1, 1, 1, 1, 1]) = .ok (.fileNodeLeaf 0xFF, []) ∧
    decodeTableWord 16 256 = some (.fileNodeLeaf 256) := by decide

theorem test_word_leaf_reserved :
    decode 1846 .node (bits [0, 1, 0, 0, 0, 0, 0, 0, 0, 1]) = .error (.reservedSymbol 257) := by decide

/-- Every step runs the word placed for it, as the first instruction after reset. -/
theorem test_fetch_runs :
    outIs (step (State.reset.withFetchWord 32 0xB)) (shows 0x03 0x05 0xB) = true ∧
    outIs (step (State.reset.withFetchWord 32 0x736)) (shows 0x02 0 0) = true ∧
    outIs (step (State.reset.withFetchWord 8 1)) (fun s => decide (s.st = .busy) && decide (s.stk = [.needLeft])) = true ∧
    outIs (step (State.reset.withFetchWord 16 256)) (shows 0x0A 0 0) = true := by decide +kernel

/-! ### FCNT -/

theorem test_F2 :
    outIs (exec .fcnt (ready (bytes [0x41, 0x41, 0x41, 0x42]) [] 5)) (fun s =>
      shows 0x06 0 0 s && ftAt s.ft 0x41 == 3 && ftAt s.ft 0x42 == 1 && ftAt s.ft 0x40 == 0 && s.srcPos == 4 && s.answers == []) = true := by
  decide +kernel

theorem test_F8 :
    outIs (exec .fcnt { ready (bytes [0x41, 0x41, 0x41, 0x42]) [] 0 with answers := [.ok, .ok, .fail] }) (fun s =>
      shows 0x03 0x01 0 s && s.srcPos == 2) = true := by decide +kernel

/-! ### TBLD -/

theorem test_T7 :
    outIs (exec .tbld { ready [] [] 0 with
        ftValid := true, ft := ftOf [(0x61, 5), (0x62, 2), (0x63, 1), (0x64, 1), (0x72, 2)] }) (fun s =>
      shows 0x0A 0 0 s && s.seq == 11 && decide (s.tree.placeholder =
        N (L 0x61) (N (N (L 0x64) (L 0x62)) (N (L 0x72) (N (L 256) (L 0x63)))))) = true := by decide +kernel

/-! ### CTDR -/

theorem test_C10 :
    outIs (exec .ctdr { withTree (N (L 0x41) (N (L 0x41) (L 256))) State.reset with ctValid := false }) (fun s =>
      shows 0x1A 0 0 s && ctAt s.ct 0x41 == some (bits [1, 0]) && ctAt s.ct 256 == some (bits [1, 1]) &&
        ctAt s.ct 0x42 == none) = true := by decide +kernel

theorem test_C3 :
    outIs (exec .ctdr { withTree t4 State.reset with ctValid := false }) (fun s =>
      ctAt s.ct 0x41 == some (bits [1]) && ctAt s.ct 0x42 == some (bits [0, 1]) && ctAt s.ct 256 == some (bits [0, 0]))
      = true := by decide +kernel

/-! ### TSER, TDES -/

theorem test_H3 :
    outIs (exec .tser (withTree t4 (ready [] [] 8))) (fun s =>
      shows 0x1A 0 0 s && decide (s.bout = h3) && s.answers == []) = true := by decide +kernel

theorem test_H3_fails :
    outIs (exec .tser { withTree t4 (ready [] [] 8) with answers := [.ok, .fail] }) (fun s =>
      shows 0x03 0x21 0 s && decide (s.bout = bits [1])) = true := by decide +kernel

theorem test_H8 :
    outIs (exec .tdes (ready [] (h3 ++ bits [1, 1, 1, 0, 1, 0, 0]) 8)) (fun s =>
      shows 0x0A 0 0 s && decide (s.tree = t4) && s.binPos == 32 && s.answers == []) = true := by decide +kernel

theorem test_H16 :
    outIs (exec .tdes { ready [] (bits ([1, 1, 1] ++ List.replicate 40 0)) 100 with
        par := { Config.params with nodeCap := some 5 } }) (fun s => shows 0x03 0x33 5 s && s.binPos == 24) = true := by
  decide +kernel

/-! ### SENC, ENCODE -/

theorem test_E13 :
    outIs (exec .senc (withTree t4 (ready (bytes [0x41, 0x43]) [] 100))) (fun s =>
      shows 0x03 0x06 0x43 s && decide (s.bout = m ++ h3 ++ bits [1]) && s.srcPos == 2) = true := by decide +kernel

theorem test_E15 :
    outIs (exec .senc (withTree (N (L 0x41) (L 0x42)) (ready (bytes [0x41]) [] 100))) (fun s =>
      shows 0x03 0x06 256 s && decide (s.bout = m ++ bits [1, 0, 0, 0, 1, 0, 0, 0, 0, 0, 1, 0, 0, 0, 1, 0, 0, 0, 0, 1, 0]
        ++ bits [0])) = true := by decide +kernel

theorem test_E4 :
    outIs (exec .encode (ready (bytes [0x41, 0x41, 0x41, 0x42]) [] 27)) (fun s =>
      shows 0x02 0 0 s && decide (s.bout = m ++ h3 ++ bits [1, 1, 1, 0, 1, 0, 0]) && s.srcPos == 4 && s.answers == [])
      = true := by decide +kernel

theorem test_E19 :
    outIs (exec .encode { ready (bytes [0x41, 0x41, 0x41, 0x42]) [] 100 with srcPos := 3 }) (fun s =>
      shows 0x03 0x06 0x41 s && decide (s.bout = m ++
        bits [1, 0, 1, 0, 0, 0, 0, 0, 0, 0, 0, 0, 0, 0, 1, 0, 0, 0, 0, 1, 0])) = true := by decide +kernel

/-! ### MCHK, SDEC, DECODE -/

theorem test_mchk :
    outIs (exec .mchk (ready [] (m ++ bits [1]) 1)) (fun s => shows 0x02 0 0 s && s.binPos == 32) = true := by decide +kernel

theorem test_mchk_X2 :
    outIs (exec .mchk (ready [] (List.replicate 32 true) 1)) (fun s => shows 0x03 0x02 0xFFFFFFFF s && s.binPos == 32)
      = true := by decide +kernel

theorem test_sdec :
    outIs (exec .sdec { withTree t4 (ready [] (bits [1, 1, 1, 0, 1, 0, 0]) 16) with ctValid := false }) (fun s =>
      shows 0x22 0 0 s && decide (s.dst = bytes [0x41, 0x41, 0x41, 0x42]) && s.answers == []) = true := by decide +kernel

theorem test_sdec_invalid : outIs (exec .sdec (ready [] [] 9)) (fun s => shows 0x03 0x15 9 s && s.answers.length == 9)
    = true := by decide +kernel

theorem test_D3 :
    outIs (exec .decode (ready [] (m ++ h3 ++ bits [1, 1, 1, 0, 1, 0, 0, 0, 1, 1, 1, 1, 1, 1, 1, 1]) 25)) (fun s =>
      shows 0x22 0 0 s && decide (s.dst = bytes [0x41, 0x41, 0x41, 0x42]) && s.binPos == 71 && s.answers == [])
      = true := by decide +kernel

theorem test_X10 :
    outIs (exec .decode (ready [] (m ++ h3 ++ bits [1, 1, 1, 0]) 100)) (fun s =>
      shows 0x03 0x04 0 s && decide (s.dst = bytes [0x41, 0x41, 0x41]) && s.binPos == 68) = true := by decide +kernel

/-! ### CMD, reserved opcodes, reset -/

/-- A write of `x` to CMD, then the other actions. -/
def writes (x : Word) (rest : List HostAct) (s : State) : State := { s with host := .write 0 x :: rest }

theorem test_K1 : outIs (step (writes 0x0 [] State.reset)) (shows 0x03 0x05 0) = true := by decide +kernel

theorem test_K2 :
    outIs (step (writes 0xC [] State.reset)) (fun s => shows 0x03 0x05 0xC s && s.readReg 0 == 0xC) = true ∧
    outIs (step (writes 0xD [] State.reset)) (shows 0x03 0x05 0xD) = true ∧
    outIs (step (writes 0xE [] State.reset)) (shows 0x03 0x05 0xE) = true ∧
    outIs (step (writes 0xF [] State.reset)) (shows 0x03 0x05 0xF) = true := by decide +kernel

theorem test_K3 :
    outIs (step (writes 0xFFFFFF13 [] (ready (bytes [0x41]) [] 2))) (fun s => shows 0x06 0 0 s && s.readReg 0 == 3)
      = true := by decide +kernel

theorem test_K5 :
    outIs (step { ready [] [] 0 with st := .busy, phase := .fcScan, pend := some .srcRead, cmd := 1, host := [.write 0 2] })
      (fun s => decide (s.st = .busy) && s.readReg 0 == 1 && s.host == []) = true := by decide +kernel

/-- X16, then K8. -/
theorem test_X16_K8 :
    outIs (andThen (exec .decode (ready [] (m ++ bits [0, 0, 0, 1, 0, 0, 0, 0, 0, 1, 0, 0, 0]) 9))
        (fun s => step { s with host := [.reset], answers := [.ok] }))
      (fun s => shows 0 0 0 s && decide (s.dst = bytes [0x41, 0x41, 0x41]) && s.binPos == 42 && s.answers == [.ok])
      = true := by decide +kernel

/-! ### Single steps, and the open parameters -/

/-- A held CTDR is BUSY before CD_WALK: STATUS shows it, a CMD write is lost, and one more step ends it (R9, R36, R172). -/
theorem test_hold_keeps_ctdr_busy :
    outIs (step { withTree t4 State.reset with answers := [.hold, .ok], host := [.write 0 5, .read 1, .write 0 6] }) (fun s =>
      shows 0x09 0 0 s && decide (s.phase = .cdWalk) &&
      outIs (andThen (step s) step) (fun u => shows 0x09 0 0 u && u.readReg 0 == 5 && u.host == [] && u.answers == [.ok] &&
        outIs (step u) (shows 0x1A 0 0))) = true := by decide +kernel

/-- One transaction a step: two of SRC's bytes are read by two steps. -/
theorem test_block_steps_once :
    outIs (steps 3 { ready (bytes [0x41, 0x42, 0x43]) [] 9 with
        answers := [.hold, .ok, .ok, .ok, .ok], host := [.write 0 3] }) (fun s =>
      decide (s.st = .busy) && s.srcPos == 2 && s.answers == [.ok, .ok]) = true := by decide +kernel

/-- ENCODE by single steps: the host reads STATUS between TB_MERGE and CD_WALK, where tree_valid alone is set (R28, R36). -/
theorem test_read_between_updates :
    outIs (steps 4 { ready [] [] 0 with
        answers := [.hold, .ok, .ok], host := [.write 0 1, .tick, .tick, .tick, .read 1] }) (fun s =>
      shows 0x09 0 0 s && decide (s.phase = .cdWalk) && s.host == [.read 1] && s.answers == [.ok]) = true := by
  decide +kernel

/-- The endless SDEC: an empty BIN supplied while BUSY does not end it, a reset does (R180). -/
theorem test_only_reset_ends_endless_sdec :
    outIs (steps 3 { withTree (L 0x41) (ready [] [true] 0) with
        answers := [.ok, .hold, .ok, .ok, .ok], host := [.write 0 9, .setBin [] 0, .pass, .reset] }) (fun s =>
      shows 0x19 0 0 s && decide (s.bin = [true]) && decide (s.dst = bytes [0x41, 0x41]) &&
      outIs (step s) (shows 0x00 0 0)) = true := by decide +kernel

/-- DST is collected after the command, not while it runs (R61 (b), R169). -/
theorem test_take_waits_for_the_end :
    outIs (steps 3 { withTree (L 0x41) (ready [] [true] 0) with
        answers := [.ok, .ok, .hold, .fail], host := [.write 0 9, .takeDst, .pass, .takeDst] }) (fun s =>
      shows 0x03 0x11 0 s && decide (s.dst = bytes [0x41]) &&
      outIs (step s) (fun t => decide (t.dst = []))) = true := by decide +kernel

/-- The outcome is U3's refusal. -/
def refusedByWidth (o : Out) : Bool :=
  match o with
  | .next _ => false
  | .fault _ => false
  | .refused .countWidth => true
  | .refused (.notModelled _) => false

/-- After reset with W = 2, SRC supplied and `n` answers to come. -/
def narrow (src : List Byte) (n : Nat) : State :=
  { ready src [] n with par := { Config.params with width := some 2 } }

/-- With W = 2 a count of 3 fits and a count of 4 is refused; so with the root's weight (R86, R94, U3). -/
theorem test_width :
    outIs (exec .fcnt (narrow (List.replicate 3 0x41) 4)) (fun s => ftAt s.ft 0x41 == 3) = true ∧
    refusedByWidth (exec .fcnt (narrow (List.replicate 4 0x41) 5)) = true := by decide +kernel

theorem test_width_root :
    refusedByWidth (exec .tbld { narrow [] 0 with ftValid := true, ft := ftOf [(0x41, 3)] }) = true ∧
    outIs (exec .tbld { narrow [] 0 with ftValid := true, ft := ftOf [(0x41, 2)] }) (fun s => s.tree.weight == 3) = true := by
  decide +kernel

/-- MAGIC is a parameter: with another one the decoder and MCHK take that one. -/
theorem test_other_magic :
    decode 5 .magic (bits (List.replicate 29 0 ++ [1, 0, 1])) = .ok (.fileMagic, []) ∧
    decode 5 .magic m = .error (.notMagic 1846) ∧
    outIs (exec .mchk { ready [] m 1 with par := { Config.params with magic := 5 } }) (shows 0x03 0x02 1846) = true := by
  decide +kernel

/-- NODE_CAP: 513 and more, and no bound, are values R7 allows. -/
theorem test_legal :
    Config.params.legal = true ∧ Config.Params.legal { Config.params with nodeCap := none } = true ∧
    Config.Params.legal { Config.params with nodeCap := some 512 } = false := by decide

/-! ### Witnesses: for each statement with hypotheses, a state and operands that meet all of them -/

/-- A running TDES that waits for the root's marker. -/
def parsing (s : State) : State :=
  { s with st := .busy, phase := .tdWalk, pend := some .binReadBit, cmd := 7 }

/-- A running TDES that waits for a symbol. -/
def inLeaf (s : State) : State :=
  { s with st := .busy, phase := .tdWalk, pend := some (.binReadBits 9), cmd := 7, nnodes := 1 }

/-- A running SDEC on the leaf of 0x41, which asks whether a bit is left; one is. -/
def decoding (host : List HostAct) : State :=
  { sdecOuter (withTree (L 0x41) (ready [] [true] 1)) with st := .busy, cmd := 9, host := host }

theorem params_legal : Config.params.legal = true := rfl

theorem inv_ready (src : List Byte) (bin : List Bit) (n : Nat) : (ready src bin n).Inv := by
  constructor <;> simp [ready, State.reset, params_legal]

theorem fitsCap_513 {n : Nat} (h : n ≤ 513) : fitsCap (some 513) n := by
  intro c hc; cases hc; exact h

theorem witness_EncodedInstructionDecodesBack :
    (Instr.fileNodeLeaf 0).wf = true ∧ (Instr.fileNodeLeaf 256).wf = true ∧ Instr.mchk.wf = true := by decide

theorem witness_DecoderAcceptsOnlyEncodings :
    decode 1846 .node (bits [0, 1, 0, 0, 0, 0, 0, 0, 0, 0]) = .ok (.fileNodeLeaf 256, []) ∧
    decode 1846 .magic m = .ok (.fileMagic, []) ∧ decode 1846 .command m = .ok (.tser, []) ∧ 256 < 257 ∧ 511 < 512 ∧
    (List.replicate 8 true).length < 9 ∧ (1847 < 2 ^ 32 ∧ 1847 ≠ (1846 : Word).toNat) ∧ (m.take 31).length < 32 := by
  decide

theorem witness_StepRunsTheCommandWritten :
    (writes 0xA [] State.reset).host = .write 0 0xA :: [] ∧
    (∃ s : State, s.par.csrBase = some 64 ∧ s.host = .busWrite 64 0xA :: []) ∧
    (0xFFFFFF13 : Word).toNat % 16 = (3 : Word).toNat % 16 :=
  ⟨rfl, ⟨{ State.reset with par := { Config.params with csrBase := some 64 }, host := [.busWrite 64 0xA] }, rfl, rfl⟩,
    by decide⟩

theorem witness_StepRunsTheFieldRead :
    (∃ s : State, s.host = .pass :: [] ∧ s.readsMagic = true ∧
      decode s.par.magic .magic (s.bin.drop s.binPos) = .ok (.fileMagic, []) ∧ s.answers = .ok :: .hold :: []) ∧
    (∃ s : State, s.host = .pass :: [] ∧ s.readsMarker = true ∧
      decode s.par.magic .node (s.bin.drop s.binPos) = .ok (.fileNodeInternal, []) ∧ s.answers = .ok :: .hold :: []) ∧
    (∃ s : State, s.host = .pass :: [] ∧ s.readsMarker = true ∧ fitsCap s.par.nodeCap (s.nnodes + 1) ∧
      decode s.par.magic .node (s.bin.drop s.binPos) = .ok (.fileNodeLeaf 256, []) ∧ s.answers = .ok :: .ok :: .hold :: []) :=
  ⟨⟨{ State.reset with
      host := [.pass], st := .busy, phase := .mgCheck, pend := some (.binReadBits 32), bin := m
      answers := [.ok, .hold] }, by decide⟩,
    ⟨parsing { State.reset with host := [.pass], bin := [true], answers := [.ok, .hold] }, by decide⟩,
    ⟨parsing { State.reset with host := [.pass], bin := encode 1846 (.fileNodeLeaf 256), answers := [.ok, .ok, .hold] },
      by decide, by decide, fitsCap_513 (by decide), by decide, by decide⟩⟩

theorem witness_PlacedCommandRunsNext : (0 < 2 ^ 32 ∧ 0 ≠ 1846) ∧ (2 ^ 32 - 1 < 2 ^ 32 ∧ 2 ^ 32 - 1 ≠ 1846) := by decide

/-- After reset with the registers mapped at 0x100. -/
def mapped (host : List HostAct) : State :=
  { State.reset with par := { State.reset.par with csrBase := some 0x100 }, host := host }

theorem witness_StatusShowsStateAndFlags :
    (∃ s : State, s.par.csrBase = some 0x100 ∧ s.host = .busRead 0x104 :: []) ∧
    (∃ s : State, s.par.csrBase = some 0x100 ∧ s.host = .busWrite 0x104 1 :: []) ∧
    (6 ≤ 31) ∧ (∃ s : State, s.host = .read 1 :: []) ∧ (∃ s : State, s.host = .write 1 0xFF :: []) :=
  ⟨⟨mapped [.busRead 0x104], rfl, rfl⟩, ⟨mapped [.busWrite 0x104 1], rfl, rfl⟩, by decide,
    ⟨{ State.reset with host := [.read 1] }, rfl⟩, ⟨{ State.reset with host := [.write 1 0xFF] }, rfl⟩⟩

/-- The first and the last register on the bus, the address right after them, and an address where nothing is mapped. -/
theorem witness_RegistersShowCmdAndFault :
    (∃ s : State, s.par.csrBase = some 0x100 ∧ s.host = .busWrite (0x100 + 4 * (0 : Fin 4).val) 3 :: []) ∧
    (∃ s : State, s.par.csrBase = some 0x100 ∧ (3 : Fin 4) ≠ 0 ∧ s.host = .busWrite (0x100 + 4 * (3 : Fin 4).val) 1 :: []) ∧
    (∃ s : State, (∀ base (n : Fin 4), s.par.csrBase = some base → 0x110 ≠ base + 4 * n.val) ∧
      s.host = .busWrite 0x110 1 :: []) ∧
    (∃ s : State, (∀ base (n : Fin 4), s.par.csrBase = some base → 0x100 ≠ base + 4 * n.val) ∧
      s.host = .busRead 0x100 :: []) ∧
    (∃ s : State, s.host = .read 3 :: []) ∧ (∃ s : State, s.host = .write 2 1 :: []) ∧
    (∃ s : State, s.host = .write 3 1 :: []) :=
  ⟨⟨mapped [.busWrite 0x100 3], rfl, rfl⟩, ⟨mapped [.busWrite 0x10C 1], rfl, by decide, rfl⟩,
    ⟨mapped [.busWrite 0x110 1], fun base n h => by cases h; omega, rfl⟩,
    ⟨{ State.reset with host := [.busRead 0x100] }, fun _ _ h => (by cases h), rfl⟩,
    ⟨{ State.reset with host := [.read 3] }, rfl⟩, ⟨{ State.reset with host := [.write 2 1] }, rfl⟩,
    ⟨{ State.reset with host := [.write 3 1] }, rfl⟩⟩

theorem witness_FaultRegistersChangeOnlyByFaultOrReset :
    ∃ s t, s.Inv ∧ step s = .next t ∧ (t.faultCause ≠ s.faultCause ∨ t.faultInfo ≠ s.faultInfo) := by
  have h : outIs (step (writes 0xB [] State.reset)) (fun t => t.faultCause != 0) = true := by decide +kernel
  obtain ⟨t, h1, h2⟩ := exists_of_outIs h
  refine ⟨_, t, ?_, h1, .inl ?_⟩
  · constructor <;> simp [writes, State.reset, params_legal]
  · simpa [writes, State.reset] using h2

/-- The other clause: reset clears what a fault recorded. -/
theorem witness_FaultRegistersChangeByReset :
    ∃ s t, s.Inv ∧ step s = .next t ∧ (t.faultCause ≠ s.faultCause ∨ t.faultInfo ≠ s.faultInfo) := by
  refine ⟨{ raise .usageError 0 0xB State.reset with host := [.reset] },
    applyReset { raise .usageError 0 0xB State.reset with host := [] }, ?_, rfl, .inl (by decide)⟩
  constructor <;> simp [raise, State.reset, FaultClass.code, params_legal]

theorem witness_CmdStoresTheOpcode :
    ∃ s t, s.accepts = true ∧ s.host = .write 0 0xFFFFFF1B :: [] ∧ step s = .next t := by
  have h : outIs (step (writes 0xFFFFFF1B [] State.reset)) (fun _ => true) = true := by decide +kernel
  obtain ⟨t, h1, -⟩ := exists_of_outIs h
  exact ⟨_, t, by decide, rfl, h1⟩

theorem witness_CommandIsIgnoredWhileBusyOrFault :
    (∃ s : State, s.st = .busy ∧ s.host = .write 0 1 :: []) ∧ (∃ s : State, s.st = .fault ∧ s.host = .write 0 1 :: []) ∧
    Instr.encode.space = .command :=
  ⟨⟨parsing (writes 1 [] State.reset), by decide⟩, ⟨writes 1 [] (raise .usageError 0 0 State.reset), rfl, rfl⟩, rfl⟩

theorem witness_ReservedOpcodeRaisesUsageError :
    State.reset.accepts = true ∧ (Instr.reservedF, 0xF) ∈
      [(Instr.reserved0, 0x0), (.reservedB, 0xB), (.reservedC, 0xC), (.reservedD, 0xD), (.reservedE, 0xE),
        (.reservedF, 0xF)] := by decide

theorem witness_UnmetPreconditionRaisesUsageError :
    State.reset.accepts = true ∧ ∀ e ∈
      [(Instr.tbld, 0x4, State.reset.ftValid), (.ctdr, 0x5, State.reset.treeValid), (.tser, 0x6, State.reset.treeValid),
        (.senc, 0x8, State.reset.treeValid && State.reset.ctValid), (.sdec, 0x9, State.reset.treeValid)],
      e.2.2 = false := by decide

theorem witness_RaiseRecordsTheFaultAndClearsTheFlags : 15 < 16 ∧ 2 ^ 32 - 1 < 2 ^ 32 := by decide

theorem witness_FailedTransactionRaisesIOFailure :
    ∃ s : State, s.st = .busy ∧ s.pend = some .binReadBit ∧ s.host = [] ∧ s.answers = .fail :: [] :=
  ⟨parsing { State.reset with answers := [.fail] }, by decide⟩

theorem witness_UnansweredTransactionKeepsTheState :
    (∃ s : State, s.st = .busy ∧ s.pend = some .binReadBit ∧ s.host = [] ∧ s.answers = .hold :: []) ∧
    (∃ s : State, s.st = .busy ∧ s.pend = some .binReadBit ∧ s.host = [] ∧ s.answers = []) :=
  ⟨⟨parsing { State.reset with answers := [.hold] }, by decide⟩, ⟨parsing State.reset, by decide⟩⟩

theorem witness_FaultIsLeftOnlyByReset :
    ∃ s t, s.st = .fault ∧ step s = .next t ∧ ∀ rest, s.host ≠ .reset :: rest :=
  ⟨writes 3 [] (raise .usageError 0 0 State.reset), raise .usageError 0 0 State.reset, rfl, rfl, by
    intro rest; simp [writes]⟩

theorem witness_ResetAbandonsTheCommandAndKeepsTheStreams : ∃ s : State, s.host = .reset :: [] :=
  ⟨parsing { State.reset with host := [.reset] }, rfl⟩

theorem witness_FcntCountsTheBytes :
    ∃ s : State, s.accepts = true ∧ s.srcPos ≤ s.src.length ∧
      (∀ y, widthFits s.par.width ((s.src.drop s.srcPos).count y) = true) ∧
      s.answers = oks ((s.src.drop s.srcPos).length + 1) [] :=
  ⟨{ ready (bytes [1, 2]) [] 2 with srcPos := 1 }, by decide, by decide, fun _ => rfl, by decide⟩

theorem witness_TbldBuildsTheTree :
    ∃ s : State, s.accepts = true ∧ s.ftValid = true ∧ s.answers.head? ≠ some .hold ∧
      widthFits s.par.width (1 + s.ft.toList.sum) = true :=
  ⟨{ State.reset with ftValid := true }, rfl, rfl, by decide, rfl⟩

/-- TBLD ends whatever FT holds. -/
theorem tbld_ends (s : State) (ha : s.accepts = true) (hf : s.ftValid = true) (hr : s.answers = [])
    (hw : s.par.width = none) :
    ∃ t, exec .tbld s = .next t ∧ t.st = .done := by
  have e : exec .tbld s = run [] { s with
      cmd := 4, st := .busy, eofSeen := false, treeValid := false, ctValid := false, phase := .tbInit, pend := none } := by
    refine (command_oks ha hr _ _).trans ?_
    rw [tbld_start (s := { s with cmd := 4, st := .busy }) hf]
  obtain ⟨q, a, c, -, -, -, -, -, h1, h2⟩ := @tbld_internal { s with
      cmd := 4, st := .busy, eofSeen := false, treeValid := false, ctValid := false, phase := .tbInit, pend := none }
    rfl rfl rfl
  simp only [hw, widthFits_none, if_true] at h2
  rw [e, run_internal h1 (by simp), run_internal h2 (by simp), run_of_not_busy (by simp [tbldEnd, endUnit, opEncode])]
  exact ⟨_, rfl, by simp [tbldEnd, endUnit, opEncode]⟩

/-- Each clause at its boundary: 4 = 2^2. -/
theorem witness_CountsBeyondTheWidthAreRefused :
    (∃ s : State, s.host = [] ∧ s.st = .busy ∧ s.phase = .fcScan ∧ s.pend = some .srcRead ∧
      s.src.drop s.srcPos = 0x41 :: [] ∧ s.answers = .ok :: [] ∧
      widthFits s.par.width (ftAt s.ft 0x41 + 1) = false) ∧
    (∃ s : State, s.accepts = true ∧ s.answers = oks ((s.src.drop s.srcPos).length + 1) [] ∧
      widthFits s.par.width ((s.src.drop s.srcPos).count 0x41) = false) ∧
    (∃ s : State, s.accepts = true ∧ s.ftValid = true ∧ s.answers.head? ≠ some .hold ∧
      widthFits s.par.width (1 + s.ft.toList.sum) = false) :=
  ⟨⟨{ narrow [0x41] 1 with
      st := .busy, phase := .fcScan, pend := some .srcRead, ft := ftOf [(0x41, 3)] }, by decide +kernel⟩,
    ⟨narrow (List.replicate 4 0x41) 5, by decide +kernel⟩,
    ⟨{ narrow [] 0 with ftValid := true, ft := ftOf [(0x41, 3)] }, by decide +kernel⟩⟩

theorem witness_BuilderMergesTheTwoLeastEntries :
    ∃ (B₀ : Builder) (a c : QEntry) (rest : List QEntry),
      ((B₀.init (ftOf [(0, 1), (255, 2)])).merge 1).q = a :: c :: rest := by
  refine ⟨State.reset.builder, ?_⟩
  have h : ((State.reset.builder.init (ftOf [(0, 1), (255, 2)])).merge 1).q.length = 2 := by decide +kernel
  match hq : ((State.reset.builder.init (ftOf [(0, 1), (255, 2)])).merge 1).q with
  | [] => simp [hq] at h
  | [_] => simp [hq] at h
  | a :: c :: rest => exact ⟨a, c, rest, rfl⟩

theorem ftAt_single {x y : Byte} {n : Nat} (h : y ≠ x) : ftAt ((Vector.replicate 256 0).set x.toNat n x.isLt) y = 0 := by
  have hn : x.toNat ≠ y.toNat := fun e => h (BitVec.eq_of_toNat_eq e.symm)
  simp [ftAt, hn]

/-- Both clauses: an empty table, and one byte value. -/
theorem witness_TbldOnAtMostOneByteValue :
    (∃ s t : State, s.accepts = true ∧ s.ftValid = true ∧ exec .tbld s = .next t ∧ t.st = .done ∧
      ∀ y, ftAt s.ft y = 0) ∧
    (∃ s t : State, s.accepts = true ∧ s.ftValid = true ∧ exec .tbld s = .next t ∧ t.st = .done ∧
      1 ≤ ftAt s.ft 255 ∧ ∀ y, y ≠ 255 → ftAt s.ft y = 0) := by
  refine ⟨?_, ?_⟩
  · obtain ⟨t, h1, h2⟩ := tbld_ends { State.reset with ftValid := true } rfl rfl rfl rfl
    exact ⟨_, t, rfl, rfl, h1, h2, fun y => by simp [State.reset, Tables.zero, ftAt]⟩
  · obtain ⟨t, h1, h2⟩ := tbld_ends { State.reset with
        ftValid := true, ft := (Vector.replicate 256 0).set (255 : Byte).toNat 1 (255 : Byte).isLt } rfl rfl rfl rfl
    exact ⟨_, t, rfl, rfl, h1, h2, by decide, fun y hy => ftAt_single hy⟩

theorem witness_TbldTreeIsOptimal :
    ∃ (s t : State) (u : Tree), s.accepts = true ∧ s.ftValid = true ∧ exec .tbld s = .next t ∧ t.st = .done ∧
      u.leaves.Perm (initialLeaves s.ft) := by
  obtain ⟨t, h1, h2⟩ := tbld_ends { State.reset with ftValid := true, ft := ftOf [(0x41, 4)] } rfl rfl rfl rfl
  refine ⟨_, t, .internal (.leaf 0x41 4) (.leaf 256 1) 5, rfl, rfl, h1, h2, ?_⟩
  have : initialLeaves (ftOf [(0x41, 4)]) = [(256, 1), (0x41, 4)] := by decide +kernel
  rw [this]
  exact .swap ..

theorem witness_CtdrDerivesTheCodes :
    ∃ (s : State) (sym : Symbol) (p : Code) (before after : List (Symbol × Code)), s.accepts = true ∧
      s.treeValid = true ∧ s.answers.head? ≠ some .hold ∧ s.tree.codes = before ++ (sym, p) :: after ∧
      sym ∉ after.map Prod.fst :=
  ⟨withTree (N (L 0x41) (N (L 0x41) (L 256))) State.reset, 0x41, [true, false], [(0x41, [false])],
    [(256, [true, true])], by decide⟩

theorem witness_CodesArePrefixFree :
    ∃ (s t : State) (x y : Symbol) (p q : Code), s.accepts = true ∧ exec .ctdr s = .next t ∧ t.st = .done ∧ x ≠ y ∧
      ctAt t.ct x = some p ∧ ctAt t.ct y = some q := by
  have h : outIs (exec .ctdr (withTree t4 State.reset)) (fun t => decide (t.st = .done) &&
      (ctAt t.ct 0x41 == some [true]) && (ctAt t.ct 256 == some [false, false])) = true := by decide +kernel
  obtain ⟨t, h1, h2⟩ := exists_of_outIs h
  simp only [Bool.and_eq_true, beq_iff_eq, decide_eq_true_eq] at h2
  exact ⟨_, t, 0x41, 256, _, _, rfl, h1, h2.1.1, by decide, h2.1.2, h2.2⟩

theorem witness_CodeTableCoversTheBytesCounted :
    ∃ s s₁ s₂ s₃ : State, s.accepts = true ∧ exec .fcnt s = .next s₁ ∧ s₁.st = .done ∧ exec .tbld s₁ = .next s₂ ∧
      s₂.st = .done ∧ exec .ctdr s₂ = .next s₃ ∧ s₃.st = .done := by
  have h : outIs (exec .fcnt (ready (bytes [0x41]) [] 2)) (fun s₁ => isDone s₁ &&
      outIs (exec .tbld s₁) (fun s₂ => isDone s₂ && outIs (exec .ctdr s₂) isDone)) = true := by decide +kernel
  obtain ⟨s₁, h1, h2⟩ := exists_of_outIs h
  rw [Bool.and_eq_true] at h2
  obtain ⟨s₂, h3, h4⟩ := exists_of_outIs h2.2
  rw [Bool.and_eq_true] at h4
  obtain ⟨s₃, h5, h6⟩ := exists_done h4.2
  exact ⟨_, s₁, s₂, s₃, rfl, h1, by simpa [isDone] using h2.1, h3, by simpa [isDone] using h4.1, h5, h6⟩

theorem witness_TserAppendsTheSerializedTree :
    ∃ s : State, s.accepts = true ∧ s.treeValid = true ∧
      s.answers = oks (2 * s.tree.leafCount + s.tree.innerCount) [] :=
  ⟨withTree t4 (ready [] [] 8), by decide⟩

theorem witness_TdesReadsTheTree :
    ∃ s : State, s.accepts = true ∧ s.bin.drop s.binPos = t4.ser ++ [true] ∧ fitsCap s.par.nodeCap t4.nodeCount ∧
      s.answers = oks (2 * t4.leafCount + t4.innerCount) [] :=
  ⟨ready [] (t4.ser ++ [true]) 8, by decide, by decide, fitsCap_513 (by decide), by decide⟩

/-- The second clause; the first has the hypotheses of `TdesReadsTheTree`. -/
theorem witness_TdesInvertsTser :
    ∃ s t u : State, s.accepts = true ∧ exec .tdes s = .next t ∧ t.st = .done ∧ exec .tser t = .next u ∧ u.st = .done := by
  have h : outIs (exec .tdes (ready [] (L 256).ser 4)) (fun t => isDone t && outIs (exec .tser t) isDone) = true := by
    decide +kernel
  obtain ⟨t, h1, h2⟩ := exists_of_outIs h
  rw [Bool.and_eq_true] at h2
  obtain ⟨u, h3, h4⟩ := exists_done h2.2
  exact ⟨_, t, u, rfl, h1, by simpa [isDone] using h2.1, h3, h4⟩

theorem witness_TruncatedHeaderRaisesCorruptHeader :
    (∃ s : State, s.host = [] ∧ s.readsMarker = true ∧ s.bin.length ≤ s.binPos ∧ s.answers = .ok :: []) ∧
    (∃ s : State, s.host = [] ∧ s.readsSymbol = true ∧ s.bin.length < s.binPos + 9 ∧ s.answers = .ok :: []) :=
  ⟨⟨parsing (ready [] [] 1), by decide⟩, ⟨inLeaf (ready [] (List.replicate 8 true) 1), by decide⟩⟩

theorem witness_OutOfRangeSymbolRaisesCorruptHeader :
    (∃ s : State, s.host = [] ∧ s.readsSymbol = true ∧ 257 ≤ 257 ∧ 257 ≤ 511 ∧
      s.bin.drop s.binPos = toBits 9 257 ++ [] ∧ s.answers = .ok :: []) ∧
    (∃ s : State, s.host = [] ∧ s.readsSymbol = true ∧ 257 ≤ 511 ∧ 511 ≤ 511 ∧
      s.bin.drop s.binPos = toBits 9 511 ++ [] ∧ s.answers = .ok :: []) :=
  ⟨⟨inLeaf (ready [] (toBits 9 257) 1), by decide⟩, ⟨inLeaf (ready [] (toBits 9 511) 1), by decide⟩⟩

theorem witness_NodeBeyondCapacityRaisesCorruptHeader :
    (∃ s : State, s.host = [] ∧ s.readsMarker = true ∧ s.par.nodeCap = some 513 ∧ 513 < 2 ^ 32 ∧ s.nnodes = 513 ∧
      s.answers = .ok :: [] ∧ s.binPos < s.bin.length) ∧
    (∃ s : State, s.host = [] ∧ s.readsMarker = true ∧ s.par.nodeCap = some 513 ∧ 513 < 2 ^ 32 ∧ s.nnodes = 513 ∧
      s.answers = .ok :: [] ∧ s.bin.length ≤ s.binPos) :=
  ⟨⟨{ parsing (ready [] [true] 1) with nnodes := 513 }, by decide⟩, ⟨{ parsing (ready [] [] 1) with nnodes := 513 },
    by decide⟩⟩

theorem witness_MchkAcceptsTheMagic :
    ∃ s : State, s.accepts = true ∧ s.bin.drop s.binPos = toBits 32 s.par.magic.toNat ++ [] ∧ s.answers = .ok :: [] :=
  ⟨ready [] m 1, by decide⟩

theorem witness_WrongMagicRaisesInvalidFormat :
    ∃ s : State, s.accepts = true ∧ (Instr.decode = .mchk ∨ Instr.decode = .decode) ∧ 2 ^ 32 - 1 < 2 ^ 32 ∧
      2 ^ 32 - 1 ≠ s.par.magic.toNat ∧ s.bin.drop s.binPos = toBits 32 (2 ^ 32 - 1) ++ [] ∧ s.answers = .ok :: [] :=
  ⟨ready [] (List.replicate 32 true) 1, by decide⟩

theorem witness_ShortMagicRaisesInvalidFormat :
    ∃ s : State, s.accepts = true ∧ (Instr.mchk = .mchk ∨ Instr.mchk = .decode) ∧ s.bin.length < s.binPos + 32 ∧
      s.answers = .ok :: [] :=
  ⟨ready [] (m.take 31) 1, by decide⟩

theorem witness_DecodeWritesNothingBeforeTheHeaderIsRead :
    (∃ s t : State, s.accepts = true ∧ exec .decode s = .next t ∧ t.st = .fault ∧
      (t.faultCause.toNat % 16 = 2 ∨ t.faultCause.toNat % 16 = 3)) ∧
    (∃ s t : State, (s.host = [] ∨ ∃ rest, s.host = .pass :: rest ∨ s.host = .tick :: rest) ∧ (s.phase = .mgCheck ∨ s.phase = .tdWalk) ∧
      step s = .next t ∧ t.phase = .tdWalk) := by
  have h : outIs (exec .decode (ready [] m 2)) (fun t => decide (t.st = .fault) && t.faultCause.toNat % 16 == 3) = true := by
    decide +kernel
  obtain ⟨t, h1, h2⟩ := exists_of_outIs h
  simp only [Bool.and_eq_true, decide_eq_true_eq, beq_iff_eq] at h2
  refine ⟨⟨_, t, rfl, h1, h2.1, .inr h2.2⟩, ⟨parsing State.reset, parsing State.reset, .inl rfl, .inr rfl, rfl, rfl⟩⟩

/-- "A", then the EOF-symbol, on T4's tree, with one bit after them. -/
theorem witness_SdecDecodesThePayload :
    ∃ s : State, s.accepts = true ∧ s.treeValid = true ∧ onTree s.tree [(0x41, [true])] ∧
      (eofSym, [false, false]) ∈ s.tree.codes ∧
      s.bin.drop s.binPos = payloadBits [(0x41, [true])] ++ [false, false] ++ [true] ∧
      payloadBits [(0x41, [true])] ++ [false, false] ++ [true] ≠ [] ∧
      s.answers = oks (payloadTxns [(0x41, [true])] + 1 + 2) [] :=
  ⟨withTree t4 (ready [] (bits [1, 0, 0, 1]) 6), by unfold onTree; decide⟩

theorem witness_SdecEndsAtACodeBoundary :
    ∃ s : State, s.accepts = true ∧ s.treeValid = true ∧ onTree s.tree [(0x41, [true])] ∧
      (∀ e ∈ [((0x41 : Byte), [true])], e.2 ≠ []) ∧ s.binPos ≤ s.bin.length ∧
      s.bin.drop s.binPos = payloadBits [(0x41, [true])] ∧ s.answers = oks (payloadTxns [(0x41, [true])] + 1) [] :=
  ⟨withTree t4 (ready [] (bits [1]) 4), by unfold onTree; decide⟩

theorem witness_TruncatedPayloadRaisesCorruptStream :
    ∃ s : State, s.accepts = true ∧ s.treeValid = true ∧ onTree s.tree [(0x41, [true])] ∧
      ((0x42 : Symbol), [false, true]) ∈ s.tree.codes ∧ [false] <+: [false, true] ∧ [false] ≠ [false, true] ∧
      [false] ≠ [] ∧ s.bin.drop s.binPos = payloadBits [(0x41, [true])] ++ [false] ∧
      s.answers = oks (payloadTxns [(0x41, [true])] + 1 + 1 + 1) [] :=
  ⟨withTree t4 (ready [] (bits [1, 0]) 6), by unfold onTree; decide⟩

theorem witness_SdecOnTheEofLeafConsumesNothing :
    ∃ s : State, s.accepts = true ∧ s.treeValid = true ∧ s.tree = .leaf eofSym 1 ∧ s.answers = .ok :: [] :=
  ⟨withTree (L 256) (ready [] [true] 1), by decide⟩

theorem witness_SdecOnAByteLeafNeverEnds :
    (∃ s : State, s.accepts = true ∧ s.treeValid = true ∧ s.tree = .leaf (symbolOfByte 0x41) 1 ∧
      s.bin.length ≤ s.binPos ∧ s.answers = .ok :: []) ∧
    (∃ s : State, s.accepts = true ∧ s.treeValid = true ∧ s.tree = .leaf (symbolOfByte 0x41) 1 ∧
      s.binPos < s.bin.length ∧ Answer.fail ∉ s.answers ∧ s.answers = List.replicate (2 * 2) .ok) :=
  ⟨⟨withTree (L 0x41) (ready [] [] 1), by decide⟩, ⟨withTree (L 0x41) (ready [] [true] 4), by decide⟩⟩

theorem witness_SencWritesTheFile :
    ∃ s : State, s.accepts = true ∧ s.treeValid = true ∧ s.ctValid = true ∧ covers s.ct s.src ∧
      s.answers = oks (sencTxns s.tree s.ct s.src) [] :=
  ⟨withTree t4 (ready (bytes [0x42]) [] 16), by decide, by decide, by decide, by unfold covers; decide +kernel,
    by decide +kernel⟩

theorem witness_SymbolWithoutCodeRaisesInternalConsistency :
    (∃ s : State, s.accepts = true ∧ s.treeValid = true ∧ s.ctValid = true ∧ s.src = [] ++ 0x43 :: [] ∧
      ctAt s.ct (symbolOfByte 0x43) = none ∧ s.answers = oks (1 + s.tree.txns + 1 + 1 + 0) []) ∧
    (∃ s : State, s.accepts = true ∧ s.treeValid = true ∧ s.ctValid = true ∧ s.src = [] ∧ ctAt s.ct eofSym = none ∧
      s.answers = oks (1 + s.tree.txns + 1 + 1 + 0) []) :=
  ⟨⟨withTree t4 (ready [0x43] [] 11), by decide +kernel⟩, ⟨withTree (L 0x41) (ready [] [] 5), by decide +kernel⟩⟩

/-- W unbounded, and a W whose bound the input just does not reach. -/
theorem witness_EncodeWritesTheFile :
    ∀ s ∈ [State.reset, narrow [1, 1] 0], s.accepts = true ∧ s.srcPos = 0 ∧
      widthFits s.par.width (1 + s.src.length) = true := by decide +kernel

theorem witness_EncodeEqualsItsProgram :
    (ready [0x41] [] 3).Inv ∧ (ready [0x41] [] 3).accepts = true ∧ .hold ∉ (ready [0x41] [] 3).answers :=
  ⟨inv_ready _ _ _, by decide⟩

theorem witness_DecodeReadsTheFile :
    ∃ s : State, s.accepts = true ∧ fitsCap s.par.nodeCap t4.nodeCount ∧ onTree t4 [(0x41, [true])] ∧
      (eofSym, [false, false]) ∈ t4.codes ∧
      s.bin.drop s.binPos = toBits 32 s.par.magic.toNat ++ t4.ser ++ payloadBits [(0x41, [true])] ++ [false, false] ++ [] ∧
      payloadBits [(0x41, [true])] ++ [false, false] ++ [] ≠ [] ∧
      s.answers = oks (1 + t4.txns + (payloadTxns [(0x41, [true])] + 1 + 2)) [] :=
  ⟨ready [] (m ++ h3 ++ bits [1, 0, 0]) 15, by decide, fitsCap_513 (by decide), by unfold onTree; decide, by decide,
    by decide, by decide, by decide⟩

theorem witness_DecodeEqualsItsProgram :
    (ready [] m 3).Inv ∧ (ready [] m 3).accepts = true ∧ .hold ∉ (ready [] m 3).answers :=
  ⟨inv_ready _ _ _, by decide⟩

/-- The premises about the encoding block, then those about the decoding block, for what it wrote. -/
theorem witness_EncodeThenDecodeGivesTheBytesBack :
    (State.reset.accepts = true ∧ State.reset.srcPos = 0 ∧ State.reset.bout = [] ∧
      widthFits State.reset.par.width (1 + State.reset.src.length) = true) ∧
    ∀ t : State, ∃ u : State, u.accepts = true ∧ u.bin = t.bout ++ [true] ∧ u.binPos = 0 ∧ u.dst = [] ∧
      u.par.magic = State.reset.par.magic ∧ fitsCap u.par.nodeCap 513 :=
  ⟨by decide, fun t => ⟨ready [] (t.bout ++ [true]) 0, rfl, rfl, rfl, rfl, rfl, fitsCap_513 (by decide)⟩⟩

theorem witness_EmptyInputGivesHeaderOnly :
    (∃ s : State, s.accepts = true ∧ s.src = [] ∧ s.srcPos = 0 ∧ s.par.magic = 1846 ∧
      widthFits s.par.width 1 = true ∧ s.answers = oks 6 []) ∧
    (∃ u : State, u.accepts = true ∧ u.binPos = 0 ∧ u.par.magic = 1846 ∧ fitsCap u.par.nodeCap 1 ∧
      u.bin = toBits 32 1846 ++ [false, true, false, false, false, false, false, false, false, false] ++ [] ∧
      u.answers = oks 4 []) :=
  ⟨⟨ready [] [] 6, by decide⟩, ⟨ready [] (m ++ encode 1846 (.fileNodeLeaf 256)) 4, by decide, by decide, by decide,
    fitsCap_513 (by decide), by decide, by decide⟩⟩

theorem witness_RepeatedByteGivesTwoLeaves :
    ∃ s : State, s.accepts = true ∧ s.src = List.replicate (0 + 1) 0x41 ∧ s.srcPos = 0 ∧
      widthFits s.par.width (0 + 2) = true ∧ s.answers = oks (3 * 0 + 13) [] :=
  ⟨ready [0x41] [] 13, by decide⟩

/-- FCNT, TBLD and ENCODE of two permutations of two bytes. -/
theorem witness_PermutedInputGivesTheSameTree :
    (∃ s u t v : State, s.accepts = true ∧ u.accepts = true ∧ (s.src.drop s.srcPos).Perm (u.src.drop u.srcPos) ∧
      exec .fcnt s = .next t ∧ t.st = .done ∧ exec .fcnt u = .next v ∧ v.st = .done) ∧
    (∃ s u t v : State, s.accepts = true ∧ u.accepts = true ∧ s.ft = u.ft ∧ s.ftValid = true ∧ u.ftValid = true ∧
      exec .tbld s = .next t ∧ t.st = .done ∧ exec .tbld u = .next v ∧ v.st = .done) ∧
    (∃ s u t v : State, s.accepts = true ∧ u.accepts = true ∧ s.srcPos = 0 ∧ u.srcPos = 0 ∧ s.src.Perm u.src ∧
      s.bout = [] ∧ u.bout = [] ∧ s.par.magic = u.par.magic ∧ exec .encode s = .next t ∧ t.st = .done ∧
      exec .encode u = .next v ∧ v.st = .done) := by
  have p : (bytes [1, 2]).Perm (bytes [2, 1]) := .swap ..
  obtain ⟨t1, a1, b1⟩ := exists_done (o := exec .fcnt (ready (bytes [1, 2]) [] 3)) (by decide +kernel)
  obtain ⟨v1, c1, d1⟩ := exists_done (o := exec .fcnt (ready (bytes [2, 1]) [] 3)) (by decide +kernel)
  obtain ⟨t2, a2, b2⟩ := tbld_ends { State.reset with ftValid := true } rfl rfl rfl rfl
  obtain ⟨t3, a3, b3⟩ := exists_done (o := exec .encode (ready (bytes [1, 2]) [] 99)) (by decide +kernel)
  obtain ⟨v3, c3, d3⟩ := exists_done (o := exec .encode (ready (bytes [2, 1]) [] 99)) (by decide +kernel)
  exact ⟨⟨ready (bytes [1, 2]) [] 3, ready (bytes [2, 1]) [] 3, t1, v1, rfl, rfl, p, a1, b1, c1, d1⟩,
    ⟨{ State.reset with ftValid := true }, { State.reset with ftValid := true }, t2, t2, rfl, rfl, rfl, rfl, rfl, a2, b2,
      a2, b2⟩,
    ⟨ready (bytes [1, 2]) [] 99, ready (bytes [2, 1]) [] 99, t3, v3, rfl, rfl, rfl, rfl, p, rfl, rfl, rfl, a3, b3, c3,
      d3⟩⟩

theorem witness_MagicFieldPassesTheGate :
    (∃ s : State, s.readsMagic = true ∧ s.cmd = 0xA) ∧ (∃ s : State, s.readsMagic = true ∧ s.cmd = 0x2) ∧ State.reset.readsMagic = false :=
  ⟨⟨{ State.reset with st := .busy, phase := .mgCheck, pend := some (.binReadBits 32), cmd := 0xA }, by decide⟩,
    ⟨{ State.reset with st := .busy, phase := .mgCheck, pend := some (.binReadBits 32), cmd := 0x2 }, by decide⟩,
    by decide⟩

/-- Each place where a node can stand: the root, a left child, a right child under another node, and the last leaf. -/
theorem witness_NodeFieldsBuildTheTree :
    ∀ stk ∈ [[], [.needLeft], [.needRight (L 1), .needLeft], [.needRight (L 1)]],
      let s : State := { parsing State.reset with stk := stk }
      s.readsMarker = true ∧ fitsCap s.par.nodeCap (s.nnodes + 1) ∧ symbolOfNat (256 : BitVec 9).toNat = some eofSym ∧
        s.stk = stk ∧ s.cmd = 0x7 ∧ 256 < (257 : BitVec 9).toNat ∧ State.reset.readsMarker = false := by
  intro stk _
  exact ⟨rfl, fitsCap_513 (show 0 + 1 ≤ 513 by decide), rfl, rfl, rfl, by decide, rfl⟩

theorem witness_EveryStepKeepsTheInvariant : (ready [0x41] m 9).Inv := inv_ready _ _ _

/-- Nothing in the queue meets every premise, and so does collecting BOUT while BUSY. -/
theorem witness_StreamsAreReadForwardAndAppended :
    State.reset.Inv ∧ ∀ s ∈ [State.reset, { parsing State.reset with host := [.takeBout] }],
      (∃ t, step s = .next t) ∧ (∀ b p rest, s.host ≠ .setSrc b p :: rest) ∧
        (∀ b p rest, s.host = .setBin b p :: rest → s.st = .busy) ∧
        (∀ rest, s.host = .takeBout :: rest → s.st = .busy) ∧ (∀ rest, s.host = .takeDst :: rest → s.st = .busy) := by
  refine ⟨inv_ready [] [] 0, fun s hs => ?_⟩
  simp only [List.mem_cons, List.not_mem_nil, or_false] at hs
  rcases hs with rfl | rfl
  · exact ⟨⟨_, rfl⟩, by simp [State.reset]⟩
  · exact ⟨⟨_, rfl⟩, by simp [parsing]⟩

/-- The two exceptions are met by an EOF-symbol leaf and by a BIN without a header; the endless run by the leaf of 0x41. -/
theorem witness_CommandsEndIfAnswered :
    ((ready [] [] 0).Inv ∧ (ready [] [] 0).accepts = true ∧ Instr.decode.space = .command ∧
      ∀ (y : Byte) bs, bs ≠ [] → (ready [] [] 0).bin.drop 0 ≠ toBits 32 1846 ++ false :: toBits 9 y.toNat ++ bs) ∧
    (∀ y w, (withTree (L 256) State.reset).tree = .leaf (symbolOfByte y) w →
      (withTree (L 256) State.reset).bin.length ≤ (withTree (L 256) State.reset).binPos) ∧
    ([] : List Answer).head? ≠ some .hold ∧
    (∃ s : State, s.accepts = true ∧ s.treeValid = true ∧ s.tree = .leaf (symbolOfByte 0x41) 1 ∧
      s.binPos < s.bin.length ∧ .fail ∉ s.answers) ∧
    (∃ s : State, s.accepts = true ∧ fitsCap s.par.nodeCap 1 ∧ [true] ≠ ([] : List Bit) ∧
      s.bin.drop s.binPos = toBits 32 s.par.magic.toNat ++ false :: toBits 9 (0x41 : Byte).toNat ++ [true] ∧
      s.answers = oks 3 []) ∧
    (∃ s : State, s.endless 0x41 ∧ .fail ∉ s.answers ∧ ∀ rest, s.host ≠ .reset :: rest) ∧
    (∃ s : State, s.endless 0x41 ∧ s.host = .reset :: []) :=
  ⟨⟨inv_ready _ _ _, by decide, by decide, by intro y bs hb h; simp [ready, toBits] at h⟩,
    fun _ _ _ => by decide, by decide, ⟨withTree (L 0x41) (ready [] [true] 1), by decide⟩,
    ⟨ready [] (m ++ false :: toBits 9 65 ++ [true]) 3, by decide, fitsCap_513 (by decide), by decide, by decide, by decide⟩,
    ⟨decoding [], ⟨rfl, ⟨1, rfl⟩, by decide, .inl ⟨rfl, rfl⟩⟩, by decide, fun _ h => by cases h⟩,
    ⟨decoding [.reset], ⟨rfl, ⟨1, rfl⟩, by decide, .inl ⟨rfl, rfl⟩⟩, rfl⟩⟩

/-- The last three clauses: a `tick`, a step that reads a byte, and a command under a script without a hold. -/
theorem witness_CommandRunsAsSingleSteps :
    (∃ s : State, s.accepts = true ∧ Instr.ctdr.space = .command ∧ s.treeValid = true ∧ s.answers = .hold :: []) ∧
    (∃ s : State, s.host = .tick :: []) ∧
    (∃ s t : State, (s.host = [] ∨ ∃ rest, s.host = .tick :: rest) ∧ step s = .next t) ∧
    (∃ s t : State, s.accepts = true ∧ Instr.fcnt.space = .command ∧ .hold ∉ s.answers ∧ exec .fcnt s = .next t) := by
  have h1 : outIs (step (parsing (ready [] [true] 1))) (fun _ => true) = true := by decide +kernel
  have h2 : outIs (exec .fcnt (ready [0x41] [] 2)) (fun _ => true) = true := by decide +kernel
  obtain ⟨t, e1, -⟩ := exists_of_outIs h1
  obtain ⟨u, e2, -⟩ := exists_of_outIs h2
  exact ⟨⟨{ withTree t4 State.reset with answers := [.hold] }, by decide⟩,
    ⟨{ State.reset with host := [.tick] }, rfl⟩, ⟨_, t, .inl rfl, e1⟩, ⟨_, u, by decide, rfl, by decide, e2⟩⟩

end Sys2Proof.Tests
end

/-! The proofs of the statements of 00_scope.md: encodings decode back, every step keeps the invariant, and a command is
made of single steps. The last two rest on one description of how a command starts, `StartsCommand`. -/

namespace Sys2Proof

open Machine

/-! ### Encodings decode back (R7, R67 to R69, R72 to R77) -/

/-- A command word is read by its opcode, whatever bits follow (R67, R68). -/
theorem decode_command_toBits (magic : Word) {op : Nat} (h : op < 16) (rest : List Bit) :
    decode magic .command (toBits 32 op ++ rest) = .ok (commandOfOpcode op, rest) := by
  have hop : op < 2 ^ 32 := by omega
  have hlen : ¬ (toBits 32 op ++ rest).length < 32 := by simp
  have hword : decodeCommand (BitVec.ofNat 32 op) = commandOfOpcode op := by
    rw [decodeCommand, BitVec.toNat_ofNat, Nat.mod_eq_of_lt hop, Nat.mod_eq_of_lt h]
  simp only [decode, decodeCommandBits]
  rw [if_neg hlen, List.take_left' (length_toBits 32 op), List.drop_left' (length_toBits 32 op),
    ofBits_toBits hop, hword]

/-- The field that holds MAGIC is read as the magic field (R72, R126). -/
theorem decode_magic_toBits (magic : Word) (rest : List Bit) :
    decode magic .magic (toBits 32 magic.toNat ++ rest) = .ok (.fileMagic, rest) := by
  have hlen : ¬ (toBits 32 magic.toNat ++ rest).length < 32 := by simp
  simp only [decode, decodeMagic]
  rw [if_neg hlen, List.take_left' (length_toBits ..), List.drop_left' (length_toBits ..),
    ofBits_toBits magic.isLt, if_pos rfl]

/-- A leaf field whose value the format uses is read back (R74, R77). -/
theorem decode_leaf_toBits (magic : Word) {v : BitVec 9} (hv : v.toNat ≤ 256) (rest : List Bit) :
    decode magic .node (false :: toBits 9 v.toNat ++ rest) = .ok (.fileNodeLeaf v, rest) := by
  have hlen : ¬ (toBits 9 v.toNat ++ rest).length < 9 := by simp
  simp only [decode, List.cons_append, decodeNode]
  rw [if_neg hlen, List.take_left' (length_toBits ..), List.drop_left' (length_toBits ..),
    ofBits_toBits v.isLt, if_pos hv, BitVec.ofNat_toNat, BitVec.setWidth_eq]

/-- The encoding of a command is the word of the opcode that selects it (R67 to R69). -/
theorem exists_opcode_of_command {i : Instr} (h : i.space = .command) :
    ∃ op < 16, commandOfOpcode op = i ∧ ∀ magic, encode magic i = toBits 32 op := by
  cases i with
  | reserved0 => exact ⟨0x0, by decide, rfl, fun _ => rfl⟩
  | encode => exact ⟨0x1, by decide, rfl, fun _ => rfl⟩
  | decode => exact ⟨0x2, by decide, rfl, fun _ => rfl⟩
  | fcnt => exact ⟨0x3, by decide, rfl, fun _ => rfl⟩
  | tbld => exact ⟨0x4, by decide, rfl, fun _ => rfl⟩
  | ctdr => exact ⟨0x5, by decide, rfl, fun _ => rfl⟩
  | tser => exact ⟨0x6, by decide, rfl, fun _ => rfl⟩
  | tdes => exact ⟨0x7, by decide, rfl, fun _ => rfl⟩
  | senc => exact ⟨0x8, by decide, rfl, fun _ => rfl⟩
  | sdec => exact ⟨0x9, by decide, rfl, fun _ => rfl⟩
  | mchk => exact ⟨0xA, by decide, rfl, fun _ => rfl⟩
  | reservedB => exact ⟨0xB, by decide, rfl, fun _ => rfl⟩
  | reservedC => exact ⟨0xC, by decide, rfl, fun _ => rfl⟩
  | reservedD => exact ⟨0xD, by decide, rfl, fun _ => rfl⟩
  | reservedE => exact ⟨0xE, by decide, rfl, fun _ => rfl⟩
  | reservedF => exact ⟨0xF, by decide, rfl, fun _ => rfl⟩
  | fileMagic => cases h
  | fileNodeInternal => cases h
  | fileNodeLeaf v => cases h

/-- Settles O2: one reading lemma for each of the three spaces. -/
theorem encodedInstructionDecodesBack : Obligations.EncodedInstructionDecodesBack := by
  intro magic i rest hwf
  cases hs : i.space with
  | command =>
    obtain ⟨op, hop, rfl, henc⟩ := exists_opcode_of_command hs
    rw [henc, decode_command_toBits magic hop]
  | magic =>
    cases i with
    | fileMagic => exact decode_magic_toBits magic rest
    | _ => cases hs
  | node =>
    cases i with
    | fileNodeInternal => rfl
    | fileNodeLeaf v => exact decode_leaf_toBits magic (of_decide_eq_true hwf) rest
    | _ => cases hs

/-- What a write to CMD selects is a command, never a field of the file format (R32, R67 to R69). -/
theorem decodeCommand_space (x : Word) : (decodeCommand x).space = .command := by
  unfold decodeCommand commandOfOpcode
  split <;> rfl

end Sys2Proof

namespace Sys2Proof.Machine

/-! ### How a command starts (R28, R30, R32, R69) -/

/-- What is common to the starts of all commands: `start` stays inside the block, it runs or takes a UsageError, and it
leads from between two commands into the invariant. -/
structure StartsCommand (op : BitVec 4) (start : State → State) : Prop where
  inside : Inside start
  begins : ∀ s, s.st = .busy → (start s).st = .busy ∨ ∃ sub info, start s = raise .usageError sub info s
  inv : ∀ s, s.Pre → s.cmd = op → (start s).Inv

@[simp] theorem flagsAtStart_st (u : UnitCmd) (s : State) : (flagsAtStart u s).st = s.st := by
  cases u <;> rfl

/-- A unit whose body keeps BUSY runs, or its "requires" column is not met (R28, R30). -/
theorem beginUnit_begins (u : UnitCmd) {body : State → State} (hbody : ∀ s, (body s).st = s.st) (s : State)
    (hb : s.st = .busy) :
    (beginUnit u body s).st = .busy ∨ ∃ sub info, beginUnit u body s = raise .usageError sub info s := by
  unfold beginUnit
  split
  · exact .inl (by rw [hbody, flagsAtStart_st, hb])
  · exact .inr ⟨_, _, rfl⟩

theorem emitTree_st (s : State) : (emitTree s).st = s.st := by
  unfold emitTree
  split <;> rfl

theorem startsCommand_fcnt {op : BitVec 4} (h : op ∈ [0x3, opEncode]) : StartsCommand op fcntStart where
  inside := inside_fcntStart
  begins := beginUnit_begins _ fun _ => rfl
  inv _ hs hc := inv_fcntStart hs (by rwa [State.running, hc])

theorem startsCommand_tbld : StartsCommand 0x4 tbldStart where
  inside := inside_tbldStart
  begins := beginUnit_begins _ fun _ => rfl
  inv _ hs hc := inv_tbldStart hs (by simp [State.running, hc])

theorem startsCommand_ctdr : StartsCommand 0x5 ctdrStart where
  inside := inside_ctdrStart
  begins := beginUnit_begins _ fun _ => rfl
  inv _ hs hc := inv_ctdrStart hs (by simp [State.running, hc])

theorem startsCommand_tser : StartsCommand 0x6 tserStart where
  inside := inside_tserStart
  begins := beginUnit_begins _ emitTree_st
  inv _ hs hc := inv_tserStart hs (by simp [State.running, hc])

theorem startsCommand_tdes : StartsCommand 0x7 tdesStart where
  inside := inside_tdesStart
  begins := beginUnit_begins _ fun _ => rfl
  inv _ hs hc := inv_tdesStart hs (by simp [State.running, hc])

theorem startsCommand_senc : StartsCommand 0x8 sencStart where
  inside := inside_sencStart
  begins := beginUnit_begins _ fun _ => rfl
  inv _ hs hc := inv_sencStart hs (by simp [State.running, hc])

theorem startsCommand_sdec : StartsCommand 0x9 sdecStart where
  inside := inside_sdecStart
  begins := beginUnit_begins _ fun _ => rfl
  inv _ hs hc := inv_sdecStart hs (by simp [State.running, hc])

theorem startsCommand_mchk {op : BitVec 4} (h : op ∈ [0xA, opDecode]) : StartsCommand op mchkStart where
  inside := inside_mchkStart
  begins := beginUnit_begins _ fun _ => rfl
  inv _ hs hc := inv_mchkStart hs (by rwa [State.running, hc])

theorem startsCommand_reserved (op : BitVec 4) : StartsCommand op (reservedStart op) where
  inside := inside_raise _ _ _
  begins _ _ := .inr ⟨0, op.toNat, rfl⟩
  inv _ hs _ := inv_raise_pre hs _ _ _

/-- The meaning of every command is `command` with a start of its own (R68, R69). -/
theorem exec_eq_command {i : Instr} (h : i.space = .command) :
    ∃ op start, StartsCommand op start ∧ ∀ s, exec i s = command op start s := by
  cases i with
  | encode => exact ⟨_, _, startsCommand_fcnt (by decide), fun _ => rfl⟩
  | decode => exact ⟨_, _, startsCommand_mchk (by decide), fun _ => rfl⟩
  | fcnt => exact ⟨_, _, startsCommand_fcnt (by decide), fun _ => rfl⟩
  | tbld => exact ⟨_, _, startsCommand_tbld, fun _ => rfl⟩
  | ctdr => exact ⟨_, _, startsCommand_ctdr, fun _ => rfl⟩
  | tser => exact ⟨_, _, startsCommand_tser, fun _ => rfl⟩
  | tdes => exact ⟨_, _, startsCommand_tdes, fun _ => rfl⟩
  | senc => exact ⟨_, _, startsCommand_senc, fun _ => rfl⟩
  | sdec => exact ⟨_, _, startsCommand_sdec, fun _ => rfl⟩
  | mchk => exact ⟨_, _, startsCommand_mchk (by decide), fun _ => rfl⟩
  | reserved0 => exact ⟨_, _, startsCommand_reserved 0x0, fun _ => rfl⟩
  | reservedB => exact ⟨_, _, startsCommand_reserved 0xB, fun _ => rfl⟩
  | reservedC => exact ⟨_, _, startsCommand_reserved 0xC, fun _ => rfl⟩
  | reservedD => exact ⟨_, _, startsCommand_reserved 0xD, fun _ => rfl⟩
  | reservedE => exact ⟨_, _, startsCommand_reserved 0xE, fun _ => rfl⟩
  | reservedF => exact ⟨_, _, startsCommand_reserved 0xF, fun _ => rfl⟩
  | fileMagic => cases h
  | fileNodeInternal => cases h
  | fileNodeLeaf v => cases h

/-! ### Every step keeps the invariant (R26, R29, R41) -/

theorem accepts_iff {s : State} : s.accepts = true ↔ s.st = .idle ∨ s.st = .done := by
  simp [State.accepts]

/-- Between two commands the invariant gives what the start of the next one needs. -/
theorem State.Inv.pre_of_accepts {s : State} (h : s.Inv) (ha : s.accepts = true) (op : BitVec 4) :
    State.Pre { s with cmd := op, st := .busy } where
  srcPos_le := h.srcPos_le
  binPos_le := h.binPos_le
  busy := rfl
  no_fault := h.no_fault (by rcases accepts_iff.mp ha with e | e <;> simp [e])
  tree_weighted := h.tree_weighted
  ct_table := h.ct_table
  legal := h.par_legal

theorem inv_command {s : State} (h : s.Inv) {op : BitVec 4} {start : State → State} (hc : StartsCommand op start) :
    KeepsInv s (command op start s) := by
  unfold command
  split
  · rename_i ha
    exact (inv_run s.answers (hc.inv _ (h.pre_of_accepts ha op) rfl)).trans (hc.inside.par _)
  · exact .next ⟨h, rfl⟩

theorem inv_exec {s : State} (h : s.Inv) {i : Instr} (hi : i.space = .command) : KeepsInv s (exec i s) := by
  obtain ⟨op, start, hc, he⟩ := exec_eq_command hi
  rw [he]
  exact inv_command h hc

theorem inv_writeReg {s : State} (h : s.Inv) (n : Fin 4) (x : Word) : KeepsInv s (writeReg n x s) := by
  unfold writeReg
  split
  · exact inv_exec h (decodeCommand_space x)
  all_goals exact .next ⟨h, rfl⟩

theorem inv_busWrite {s : State} (h : s.Inv) (addr : Nat) (x : Word) : KeepsInv s (busWrite addr x s) := by
  unfold busWrite
  split
  · exact inv_writeReg h _ x
  · exact .next ⟨h, rfl⟩

theorem inv_resume {s : State} (h : s.Inv) : KeepsInv s (resume s) := by
  unfold resume
  split
  · exact inv_run _ h
  · exact .next ⟨h, rfl⟩

/-- The invariant asks of the streams only that the read positions lie within them. -/
theorem State.Inv.withEnv {s : State} (h : s.Inv) {e : Env} (h1 : e.srcPos ≤ e.src.length)
    (h2 : e.binPos ≤ e.bin.length) : (s.withEnv e).Inv :=
  { h with srcPos_le := h1, binPos_le := h2, seq := h.seq }

theorem inv_unlessBusy {s : State} (h : s.Inv) {f : State → State} (hf : (f s).Inv) : (unlessBusy f s).Inv := by
  unfold unlessBusy
  split
  · exact h
  · exact hf

theorem unlessBusy_par {s : State} {f : State → State} (hf : (f s).par = s.par) : (unlessBusy f s).par = s.par := by
  unfold unlessBusy
  split
  · rfl
  · exact hf

/-- Every action of the host keeps the invariant, and only a finite W stops the command it lets run (R41, U3). -/
theorem inv_hostAct {s : State} (h : s.Inv) (act : HostAct) : KeepsInv s (hostAct act s) := by
  cases act with
  | pass => exact inv_resume h
  | tick => exact inv_blockStep h
  | write n x => exact inv_writeReg h n x
  | read n => exact .next ⟨h, rfl⟩
  | busWrite addr x => exact inv_busWrite h addr x
  | busRead addr => exact .next ⟨h, rfl⟩
  | reset => exact .next ⟨inv_applyReset h.srcPos_le h.binPos_le h.par_legal, rfl⟩
  | setSrc bytes pos =>
    exact .next ⟨h.withEnv (e := { s.env with src := bytes, srcPos := min pos bytes.length })
      (Nat.min_le_right ..) h.binPos_le, rfl⟩
  | setBin bits pos =>
    exact .next ⟨inv_unlessBusy h (h.withEnv (e := { s.env with bin := bits, binPos := min pos bits.length })
      h.srcPos_le (Nat.min_le_right ..)), unlessBusy_par rfl⟩
  | takeBout =>
    exact .next ⟨inv_unlessBusy h (h.withEnv (e := { s.env with bout := [] }) h.srcPos_le h.binPos_le),
      unlessBusy_par rfl⟩
  | takeDst =>
    exact .next ⟨inv_unlessBusy h (h.withEnv (e := { s.env with dst := [] }) h.srcPos_le h.binPos_le),
      unlessBusy_par rfl⟩

/-- Every step keeps the invariant and the parameters, or is refused for a finite W (R41, U3). -/
theorem inv_step {s : State} (h : s.Inv) : KeepsInv s (step s) := by
  unfold step stepHost
  split
  · exact inv_blockStep h
  · rename_i act rest _
    exact inv_hostAct (h.congr s.answers rest) act

/-- Settles O57: `inv_step`, the invariant alone. -/
theorem everyStepKeepsTheInvariant : Obligations.EveryStepKeepsTheInvariant := fun _ h =>
  (inv_step h).imp fun _ _ ht => ht.1

/-! ### A command is made of single steps (R9, R36, R61, R172) -/

theorem sameStreams_of_env {s t : State} (h : t.env = s.env) : s.sameStreams t :=
  ⟨congrArg Env.src h, congrArg Env.srcPos h, congrArg Env.bin h, congrArg Env.binPos h, congrArg Env.bout h,
    congrArg Env.dst h⟩

theorem State.sameStreams.refl (s : State) : s.sameStreams s := ⟨rfl, rfl, rfl, rfl, rfl, rfl⟩

/-- The queues are no streams. -/
theorem State.sameStreams.queues {s t : State} (h : s.sameStreams t) {as as' : List Answer} {hs hs' : List HostAct} :
    State.sameStreams { s with answers := as, host := hs } { t with answers := as', host := hs' } :=
  ⟨h.1, h.2, h.3, h.4, h.5, h.6⟩

/-- The low four bits of FAULT_CAUSE are the class of the fault (R34, R152). -/
theorem raise_cause (F : FaultClass) (sub info : Nat) (s : State) :
    (raise F sub info s).faultCause.toNat % 16 = F.code := by
  have hF : F.code < 16 := by cases F <;> decide
  rw [raise_faultCause, BitVec.toNat_ofNat]
  omega

/-- A CMD write that the collaborator holds does no more than start the command (R172). -/
theorem command_hold {s : State} (ha : s.accepts = true) {as : List Answer} (hr : s.answers = .hold :: as)
    (op : BitVec 4) (start : State → State) :
    command op start s = .next { start { s with cmd := op, st := .busy } with
      answers := if (start { s with cmd := op, st := .busy }).st = .busy then as else .hold :: as } := by
  rw [command_oks ha hr, run_hold_any]

/-- Held right after its CMD write, a command is BUSY, or has taken a UsageError, and no stream has moved. -/
theorem exec_hold {i : Instr} {s : State} {as : List Answer} (ha : s.accepts = true) (hi : i.space = .command)
    (hr : s.answers = .hold :: as) :
    ∃ u, exec i s = .next u ∧ s.sameStreams u ∧
      ((u.st = .busy ∧ u.answers = as) ∨
        (u.st = .fault ∧ u.faultCause.toNat % 16 = 5 ∧ u.answers = s.answers)) := by
  obtain ⟨op, start, hc, he⟩ := exec_eq_command hi
  have hstreams : s.sameStreams (start { s with cmd := op, st := .busy }) :=
    sameStreams_of_env (hc.inside.env_eq { s with cmd := op, st := .busy })
  refine ⟨_, (he s).trans (command_hold ha hr op start), hstreams.queues, ?_⟩
  rcases hc.begins { s with cmd := op, st := .busy } rfl with hb | ⟨sub, info, hf⟩
  · exact .inl ⟨hb, if_pos hb⟩
  · have hst : (start { s with cmd := op, st := .busy }).st = .fault := by rw [hf]; rfl
    refine .inr ⟨hst, ?_, ?_⟩
    · show (start { s with cmd := op, st := .busy }).faultCause.toNat % 16 = 5
      rw [hf]; exact raise_cause ..
    · exact (if_neg (by rw [hst]; simp)).trans hr.symm

/-- A held CTDR whose "requires" is met is BUSY before CD_WALK (R28, R109). -/
theorem exec_ctdr_hold {s : State} {as : List Answer} (ha : s.accepts = true) (ht : s.treeValid = true)
    (hr : s.answers = .hold :: as) :
    exec .ctdr s = .next { s with
      eofSeen := false, ctValid := false, cmd := 0x5, phase := .cdWalk, st := .busy, pend := none, answers := as } := by
  show command 0x5 ctdrStart s = _
  rw [command_hold ha hr, ctdr_start (s := { s with cmd := 0x5, st := .busy }) ht]
  rfl

/-- From `s` to `t` no answer is used and no stream moves, or one answer is used and at most the stream of the
transaction it answers moves (R9, R61). -/
def MovesOnce (s t : State) : Prop :=
  (t.answers = s.answers ∧ s.sameStreams t) ∨
    ∃ a, s.answers = a :: t.answers ∧
      (s.sameStreams t ∨ (a = .ok ∧ ∃ x, s.pend = some x ∧ (perform x s).2.sameStreams t))

/-- The host's queue does not matter to what is moved. -/
theorem MovesOnce.host {s t : State} {hs hs' : List HostAct} (h : MovesOnce { s with host := hs } t) :
    MovesOnce s { t with host := hs' } := by
  rcases h with ⟨ha, hm⟩ | ⟨a, ha, hm | ⟨hok, x, hp, hm⟩⟩
  · exact .inl ⟨ha, hm.queues⟩
  · exact .inr ⟨a, ha, .inl hm.queues⟩
  · have hx := perform_queues x s s.answers hs
    rw [hx] at hm
    exact .inr ⟨a, ha, .inr ⟨hok, x, hp, hm.queues⟩⟩

theorem blockStep_movesOnce {s t : State} (h : blockStep s = .next t) : MovesOnce s t := by
  rcases blockStep_cases h with rfl | ⟨-, hi⟩ | ⟨as, hr, rfl⟩ | ⟨fails, as, hr, ht⟩
  · exact .inl ⟨rfl, .refl _⟩
  · have he := insideOut_internal.env_eq hi
    exact .inl ⟨congrArg Env.answers he, sameStreams_of_env he⟩
  · exact .inr ⟨.hold, hr, .inl (State.sameStreams.refl s).queues⟩
  · obtain ⟨hans, -, -, -, x, hp, hm⟩ := transact_keeps ht
    refine .inr ⟨_, hr.trans (by rw [hans]), ?_⟩
    cases fails with
    | true => exact .inl hm.queues
    | false =>
      rw [if_neg Bool.false_ne_true, perform_queues x s as s.host] at hm
      exact .inr ⟨rfl, x, hp, hm.queues⟩

/-- So it is with a step in which the host does nothing (R9). -/
theorem step_movesOnce {s t : State} (hh : s.host = [] ∨ ∃ rest, s.host = .tick :: rest) (h : step s = .next t) :
    MovesOnce s t := by
  obtain hh | ⟨rest, hh⟩ := hh
  · exact blockStep_movesOnce ((step_block hh).symm.trans h)
  · rw [step_tick hh] at h
    obtain ⟨u, hu, hut⟩ := andThen_eq_next.mp h
    cases hut
    exact (blockStep_movesOnce ((step_block rfl).symm.trans hu)).host

/-- What a command does under a script without a `hold`, single steps do from where a `hold` right after the CMD write
leaves it (R9, R61). -/
theorem exec_steps {i : Instr} {s t : State} (ha : s.accepts = true) (hi : i.space = .command)
    (hh : .hold ∉ s.answers) (h : exec i s = .next t) :
    ∃ u n, exec i { s with answers := .hold :: s.answers } = .next u ∧
      steps n { u with host := [], answers := s.answers } = .next { t with host := [] } := by
  obtain ⟨op, start, hc, he⟩ := exec_eq_command hi
  rw [he, command_run ha] at h
  obtain ⟨n, hn⟩ := run_steps s.answers hh h
  have hu := command_hold (s := { s with answers := .hold :: s.answers }) ha rfl op start
  have hstart : start { s with answers := .hold :: s.answers, cmd := op, st := .busy }
      = { start { s with cmd := op, st := .busy } with answers := .hold :: s.answers } :=
    hc.inside.answers { s with cmd := op, st := .busy } (.hold :: s.answers)
  rw [hstart] at hu
  exact ⟨_, n, (he _).trans hu, hn⟩

/-- Settles O60: a lemma for each clause, those over every command by `exec_eq_command`. -/
theorem commandRunsAsSingleSteps : Obligations.CommandRunsAsSingleSteps :=
  ⟨fun _ _ _ ha hi hr => exec_hold ha hi hr, fun _ _ ha ht hr => exec_ctdr_hold ha ht hr,
    fun _ _ hh => step_tick hh, fun _ _ hh h => step_movesOnce hh h, fun _ _ _ ha hi hh h => exec_steps ha hi hh h⟩

end Sys2Proof.Machine

/-! The proofs of the statements of 10_state.md: what a decoder accepts, the step that a CMD write is, the registers, and
what every step keeps of the fault registers and of the streams. The last two rest on `step_of_fault` and on
`MovesForward`, what a part of the block's work may do to the streams. -/

namespace Sys2Proof

open Machine

/-! ### What a decoder accepts is an encoding (R32, R72 to R77, R126) -/

theorem drop_toBits (k n v : Nat) : (toBits (n + k) v).drop k = toBits n v := by
  induction k with
  | zero => rfl
  | succ k ih => exact ih

/-- The first n bits of a string are `bin_n` of the value read from them (R45). -/
theorem toBits_ofBits_take {n : Nat} {bits : List Bit} (h : n ≤ bits.length) :
    toBits n (ofBits (bits.take n)) = bits.take n := by
  have hr := toBits_ofBits (bits.take n)
  rwa [List.length_take_of_le h] at hr

theorem ofBits_take_lt {n : Nat} {bits : List Bit} (h : n ≤ bits.length) : ofBits (bits.take n) < 2 ^ n := by
  have hlt := ofBits_lt (bits.take n)
  rwa [List.length_take_of_le h] at hlt

/-- The encoding of a command is its opcode under zeros (R67, R68). -/
theorem encode_commandOfOpcode (magic : Word) {op : Nat} (h : op < 16) :
    encode magic (commandOfOpcode op) = toBits 32 op := by
  interval_cases op <;> rfl

theorem decodeNode_ok {magic : Word} {bits : List Bit} {i : Instr} {rest : List Bit}
    (h : decode magic .node bits = .ok (i, rest)) :
    i.wf = true ∧ i.space = .node ∧ bits = encode magic i ++ rest := by
  match bits with
  | [] => cases h
  | true :: bits => cases h; exact ⟨rfl, rfl, rfl⟩
  | false :: bits =>
    simp only [decode, decodeNode] at h
    split at h
    · cases h
    · rename_i hlen
      have hlen : 9 ≤ bits.length := Nat.le_of_not_lt hlen
      split at h
      · rename_i hv
        cases h
        have hval : (BitVec.ofNat 9 (ofBits (bits.take 9))).toNat = ofBits (bits.take 9) :=
          Nat.mod_eq_of_lt (ofBits_take_lt hlen)
        refine ⟨?_, rfl, ?_⟩
        · exact decide_eq_true (hval.trans_le hv)
        · rw [encode, hval, toBits_ofBits_take hlen, List.cons_append, List.take_append_drop]
      · cases h

theorem decodeMagic_ok {magic : Word} {bits : List Bit} {i : Instr} {rest : List Bit}
    (h : decode magic .magic bits = .ok (i, rest)) : i = .fileMagic ∧ bits = encode magic i ++ rest := by
  simp only [decode, decodeMagic] at h
  split at h
  · cases h
  · rename_i hlen
    split at h
    · rename_i hv
      cases h
      refine ⟨rfl, ?_⟩
      rw [encode, ← hv, toBits_ofBits_take (Nat.le_of_not_lt hlen), List.take_append_drop]
    · cases h

/-- Of a command word only the last four bits count (R32). -/
theorem decodeCommandBits_ok {magic : Word} {bits : List Bit} {i : Instr} {rest : List Bit}
    (h : decode magic .command bits = .ok (i, rest)) :
    i.space = .command ∧ bits.drop 28 = (encode magic i).drop 28 ++ rest := by
  simp only [decode, decodeCommandBits] at h
  split at h
  · cases h
  · rename_i hlen
    cases h
    have hlen : 32 ≤ bits.length := Nat.le_of_not_lt hlen
    refine ⟨decodeCommand_space _, ?_⟩
    have hopcode : (encode magic (decodeCommand (BitVec.ofNat 32 (ofBits (bits.take 32))))).drop 28
        = (bits.take 32).drop 28 := by
      have hlow : ∀ v, toBits 4 (v % 16) = toBits 4 v := fun v => toBits_mod 4 v 4 le_rfl
      rw [decodeCommand, BitVec.toNat_ofNat, Nat.mod_eq_of_lt (ofBits_take_lt hlen),
        encode_commandOfOpcode magic (Nat.mod_lt _ (by decide)), drop_toBits 28 4, hlow,
        ← drop_toBits 28 4, toBits_ofBits_take hlen]
    have hsplit := congrArg (List.drop 28) (List.take_append_drop 32 bits)
    rw [List.drop_append_of_le_length (by rw [List.length_take_of_le hlen]; decide)] at hsplit
    rw [hopcode, hsplit]

/-- A leaf value that the format does not use is rejected with the value (R77, R103). -/
theorem decode_reserved_symbol (magic : Word) {v : Nat} (rest : List Bit) (hv : 256 < v) (h : v < 512) :
    decode magic .node (false :: (toBits 9 v ++ rest)) = .error (.reservedSymbol v) := by
  have hlen : ¬ (toBits 9 v ++ rest).length < 9 := by simp
  simp only [decode, decodeNode]
  rw [if_neg hlen, List.take_left' (length_toBits ..), ofBits_toBits h, if_neg (by omega)]

theorem decode_truncated_symbol (magic : Word) {bits : List Bit} (h : bits.length < 9) :
    decode magic .node (false :: bits) = .error .truncatedSymbol := if_pos h

/-- A 32-bit value other than MAGIC is rejected with the value (R126). -/
theorem decode_not_magic {magic : Word} {v : Nat} (rest : List Bit) (h : v < 2 ^ 32) (hv : v ≠ magic.toNat) :
    decode magic .magic (toBits 32 v ++ rest) = .error (.notMagic v) := by
  have hlen : ¬ (toBits 32 v ++ rest).length < 32 := by simp
  simp only [decode, decodeMagic]
  rw [if_neg hlen, List.take_left' (length_toBits ..), ofBits_toBits h, if_neg hv]

theorem decode_truncated_magic (magic : Word) {bits : List Bit} (h : bits.length < 32) :
    decode magic .magic bits = .error .truncated := if_pos h

/-- Settles O3: a lemma for what each of the three decoders accepts, and one for each reason to reject. -/
theorem decoderAcceptsOnlyEncodings : Obligations.DecoderAcceptsOnlyEncodings := fun magic =>
  ⟨fun _ _ _ h => decodeNode_ok h, fun _ _ _ h => decodeMagic_ok h, fun _ _ _ h => decodeCommandBits_ok h,
    fun _ rest hv h => decode_reserved_symbol magic rest hv h, rfl, fun _ h => decode_truncated_symbol magic h,
    fun _ rest h hv => decode_not_magic rest h hv, fun _ h => decode_truncated_magic magic h⟩

/-- A word of 32 bits other than FILE.MAGIC is read as the command it selects (R67; assumption 7). -/
theorem decodeTableWord_command {w : Nat} (h : w < 2 ^ 32) (hm : w ≠ 1846) :
    decodeTableWord 32 w = some (decodeCommand (BitVec.ofNat 32 w)) := by
  have hd : decode Config.magic .command (toBits 32 w) = .ok (decodeCommand (BitVec.ofNat 32 w), []) := by
    simp only [decode, decodeCommandBits]
    rw [if_neg (by simp), List.take_of_length_le (by simp), List.drop_of_length_le (by simp), ofBits_toBits h]
  have hne : w ≠ Config.magic.toNat := hm
  simp only [decodeTableWord, if_neg hne, hd]

end Sys2Proof

namespace Sys2Proof.Machine

/-! ### The step that a host action is (R31, R32, R67) -/

theorem step_cons {s : State} {act : HostAct} {rest : List HostAct} (hh : s.host = act :: rest) :
    step s = hostAct act { s with host := rest } := by
  simp [step, stepHost, hh]

/-- Register n stands at CSR_BASE + 4 n, and nothing else is mapped (R31; assumption 22). -/
theorem regOfAddr_eq_some_iff {s : State} {addr : Nat} {n : Fin 4} :
    s.regOfAddr addr = some n ↔ ∃ base, s.par.csrBase = some base ∧ addr = base + 4 * n.val := by
  unfold State.regOfAddr
  cases s.par.csrBase with
  | none => simp
  | some base =>
    have hn : n = 0 ∨ n = 1 ∨ n = 2 ∨ n = 3 := by omega
    rcases hn with rfl | rfl | rfl | rfl <;> grind

theorem busWrite_of_reg {s : State} {addr : Nat} {n : Fin 4} (h : s.regOfAddr addr = some n) (x : Word) :
    busWrite addr x s = writeReg n x s := by
  simp [busWrite, h]

theorem busWrite_unmapped {s : State} {addr : Nat} (h : s.regOfAddr addr = none) (x : Word) :
    busWrite addr x s = .next s := by
  simp [busWrite, h]

theorem regOfAddr_base {s : State} {base : Nat} (hb : s.par.csrBase = some base) (n : Fin 4) :
    s.regOfAddr (base + 4 * n.val) = some n :=
  regOfAddr_eq_some_iff.mpr ⟨base, hb, rfl⟩

/-- A bus write at CSR_BASE + 4 n is a write of register n (R31). -/
theorem step_busWrite {s : State} {base : Nat} {n : Fin 4} {x : Word} {rest : List HostAct}
    (hb : s.par.csrBase = some base) (hh : s.host = .busWrite (base + 4 * n.val) x :: rest) :
    step s = writeReg n x { s with host := rest } :=
  (step_cons hh).trans (busWrite_of_reg (regOfAddr_base (s := { s with host := rest }) hb n) x)

/-- The three registers other than CMD are read-only (R33 to R35). -/
theorem writeReg_of_ne_zero {n : Fin 4} (hn : n ≠ 0) (x : Word) (s : State) : writeReg n x s = .next s := by
  unfold writeReg
  split
  · exact absurd rfl hn
  all_goals rfl

/-- Settles O4. -/
theorem stepRunsTheCommandWritten : Obligations.StepRunsTheCommandWritten :=
  ⟨fun _ _ _ hh => step_cons hh, fun _ _ _ _ hb hh => step_busWrite (n := 0) hb hh,
    fun _ _ h => congrArg commandOfOpcode h⟩

/-- Every word that is read as a command is placed as the host's next write to CMD (assumption 5). -/
theorem placeWord_command {s : State} {nbits w : Nat} {i : Instr} (h : decodeTableWord nbits w = some i)
    (hi : i.space = .command) : placeWord s nbits w = placeCommand w s := by
  unfold placeWord
  rw [h]
  cases i with
  | fileMagic => cases hi
  | fileNodeInternal => cases hi
  | fileNodeLeaf v => cases hi
  | _ => rfl

/-- Settles O6: the word is placed as a CMD write, which the next step takes. -/
theorem placedCommandRunsNext : Obligations.PlacedCommandRunsNext := by
  intro s w h hm
  have hplace : s.withFetchWord 32 w = placeCommand w s :=
    placeWord_command (decodeTableWord_command h hm) (decodeCommand_space _)
  rw [hplace, step_cons rfl]
  rfl

/-! ### The registers (R31 to R36) -/

/-- Bit i of a word is b where the word's value says so. -/
theorem getLsbD_of_toNat {x : Word} {i : Nat} {b : Bool} (h : x.toNat / 2 ^ i % 2 = b.toNat) : x.getLsbD i = b := by
  rw [BitVec.getLsbD, Nat.testBit_eq_decide_div_mod_eq, h]
  cases b <;> rfl

/-- STATUS is a sum of fields of which each stays below the next (R33). -/
theorem statusWord_fields (s : State) :
    s.statusWord.toNat % 4 = s.st.code ∧ s.statusWord.getLsbD 2 = s.ftValid ∧ s.statusWord.getLsbD 3 = s.treeValid ∧
      s.statusWord.getLsbD 4 = s.ctValid ∧ s.statusWord.getLsbD 5 = s.eofSeen ∧ s.statusWord.toNat < 2 ^ 6 := by
  have hcode : s.st.code < 4 := by cases s.st <;> decide
  have hf := s.ftValid.toNat_lt
  have ht := s.treeValid.toNat_lt
  have hc := s.ctValid.toNat_lt
  have he := s.eofSeen.toNat_lt
  have hsum : s.statusWord.toNat = s.st.code + 4 * s.ftValid.toNat + 8 * s.treeValid.toNat + 16 * s.ctValid.toNat
      + 32 * s.eofSeen.toNat := by
    rw [State.statusWord, BitVec.toNat_ofNat]
    exact Nat.mod_eq_of_lt (by omega)
  exact ⟨by omega, getLsbD_of_toNat (by omega), getLsbD_of_toNat (by omega), getLsbD_of_toNat (by omega),
    getLsbD_of_toNat (by omega), by omega⟩

theorem getLsbD_of_lt {x : Word} {n i : Nat} (hx : x.toNat < 2 ^ n) (hi : n ≤ i) : x.getLsbD i = false :=
  Nat.testBit_lt_two_pow (hx.trans_le (Nat.pow_le_pow_right (by decide) hi))

theorem readBus_base {s : State} {base : Nat} (hb : s.par.csrBase = some base) (n : Fin 4) :
    s.readBus (base + 4 * n.val) = some (s.readReg n) := by
  rw [State.readBus, regOfAddr_base hb n, Option.map_some]

/-- Settles O7: the fields of STATUS, and that an access to register 1 has no effect. -/
theorem statusShowsStateAndFlags : Obligations.StatusShowsStateAndFlags := by
  intro s
  obtain ⟨hst, hft, htree, hct, heof, hlt⟩ := statusWord_fields s
  refine ⟨hst, hft, htree, hct, heof, fun _ => getLsbD_of_lt hlt, fun _ => step_cons,
    fun _ _ => step_cons, fun base hb => ⟨readBus_base hb 1, fun _ => step_cons, fun _ _ hh => ?_⟩⟩
  exact step_busWrite (n := 1) hb hh

/-- Settles O8: what the registers show, and where the bus finds them. -/
theorem registersShowCmdAndFault : Obligations.RegistersShowCmdAndFault := by
  intro s
  refine ⟨?_, ?_, rfl, fun _ _ => step_cons, fun _ _ => step_cons, fun _ _ => step_cons, fun _ _ => step_cons,
    fun base n hb => ⟨readBus_base hb n, fun x rest hh => ?_, fun x rest hn hh => ?_⟩, fun addr hother => ?_⟩
  · exact BitVec.toNat_setWidth_of_le (by decide)
  · exact BitVec.toNat_setWidth_of_le (by decide)
  · rw [step_busWrite hb hh, step_cons rfl]
    rfl
  · rw [step_busWrite hb hh, writeReg_of_ne_zero hn]
  · have hnone : s.regOfAddr addr = none := by
      refine Option.eq_none_iff_forall_ne_some.mpr fun n hn => ?_
      obtain ⟨base, hb, haddr⟩ := regOfAddr_eq_some_iff.mp hn
      exact hother base n hb haddr
    refine ⟨by rw [State.readBus, hnone, Option.map_none], fun x rest hh => ?_⟩
    exact (step_cons hh).trans (busWrite_unmapped (s := { s with host := rest }) hnone x)

/-- Settles O18. -/
theorem resetStateIsIdle : Obligations.ResetStateIsIdle :=
  ⟨rfl, rfl, rfl, rfl, rfl, rfl, rfl, rfl, rfl, rfl⟩

/-- Settles O56: the state at power-on is its own reset. -/
theorem invariantHoldsAtReset : Obligations.InvariantHoldsAtReset :=
  inv_applyReset (s := State.reset) le_rfl le_rfl rfl

/-! ### A precondition that is not met (R30) -/

/-- A unit whose "requires" column is not met raises UsageError at once, with no stream moved and no answer used. -/
theorem unmet_raisesUsageError {s : State} {u : UnitCmd} (ha : s.accepts = true) (hr : requires u s = false)
    (body : State → State) :
    ∃ t, command u.opcode (beginUnit u body) s = .next t ∧ t.tookFault 5 1 u.opcode.toNat ∧
      t.cmd.toNat = u.opcode.toNat ∧ s.sameStreams t ∧ t.answers = s.answers ∧ t.host = s.host ∧ t.par = s.par := by
  have hr' : requires u { s with cmd := u.opcode, st := .busy } = false := by
    rw [← hr]; cases u <;> rfl
  have hop : u.opcode.toNat < 2 ^ 32 := u.opcode.isLt.trans (by decide)
  exact ⟨_, command_raise ha _ _ .usageError 1 u.opcode.toNat (if_neg (by simp [hr'])),
    tookFault_raise .usageError 1 _ _ (by decide) hop, rfl, ⟨rfl, rfl, rfl, rfl, rfl, rfl⟩, rfl, rfl, rfl⟩

/-- Settles O13: the five units with a precondition. -/
theorem unmetPreconditionRaisesUsageError : Obligations.UnmetPreconditionRaisesUsageError := by
  intro s e ha he hunmet
  simp only [List.mem_cons, List.not_mem_nil, or_false] at he
  rcases he with rfl | rfl | rfl | rfl | rfl
  · exact unmet_raisesUsageError (u := .tbld) ha hunmet _
  · exact unmet_raisesUsageError (u := .ctdr) ha hunmet _
  · exact unmet_raisesUsageError (u := .tser) ha hunmet _
  · exact unmet_raisesUsageError (u := .senc) ha hunmet _
  · exact unmet_raisesUsageError (u := .sdec) ha hunmet _

/-! ### CMD holds the opcode written (R32) -/

/-- `exec_eq_command` with its opcode named: the command that an opcode selects stores this opcode (R32, R68, R69). -/
theorem exec_commandOfOpcode (op : BitVec 4) :
    ∃ start, StartsCommand op start ∧ ∀ s, exec (commandOfOpcode op.toNat) s = command op start s := by
  obtain ⟨op, hop⟩ := op
  match op, hop with
  | 0x0, _ => exact ⟨_, startsCommand_reserved 0x0, fun _ => rfl⟩
  | 0x1, _ => exact ⟨_, startsCommand_fcnt (op := 0x1) (by decide), fun _ => rfl⟩
  | 0x2, _ => exact ⟨_, startsCommand_mchk (op := 0x2) (by decide), fun _ => rfl⟩
  | 0x3, _ => exact ⟨_, startsCommand_fcnt (op := 0x3) (by decide), fun _ => rfl⟩
  | 0x4, _ => exact ⟨_, startsCommand_tbld, fun _ => rfl⟩
  | 0x5, _ => exact ⟨_, startsCommand_ctdr, fun _ => rfl⟩
  | 0x6, _ => exact ⟨_, startsCommand_tser, fun _ => rfl⟩
  | 0x7, _ => exact ⟨_, startsCommand_tdes, fun _ => rfl⟩
  | 0x8, _ => exact ⟨_, startsCommand_senc, fun _ => rfl⟩
  | 0x9, _ => exact ⟨_, startsCommand_sdec, fun _ => rfl⟩
  | 0xA, _ => exact ⟨_, startsCommand_mchk (op := 0xA) (by decide), fun _ => rfl⟩
  | 0xB, _ => exact ⟨_, startsCommand_reserved 0xB, fun _ => rfl⟩
  | 0xC, _ => exact ⟨_, startsCommand_reserved 0xC, fun _ => rfl⟩
  | 0xD, _ => exact ⟨_, startsCommand_reserved 0xD, fun _ => rfl⟩
  | 0xE, _ => exact ⟨_, startsCommand_reserved 0xE, fun _ => rfl⟩
  | 0xF, _ => exact ⟨_, startsCommand_reserved 0xF, fun _ => rfl⟩
  | n + 16, hlt => exact absurd hlt (by omega)

/-- Bits [31:4] of the word written do not count (R32). -/
theorem decodeCommand_eq_setWidth (x : Word) : decodeCommand x = commandOfOpcode (x.setWidth 4).toNat := by
  rw [decodeCommand, BitVec.toNat_setWidth]

/-- No part of a run changes CMD, which tells the units the command they work for (R32; assumption 17). -/
theorem run_keeps_cmd {as : List Answer} {s t : State} (h : run as s = .next t) : t.cmd = s.cmd :=
  run_preserves (P := fun u => u.cmd = s.cmd) (fun _ _ hu hi => (insideOut_internal.cmd _ _ hi).trans hu)
    (fun _ _ _ hu _ ht => by obtain ⟨-, -, hcmd, -⟩ := transact_keeps ht; exact hcmd.trans hu)
    (fun _ _ hu => hu) as s t rfl h

theorem command_cmd {op : BitVec 4} {start : State → State} {s t : State} (hc : Inside start) (ha : s.accepts = true)
    (h : command op start s = .next t) : t.cmd = op := by
  rw [command_run ha] at h
  exact (run_keeps_cmd h).trans (hc.cmd _)

/-- Settles O10: the CMD write stores the opcode, and no part of the run changes it. -/
theorem cmdStoresTheOpcode : Obligations.CmdStoresTheOpcode := by
  intro s t x rest ha hh h
  obtain ⟨start, hc, he⟩ := exec_commandOfOpcode (x.setWidth 4)
  have hexec : command (x.setWidth 4) start { s with host := rest } = .next t := by
    rw [← he, ← decodeCommand_eq_setWidth, ← h, step_cons hh]
    rfl
  have hcmd : t.cmd = x.setWidth 4 := command_cmd (s := { s with host := rest }) hc.inside ha hexec
  refine ⟨hcmd, ?_⟩
  show (t.cmd.setWidth 32).toNat = x.toNat % 16
  rw [hcmd, BitVec.toNat_setWidth_of_le (by decide), BitVec.toNat_setWidth]

/-! ### FAULT (R34, R35, R162, R163, R167) -/

/-- In FAULT a command is not taken (R163). -/
theorem exec_of_fault {s : State} (hf : s.st = .fault) {i : Instr} (hi : i.space = .command) : exec i s = .next s := by
  obtain ⟨op, start, -, he⟩ := exec_eq_command hi
  have ha : ¬ s.accepts = true := by simp [State.accepts, hf]
  rw [he, command, if_neg ha]

theorem writeReg_of_fault {s : State} (hf : s.st = .fault) (n : Fin 4) (x : Word) : writeReg n x s = .next s := by
  unfold writeReg
  split
  · exact exec_of_fault hf (decodeCommand_space x)
  all_goals rfl

theorem busWrite_of_fault {s : State} (hf : s.st = .fault) (addr : Nat) (x : Word) : busWrite addr x s = .next s := by
  unfold busWrite
  split
  · exact writeReg_of_fault hf _ x
  · rfl

/-- In FAULT every action of the host but the reset leaves all that is inside the block (R163). -/
theorem hostAct_of_fault {act : HostAct} {s t : State} (hf : s.st = .fault) (hact : act ≠ .reset)
    (h : hostAct act s = .next t) : t = s.withEnv t.env := by
  have hb : s.st ≠ .busy := by simp [hf]
  cases act with
  | reset => exact absurd rfl hact
  | pass => rw [hostAct, resume, if_neg hb] at h; cases h; rfl
  | tick => rw [hostAct, blockStep, if_neg hb] at h; cases h; rfl
  | write n x => rw [hostAct, writeReg_of_fault hf] at h; cases h; rfl
  | busWrite addr x => rw [hostAct, busWrite_of_fault hf] at h; cases h; rfl
  | read n => cases h; rfl
  | busRead addr => cases h; rfl
  | setSrc bytes pos => cases h; rfl
  | setBin bits pos => rw [hostAct, unlessBusy, if_neg hb] at h; cases h; rfl
  | takeBout => rw [hostAct, unlessBusy, if_neg hb] at h; cases h; rfl
  | takeDst => rw [hostAct, unlessBusy, if_neg hb] at h; cases h; rfl

/-- A step from FAULT is the reset, or it changes nothing inside the block (R163, R167). -/
theorem step_of_fault {s t : State} (hf : s.st = .fault) (h : step s = .next t) :
    (∃ rest, s.host = .reset :: rest ∧ t = applyReset { s with host := rest }) ∨ t = s.withEnv t.env := by
  cases hh : s.host with
  | nil =>
    rw [step_block hh, blockStep, if_neg (by simp [hf])] at h
    cases h
    exact .inr rfl
  | cons act rest =>
    rw [step_cons hh] at h
    by_cases hact : act = .reset
    · subst hact
      cases h
      exact .inl ⟨rest, rfl, rfl⟩
    · exact .inr (hostAct_of_fault (s := { s with host := rest }) hf hact h)

theorem inv_of_step {s t : State} (hs : s.Inv) (h : step s = .next t) : t.Inv ∧ t.par = s.par := by
  rcases inv_step hs with ⟨u, hu, hinv⟩ | ⟨hrefused, -⟩
  · rw [h] at hu
    cases hu
    exact hinv
  · rw [h] at hrefused
    cases hrefused

/-- Settles O9: outside FAULT both registers are 0, and in FAULT only the reset changes them. -/
theorem faultRegistersChangeOnlyByFaultOrReset : Obligations.FaultRegistersChangeOnlyByFaultOrReset := by
  intro s t hs h hchange
  by_cases hf : s.st = .fault
  · rcases step_of_fault hf h with ⟨rest, hh, rfl⟩ | hsame
    · exact .inr ⟨rest, hh, rfl, rfl, rfl⟩
    · rw [hsame] at hchange
      simp [State.withEnv] at hchange
  · refine .inl ⟨hf, ?_⟩
    by_contra htf
    obtain ⟨hcause, hinfo⟩ := hs.no_fault hf
    obtain ⟨hcause', hinfo'⟩ := (inv_of_step hs h).1.no_fault htf
    rw [hcause, hinfo, hcause', hinfo'] at hchange
    simp at hchange

/-! ### The streams (R39, R44 to R47, R61, R140) -/

/-- What the block does to the streams: it leaves SRC and the contents of BIN, reads BIN forward, and appends to BOUT and
DST (R44 to R47). -/
structure MovesForward (s t : State) : Prop where
  src : t.src = s.src
  bin : t.bin = s.bin
  binPos : s.binPos ≤ s.bin.length → s.binPos ≤ t.binPos ∧ t.binPos ≤ t.bin.length
  bout : s.bout <+: t.bout
  dst : s.dst <+: t.dst

theorem MovesForward.trans {s t u : State} (h : MovesForward s t) (h' : MovesForward t u) : MovesForward s u where
  src := h'.src.trans h.src
  bin := h'.bin.trans h.bin
  binPos hs :=
    have ⟨hle, hin⟩ := h.binPos hs
    have ⟨hle', hin'⟩ := h'.binPos hin
    ⟨hle.trans hle', hin'⟩
  bout := h.bout.trans h'.bout
  dst := h.dst.trans h'.dst

theorem State.sameStreams.forward {s t : State} (h : s.sameStreams t) : MovesForward s t where
  src := h.src
  bin := h.bin
  binPos hs := ⟨h.binPos.ge, by rwa [h.binPos, h.bin]⟩
  bout := h.bout ▸ List.prefix_rfl
  dst := h.dst ▸ List.prefix_rfl

theorem MovesForward.refl (s : State) : MovesForward s s := (State.sameStreams.refl s).forward

/-- The reset input leaves the streams alone (R168). -/
theorem applyReset_sameStreams (s : State) : s.sameStreams (applyReset s) := ⟨rfl, rfl, rfl, rfl, rfl, rfl⟩

theorem perform_forward (x : Txn) (s : State) : MovesForward s (perform x s).2 :=
  have h := perform_streamsOnly x s
  ⟨h.src, h.bin, h.binPos, h.bout, h.dst⟩

theorem internal_forward {s t : State} (h : internal s = .next t) : MovesForward s t :=
  (sameStreams_of_env (insideOut_internal.env_eq h)).forward

/-- A failed transaction moves no stream, an answered one moves its own forward (R48). -/
theorem transact_forward {fails : Bool} {s t : State} (h : transact fails s = .next t) : MovesForward s t := by
  obtain ⟨-, -, -, -, x, -, hm⟩ := transact_keeps h
  cases fails with
  | true => exact hm.forward
  | false => exact (perform_forward x s).trans (State.sameStreams.forward hm)

theorem run_forward {as : List Answer} {s t : State} (h : run as s = .next t) : MovesForward s t :=
  run_preserves (P := MovesForward s) (fun _ _ hu hi => hu.trans (internal_forward hi))
    (fun _ _ _ hu _ ht => hu.trans (transact_forward ht))
    (fun _ _ hu => ⟨hu.src, hu.bin, hu.binPos, hu.bout, hu.dst⟩) as s t (.refl s) h

theorem blockStep_forward {s t : State} (h : blockStep s = .next t) : MovesForward s t := by
  rcases blockStep_cases h with rfl | ⟨-, hi⟩ | ⟨as, -, rfl⟩ | ⟨fails, as, -, ht⟩
  · exact .refl _
  · exact internal_forward hi
  · exact (State.sameStreams.refl s).queues.forward
  · exact (State.sameStreams.refl s).queues.forward.trans (transact_forward ht)

theorem resume_forward {s t : State} (h : resume s = .next t) : MovesForward s t := by
  unfold resume at h
  split at h
  · exact run_forward h
  · cases h; exact .refl s

theorem exec_forward {i : Instr} (hi : i.space = .command) {s t : State} (h : exec i s = .next t) :
    MovesForward s t := by
  obtain ⟨op, start, hc, he⟩ := exec_eq_command hi
  rw [he] at h
  unfold command at h
  split at h
  · have hstart : s.sameStreams (start { s with cmd := op, st := .busy }) :=
      sameStreams_of_env (hc.inside.env_eq { s with cmd := op, st := .busy })
    exact hstart.forward.trans (run_forward h)
  · cases h; exact .refl s

theorem writeReg_forward {n : Fin 4} {x : Word} {s t : State} (h : writeReg n x s = .next t) : MovesForward s t := by
  unfold writeReg at h
  split at h
  · exact exec_forward (decodeCommand_space x) h
  all_goals cases h; exact .refl s

theorem busWrite_forward {addr : Nat} {x : Word} {s t : State} (h : busWrite addr x s = .next t) :
    MovesForward s t := by
  unfold busWrite at h
  split at h
  · exact writeReg_forward h
  · cases h; exact .refl s

/-- What a step with the host's action `act` does to the streams: as the block, but for the one stream that the host
supplies or collects by it (assumptions 24, 25). -/
structure MovesForwardBut (act : HostAct) (s t : State) : Prop where
  src : (∀ b p, act ≠ .setSrc b p) → t.src = s.src
  bin : (∀ b p, act = .setBin b p → s.st = .busy) →
    t.bin = s.bin ∧ (s.binPos ≤ s.bin.length → s.binPos ≤ t.binPos)
  bout : (act = .takeBout → s.st = .busy) → s.bout <+: t.bout
  dst : (act = .takeDst → s.st = .busy) → s.dst <+: t.dst

theorem MovesForward.but {s t : State} (h : MovesForward s t) (act : HostAct) : MovesForwardBut act s t where
  src _ := h.src
  bin _ := ⟨h.bin, fun hs => (h.binPos hs).1⟩
  bout _ := h.bout
  dst _ := h.dst

/-- What has no effect in BUSY need only be looked at outside of it. -/
theorem unlessBusy_forwardBut {act : HostAct} {f : State → State} {s : State}
    (hf : s.st ≠ .busy → MovesForwardBut act s (f s)) : MovesForwardBut act s (unlessBusy f s) := by
  unfold unlessBusy
  split
  · exact (MovesForward.refl s).but act
  · exact hf ‹_›

theorem hostAct_forwardBut {act : HostAct} {s t : State} (h : hostAct act s = .next t) : MovesForwardBut act s t := by
  have hrefl := MovesForward.refl s
  cases act with
  | pass => exact (resume_forward h).but _
  | tick => exact (blockStep_forward h).but _
  | write n x => exact (writeReg_forward h).but _
  | read n => cases h; exact hrefl.but _
  | busWrite addr x => exact (busWrite_forward h).but _
  | busRead addr => cases h; exact hrefl.but _
  | reset => cases h; exact (applyReset_sameStreams s).forward.but _
  | setSrc bytes pos =>
    cases h
    exact { hrefl.but (.setSrc bytes pos) with src := fun hact => absurd rfl (hact bytes pos) }
  | setBin bits pos =>
    cases h
    exact unlessBusy_forwardBut fun hb =>
      { hrefl.but (.setBin bits pos) with bin := fun hact => absurd (hact bits pos rfl) hb }
  | takeBout =>
    cases h
    exact unlessBusy_forwardBut fun hb => { hrefl.but .takeBout with bout := fun hact => absurd (hact rfl) hb }
  | takeDst =>
    cases h
    exact unlessBusy_forwardBut fun hb => { hrefl.but .takeDst with dst := fun hact => absurd (hact rfl) hb }

/-- Settles O58: the parameters and the bounds by the invariant, the streams by what the host's action does to them. -/
theorem streamsAreReadForwardAndAppended : Obligations.StreamsAreReadForwardAndAppended := by
  intro s t hs h
  obtain ⟨ht, hpar⟩ := inv_of_step hs h
  refine ⟨hpar, ht.srcPos_le, ht.binPos_le, ?_⟩
  cases hh : s.host with
  | nil =>
    have hm := blockStep_forward ((step_block hh).symm.trans h)
    exact ⟨fun _ => hm.src, fun _ => ⟨hm.bin, (hm.binPos hs.binPos_le).1⟩, fun _ => hm.bout, fun _ => hm.dst⟩
  | cons act rest =>
    have hm : MovesForwardBut act { s with host := rest } t := hostAct_forwardBut ((step_cons hh).symm.trans h)
    refine ⟨fun hact => ?_, fun hact => ?_, fun hact => ?_, fun hact => ?_⟩
    · exact hm.src fun b p he => hact b p rest (by rw [he])
    · obtain ⟨hbin, hpos⟩ := hm.bin fun b p he => hact b p rest (by rw [he])
      exact ⟨hbin, hpos hs.binPos_le⟩
    · exact hm.bout fun he => hact rest (by rw [he])
    · exact hm.dst fun he => hact rest (by rw [he])

end Sys2Proof.Machine

/-! The proofs of the statements of 20_memory.md: a transaction that fails or is not answered yet leaves the streams. -/

namespace Sys2Proof.Machine

theorem Port.number_lt (p : Port) : p.number < 16 := by cases p <;> decide

/-- Settles O15: the step is the raise of IOFailure with the port's number, which moves no stream. -/
theorem failedTransactionRaisesIOFailure : Obligations.FailedTransactionRaisesIOFailure := by
  intro s txn rest hb hp hh ha
  have hstep : step s = .next { raise .ioFailure txn.port.number 0 s with answers := rest } :=
    (step_block hh).trans (blockStep_fail hb hp ha)
  obtain ⟨htook, hstreams⟩ := raised (F := .ioFailure) (info := 0) (s := s) (rest := rest) txn.port.number_lt
    (by decide) (.refl s)
  refine ⟨_, hstep, ?_, hstreams, rfl, rfl⟩
  cases txn <;> exact htook

/-- Settles O16: a `hold` uses itself up, and without an answer nothing moves. -/
theorem unansweredTransactionKeepsTheState : Obligations.UnansweredTransactionKeepsTheState :=
  ⟨fun _ _ _ hb hp hh ha => (step_block hh).trans (blockStep_hold hb hp ha),
    fun _ _ _ hp hh ha => (step_block hh).trans (blockStep_wait hp ha)⟩

end Sys2Proof.Machine

/-! The proofs of the statements of 30_encoding.md: the opcode map and the field words, the reserved opcodes, the step that
reads a field from BIN, the magic field at the gate, and the serialization that TSER appends. -/

namespace Sys2Proof.Machine

/-! ### tree_serializer (R73, R99) -/

/-- TSER alone ends the command where its walk ends (R26). -/
theorem tserEnd_tser {s : State} (hc : s.cmd = 0x6) : tserEnd s = s.finish := if_pos hc

/-- Settles O29: the walk that `emitTree` starts writes all of `ser(TREE)`, and its end is the end of the command. -/
theorem tserAppendsTheSerializedTree : Obligations.TserAppendsTheSerializedTree := by
  intro s rest ha ht hr
  have hstart : tserStart { s with cmd := 0x6, st := .busy }
      = emitTree { s with cmd := 0x6, st := .busy, eofSeen := false, pend := none } :=
    (tser_start (s := { s with cmd := 0x6, st := .busy }) ht).trans (emitTree_pend _ none).symm
  have hwalk := emitTree_steps (s := { s with cmd := 0x6, st := .busy, eofSeen := false, pend := none }) rfl rfl
  rw [tserEnd_tser rfl] at hwalk
  calc exec .tser s
      = run (oks s.tree.txns rest) (tserStart { s with cmd := 0x6, st := .busy }) := command_oks ha hr 0x6 tserStart
    _ = _ := by rw [hstart]; exact hwalk.end (by simp) rest

/-! ### The opcode map and the field words (R68, R69, R72, R74, R75) -/

/-- Settles O1: the opcodes are the rows of the map, and each field word is the encoding of its instruction. -/
theorem opcodeMapSelectsTheCommand : Obligations.OpcodeMapSelectsTheCommand :=
  ⟨rfl, rfl, rfl, rfl, rfl, rfl, rfl, rfl, rfl, rfl, rfl, rfl, rfl, rfl, rfl, rfl,
    fun magic => ⟨decode_leaf_toBits magic (v := 256) (by decide) [],
      decode_leaf_toBits magic (v := 0x41) (by decide) [], rfl⟩,
    decode_magic_toBits 1846 []⟩

/-! ### Reserved opcodes (R69, R162) -/

/-- Every 4-bit value is one of the ten commands or one of the six reserved opcodes (R68, R69). -/
theorem decodeCommand_mem (x : Word) :
    decodeCommand x ∈ [.encode, .decode, .fcnt, .tbld, .ctdr, .tser, .tdes, .senc, .sdec, .mchk, .reserved0, .reservedB,
      .reservedC, .reservedD, .reservedE, .reservedF] := by
  unfold decodeCommand commandOfOpcode
  split <;> simp

/-- A reserved opcode raises UsageError at once, with no stream moved and no answer used (R69). -/
theorem reserved_raisesUsageError {s : State} (ha : s.accepts = true) (op : BitVec 4) :
    ∃ t, command op (reservedStart op) s = .next t ∧ t.tookFault 5 0 op.toNat ∧ t.cmd.toNat = op.toNat ∧
      s.sameStreams t ∧ t.answers = s.answers ∧ t.host = s.host ∧ t.par = s.par := by
  have hop : op.toNat < 2 ^ 32 := op.isLt.trans (by decide)
  exact ⟨_, command_raise ha _ _ .usageError 0 op.toNat rfl, tookFault_raise .usageError 0 _ _ (by decide) hop, rfl,
    ⟨rfl, rfl, rfl, rfl, rfl, rfl⟩, rfl, rfl, rfl⟩

/-- Settles O12: the six reserved opcodes. -/
theorem reservedOpcodeRaisesUsageError : Obligations.ReservedOpcodeRaisesUsageError := by
  refine ⟨decodeCommand_mem, fun s e ha he => ?_⟩
  simp only [List.mem_cons, List.not_mem_nil, or_false] at he
  rcases he with rfl | rfl | rfl | rfl | rfl | rfl
  · exact reserved_raisesUsageError ha 0x0
  · exact reserved_raisesUsageError ha 0xB
  · exact reserved_raisesUsageError ha 0xC
  · exact reserved_raisesUsageError ha 0xD
  · exact reserved_raisesUsageError ha 0xE
  · exact reserved_raisesUsageError ha 0xF

/-! ### Where MCHK and TDES wait for a field (R101, R126; assumption 7) -/

theorem readsMagic_iff {s : State} :
    s.readsMagic = true ↔ s.st = .busy ∧ s.phase = .mgCheck ∧ s.pend = some (.binReadBits 32) := decide_eq_true_iff

theorem readsMarker_iff {s : State} :
    s.readsMarker = true ↔ s.st = .busy ∧ s.phase = .tdWalk ∧ s.pend = some .binReadBit := decide_eq_true_iff

theorem exec_fileMagic {s : State} (h : s.readsMagic = true) :
    exec .fileMagic s = deliver (.nat (.val s.par.magic.toNat)) s.answered := if_pos h

theorem exec_fileNodeInternal {s : State} (h : s.readsMarker = true) :
    exec .fileNodeInternal s = deliver (.bit (.val true)) s.answered := if_pos h

/-- The state in which TDES waits for the symbol of a leaf whose marker it has read (R101). -/
def State.awaitsSymbol (s : State) : State :=
  { s with b := .val false, nnodes := s.nnodes + 1, pend := some (.binReadBits 9) }

/-- The marker 0 of a node that fits (R101, R104). -/
theorem deliver_leafMarker {s : State} (hph : s.phase = .tdWalk) (hcap : fitsCap s.par.nodeCap (s.nnodes + 1)) :
    deliver (.bit (.val false)) s.answered = .next s.awaitsSymbol := by
  have hroom : overCap s.par.nodeCap s.nnodes = false := overCap_of_hasRoom (n := 1) hcap (by decide)
  simp [deliver, hph, tdesMarker, hroom, State.awaitsSymbol, State.issue, State.answered]

theorem exec_fileNodeLeaf {s : State} (h : s.readsMarker = true) (hcap : fitsCap s.par.nodeCap (s.nnodes + 1))
    (v : BitVec 9) : exec (.fileNodeLeaf v) s = deliver (.nat (.val v.toNat)) s.awaitsSymbol.answered := by
  obtain ⟨hb, hph, -⟩ := readsMarker_iff.mp h
  have hsym : s.awaitsSymbol.readsSymbol = true := decide_eq_true ⟨hb, hph, rfl⟩
  calc exec (.fileNodeLeaf v) s
      = andThen (deliver (.bit (.val false)) s.answered) (execSymbolField v) := if_pos h
    _ = execSymbolField v s.awaitsSymbol := by rw [deliver_leafMarker hph hcap, andThen_next]
    _ = _ := if_pos hsym

/-! ### The step that reads a field (R72, R74, R75, R101, R126) -/

/-- An answered transaction whose result is known is delivered, and the run goes on. -/
theorem run_ok_perform {s u : State} {x : Txn} {res : Result} (hb : s.st = .busy) (hp : s.pend = some x)
    (hx : perform x s = (res, u)) (as : List Answer) :
    run (.ok :: as) s = andThen (deliver res u.answered) (run as) := by
  rw [run_ok hb hp, hx]

/-- The `hold` that ends the script of a field is used where the command goes on. -/
theorem run_hold_eq (as : List Answer) :
    run (.hold :: as) = fun t => .next { t with answers := if t.st = .busy then as else .hold :: as } :=
  funext fun t => run_hold_any t as

/-- The step that reads the magic field. -/
theorem step_fileMagic {s : State} {bs : List Bit} {as : List Answer} {rest : List HostAct}
    (hh : s.host = .pass :: rest) (hm : s.readsMagic = true)
    (hbits : s.bin.drop s.binPos = toBits 32 s.par.magic.toNat ++ bs) (ha : s.answers = .ok :: as) :
    step s = andThen (exec .fileMagic { s with host := rest, binPos := s.binPos + 32 }) (run as) := by
  obtain ⟨hb, -, hp⟩ := readsMagic_iff.mp hm
  rw [exec_fileMagic (s := { s with host := rest, binPos := s.binPos + 32 }) hm]
  exact (stepHost_pass hh hb ha).trans (run_ok_perform (s := { s with host := rest }) hb hp
    (perform_binReadBits_val s.par.magic.isLt (by decide) hbits) as)

/-- The step that reads the marker of an internal node. -/
theorem step_fileNodeInternal {s : State} {bs : List Bit} {as : List Answer} {rest : List HostAct}
    (hh : s.host = .pass :: rest) (hm : s.readsMarker = true) (hbits : s.bin.drop s.binPos = true :: bs)
    (ha : s.answers = .ok :: as) :
    step s = andThen (exec .fileNodeInternal { s with host := rest, binPos := s.binPos + 1 }) (run as) := by
  obtain ⟨hb, -, hp⟩ := readsMarker_iff.mp hm
  rw [exec_fileNodeInternal (s := { s with host := rest, binPos := s.binPos + 1 }) hm]
  exact (stepHost_pass hh hb ha).trans (run_ok_perform (s := { s with host := rest }) hb hp
    (perform_binReadBit_val hbits) as)

/-- The step that reads the marker of a leaf and then its symbol. -/
theorem step_fileNodeLeaf {s : State} {v : BitVec 9} {bs : List Bit} {as : List Answer} {rest : List HostAct}
    (hh : s.host = .pass :: rest) (hm : s.readsMarker = true) (hcap : fitsCap s.par.nodeCap (s.nnodes + 1))
    (hbits : s.bin.drop s.binPos = false :: (toBits 9 v.toNat ++ bs)) (ha : s.answers = .ok :: .ok :: as) :
    step s = andThen (exec (.fileNodeLeaf v) { s with host := rest, binPos := s.binPos + 10 }) (run as) := by
  obtain ⟨hb, hph, hp⟩ := readsMarker_iff.mp hm
  rw [exec_fileNodeLeaf (s := { s with host := rest, binPos := s.binPos + 10 }) hm hcap]
  calc step s
      = run (.ok :: .ok :: as) { s with host := rest } := stepHost_pass hh hb ha
    _ = andThen (deliver (.bit (.val false)) { s with host := rest, binPos := s.binPos + 1 }.answered)
          (run (.ok :: as)) :=
        run_ok_perform (s := { s with host := rest }) hb hp (perform_binReadBit_val hbits) (.ok :: as)
    _ = run (.ok :: as) { s with host := rest, binPos := s.binPos + 1 }.awaitsSymbol := by
        rw [deliver_leafMarker (s := { s with host := rest, binPos := s.binPos + 1 }) hph hcap, andThen_next]
    _ = _ := run_ok_perform (s := { s with host := rest, binPos := s.binPos + 1 }.awaitsSymbol) hb rfl
        (perform_binReadBits_val v.isLt (by decide) (drop_succ_of_drop hbits)) as

/-- Settles O5: a field that decodes stands on BIN as its encoding, which the step reads. -/
theorem stepRunsTheFieldRead : Obligations.StepRunsTheFieldRead := by
  refine ⟨fun s i bs as rest hh hm hd ha => ?_, fun s bs as rest hh hm hd ha => ?_,
    fun s v bs as rest hh hm hcap hd ha => ?_⟩
  · obtain ⟨rfl, hbits⟩ := decodeMagic_ok hd
    rw [step_fileMagic hh hm hbits ha, run_hold_eq]
  · obtain ⟨-, -, hbits⟩ := decodeNode_ok hd
    rw [step_fileNodeInternal hh hm hbits ha, run_hold_eq]
  · obtain ⟨-, -, hbits⟩ := decodeNode_ok hd
    rw [step_fileNodeLeaf hh hm hcap hbits ha, run_hold_eq]

/-! ### The magic field at the gate (R72, R126, R138) -/

/-- The state in which MCHK has read MAGIC (R126). -/
def State.gotMagic (s : State) : State := { s with v := .val s.par.magic.toNat, pend := none }

/-- The value MAGIC passes the gate (R126). -/
theorem exec_fileMagic_passes {s : State} (h : s.readsMagic = true) :
    exec .fileMagic s = .next (mchkEnd s.gotMagic) := by
  obtain ⟨-, hph, -⟩ := readsMagic_iff.mp h
  rw [exec_fileMagic h]
  simp [deliver, hph, mchkGot, State.answered, State.gotMagic]

/-- MCHK alone ends the command (R126). -/
theorem mchkEnd_mchk {s : State} (hc : s.cmd = 0xA) : mchkEnd s = s.finish :=
  if_neg (by rw [hc]; decide)

/-- In DECODE, TDES follows MCHK (R138). -/
theorem mchkEnd_decode {s : State} (hc : s.cmd = 0x2) : mchkEnd s = tdesStart s := if_pos hc

/-- Settles O54: what follows the gate is told by CMD. -/
theorem magicFieldPassesTheGate : Obligations.MagicFieldPassesTheGate := by
  refine ⟨fun s h hc => ?_, fun s h hc => ?_, fun s h => ?_⟩
  · exact (exec_fileMagic_passes h).trans (congrArg _ (mchkEnd_mchk (s := s.gotMagic) hc))
  · exact (exec_fileMagic_passes h).trans (congrArg _ ((mchkEnd_decode (s := s.gotMagic) hc).trans (tdes_start _)))
  · exact if_neg (by simp [h])

end Sys2Proof.Machine

/-! The proofs of the statements of 40_frequency_counter.md: what FCNT counts, what a finite W refuses, and what depends on
the multiset of the input bytes only. -/

namespace Sys2Proof.Machine

/-! ### Scripts that lead to DONE (R48, R166) -/

/-- Where the internal updates alone end the command, no answer is used. -/
theorem run_of_settled {s s' : State} (hs : settle s = .next s') (hb : s'.st ≠ .busy) {as : List Answer}
    (hh : as.head? ≠ some .hold) : run as s = .next { s' with answers := as } := by
  rw [run_settle s as hh, hs, andThen_next]
  cases as with
  | nil => rfl
  | cons a as => exact if_neg hb

/-- Where a transaction follows the internal updates, the first answer goes to it. -/
theorem run_cons_of_settled {s s' : State} (hs : settle s = .next s') (hb : s'.st = .busy) {a : Answer}
    (hh : a ≠ .hold) (as : List Answer) :
    run (a :: as) s = andThen (transact (decide (a = .fail)) s') (run as) := by
  rw [run_settle s _ (by simpa using hh), hs, andThen_next]
  exact if_pos hb

theorem transact_true_st {s t : State} (h : transact true s = .next t) : t.st = .fault := by
  cases hp : s.pend with
  | none => simp [transact, hp] at h
  | some x =>
    rw [transact_fail hp] at h
    obtain rfl := Host.Outcome.next.inj h
    rfl

theorem head?_replicate_ok_ne_hold (m : Nat) : (List.replicate m Answer.ok).head? ≠ some .hold := by
  cases m <;> simp [List.replicate_succ]

/-- Some number of results, and no answer after them, leads from `s` to `t`. -/
def EndsByResults (s t : State) : Prop :=
  ∃ n, ∀ m, run (List.replicate (n + m) .ok) s = .next { t with answers := List.replicate m .ok }

/-- So it is where no result is needed. -/
theorem EndsByResults.of_settled {s s' : State} (hs : settle s = .next s') (hb : s'.st ≠ .busy) (as : List Answer) :
    EndsByResults s { s' with answers := as } :=
  ⟨0, fun m => by rw [Nat.zero_add]; exact run_of_settled hs hb (head?_replicate_ok_ne_hold m)⟩

/-- A command that has reached DONE has used results only: a failure leads to FAULT, and a `hold` leaves it BUSY. -/
theorem endsByResults_of_done (as : List Answer) {s t : State} (h : run as s = .next t) (ht : t.st = .done) :
    EndsByResults s t := by
  induction as generalizing s with
  | nil =>
    obtain ⟨s', hs, h⟩ := andThen_eq_next.mp h
    obtain rfl := Host.Outcome.next.inj h
    exact .of_settled hs (by rw [show s'.st = .done from ht]; simp) []
  | cons a as ih =>
    by_cases hold : a = .hold
    · subst hold
      rw [run_hold_any] at h
      obtain rfl := Host.Outcome.next.inj h
      have hb : s.st ≠ .busy := by rw [show s.st = .done from ht]; simp
      exact .of_settled (settle_of_not_busy hb) hb _
    · obtain ⟨s', hs, -⟩ := andThen_eq_next.mp ((run_settle s _ (by simpa using hold)).symm.trans h)
      by_cases hb : s'.st = .busy
      · rw [run_cons_of_settled hs hb hold] at h
        obtain ⟨s'', htx, h⟩ := andThen_eq_next.mp h
        by_cases hfail : a = .fail
        · have hst := transact_true_st (by rwa [decide_eq_true hfail] at htx)
          rw [run_of_not_busy (by simp [hst])] at h
          obtain rfl := Host.Outcome.next.inj h
          rw [show s''.st = .done from ht] at hst
          cases hst
        · obtain ⟨n, hn⟩ := ih h
          rw [decide_eq_false hfail] at htx
          refine ⟨n + 1, fun m => ?_⟩
          rw [Nat.add_right_comm, List.replicate_succ, run_cons_of_settled hs hb (by simp)]
          exact (congrArg (andThen · _) htx).trans (hn m)
      · rw [run_of_settled hs hb (by simpa using hold)] at h
        obtain rfl := Host.Outcome.next.inj h
        exact .of_settled hs hb _

/-- Where results lead to a refusal, no script leads to DONE. -/
theorem not_done_of_refused {n : Nat} {s t : State} {r : Refusal}
    (hr : ∀ m, run (oks n (List.replicate m .ok)) s = .refused r) {as : List Answer} (h : run as s = .next t) :
    t.st ≠ .done := by
  intro ht
  obtain ⟨k, hk⟩ := endsByResults_of_done as h ht
  have hrefused := hr k
  rw [oks, List.replicate_append_replicate, Nat.add_comm, hk n] at hrefused
  cases hrefused

/-- Where results lead to the end of a command, every script that leads to DONE leads to the same state, but for the
answers left. -/
theorem Steps.done_eq {n : Nat} {s t u : State} (hs : Steps n s u) (hu : u.st = .done) {as : List Answer}
    (h : run as s = .next t) (ht : t.st = .done) : { t with answers := [] } = { u with answers := [] } := by
  have hend : run (List.replicate n .ok) s = .next { u with answers := [] } := by
    simpa [oks] using hs.end (by simp [hu]) []
  exact run_done_unique (u := { u with answers := [] }) as hend hu h ht

/-- An internal update that is refused refuses the command, unless the collaborator holds there. -/
theorem run_internal_refused {s : State} {r : Refusal} (hi : internal s = .refused r) {as : List Answer}
    (hh : as.head? ≠ some .hold) : run as s = .refused r := by
  rw [run_settle s as hh, settle, hi]; rfl

theorem Steps.internal_of_pos {n : Nat} {s s' s'' : State} (hi : Machine.internal s = .next s') (hn : 0 < n)
    (h : Steps n s' s'') : Steps n s s'' := by
  obtain ⟨m, rfl⟩ := Nat.exists_eq_add_one_of_ne_zero hn.ne'
  exact Steps.internal hi h

/-! ### The counts of a list of bytes (R83, R84, R88) -/

/-- FT after FC_SCAN has read these bytes. -/
def byteCounts (ys : List Byte) : Vector Nat 256 := ys.foldl ftIncr (Vector.replicate 256 0)

@[simp] theorem ftAt_byteCounts (ys : List Byte) (y : Byte) : ftAt (byteCounts ys) y = ys.count y := by
  rw [byteCounts, ftAt_foldl, ftAt_zero, Nat.zero_add]

theorem sum_byteCounts (ys : List Byte) : (byteCounts ys).toList.sum = ys.length := by
  have hzero : (Vector.replicate 256 0).toList.sum = 0 := by
    rw [Vector.toList_replicate, List.sum_replicate, smul_zero]
  rw [byteCounts, foldl_ftIncr_sum, hzero, Nat.zero_add]

theorem byteCounts_perm {ys zs : List Byte} (h : ys.Perm zs) : byteCounts ys = byteCounts zs := foldl_ftIncr_perm h _

/-! ### FCNT (R83 to R87) -/

theorem fcnt_start (s : State) :
    fcntStart s = { s with
      eofSeen := false, ftValid := false, phase := .fcScan, ft := Vector.replicate 256 0, pend := some .srcRead } := by
  rw [fcntStart, beginUnit]; simp [requires, flagsAtStart]

/-- What FCNT leaves when END has followed the bytes `ys`, before the command ends or TBLD follows (R83, R85). -/
def State.counted (s : State) (ys : List Byte) : State :=
  { s with
    ft := byteCounts ys
    srcPos := s.srcPos + ys.length
    r := .END
    eofSeen := false
    ftValid := true
    phase := .fcScan
    pend := none }

/-- FCNT alone ends the command (R83). -/
theorem fcntEnd_counted {s : State} (hc : s.cmd = 0x3) (ys : List Byte) :
    fcntEnd (s.counted ys) = (s.counted ys).finish :=
  if_neg (by rw [show (s.counted ys).cmd = 0x3 from hc]; decide)

/-- In ENCODE, TBLD follows FCNT (R123). -/
theorem fcntEnd_counted_encode {s : State} (hc : s.cmd = opEncode) (ys : List Byte) :
    fcntEnd (s.counted ys) = tbldStart (s.counted ys) := if_pos hc

/-- All of FC_SCAN, where every count fits (R83, R86). -/
theorem fcnt_steps {s : State} {ys : List Byte} (hb : s.st = .busy) (h : s.src.drop s.srcPos = ys)
    (hw : ∀ y, widthFits s.par.width (ys.count y) = true) :
    Steps (ys.length + 1) (fcntStart s) (fcntEnd (s.counted ys)) := by
  rw [fcnt_start]
  have hscan := fcScan_steps (s := { s with
      eofSeen := false, ftValid := false, phase := .fcScan, ft := Vector.replicate 256 0, pend := some .srcRead })
    (rest := []) ys hb rfl rfl (h.trans (List.append_nil ys).symm)
    (fun y => by rw [ftAt_zero, Nat.zero_add]; exact hw y)
  have hend : s.src.drop (s.srcPos + ys.length) = [] := drop_add_of_drop (h.trans (List.append_nil ys).symm)
  exact hscan.trans (fcScan_end hb rfl rfl hend)

/-- FCNT is refused where a count does not fit (R86, U3). -/
theorem fcnt_refused {s : State} {ys : List Byte} (hb : s.st = .busy) (h : s.src.drop s.srcPos = ys) {z : Byte}
    (hz : widthFits s.par.width (ys.count z) = false) (as : List Answer) :
    run (oks ys.length as) (fcntStart s) = .refused .countWidth := by
  rw [fcnt_start]
  refine fcScan_refused (rest := []) (z := z) ys as hb rfl rfl (h.trans (List.append_nil ys).symm) ?_ ?_
  · rw [ftAt_zero]; exact widthFits_zero _
  · rw [ftAt_zero, Nat.zero_add]; exact hz

/-- Settles O20: FC_SCAN from a cleared FT, then the end of the command. -/
theorem fcntCountsTheBytes : Obligations.FcntCountsTheBytes := by
  intro s rest ha hpos hw hr
  refine ⟨byteCounts (s.src.drop s.srcPos), ftAt_byteCounts _, by rw [sum_byteCounts, List.length_drop], ?_⟩
  have hsteps := fcnt_steps (s := { s with cmd := 0x3, st := .busy }) rfl rfl hw
  rw [fcntEnd_counted rfl] at hsteps
  have hend : s.srcPos + (s.src.drop s.srcPos).length = s.src.length := by rw [List.length_drop]; omega
  calc exec .fcnt s
      = run (oks ((s.src.drop s.srcPos).length + 1) rest) (fcntStart { s with cmd := 0x3, st := .busy }) :=
        command_oks ha hr 0x3 fcntStart
    _ = _ := hsteps.end (by simp) rest
    _ = _ := by simp only [State.counted, hend]; rfl

/-- However FCNT has come to DONE, FT counts the bytes from src_pos on (R83). -/
theorem fcnt_done {s t : State} (ha : s.accepts = true) (h : exec .fcnt s = .next t) (ht : t.st = .done) :
    t.ft = byteCounts (s.src.drop s.srcPos) := by
  replace h : run s.answers (fcntStart { s with cmd := 0x3, st := .busy }) = .next t :=
    (command_run ha 0x3 fcntStart).symm.trans h
  by_cases hw : ∀ y, widthFits s.par.width ((s.src.drop s.srcPos).count y) = true
  · have hsteps := fcnt_steps (s := { s with cmd := 0x3, st := .busy }) rfl rfl hw
    rw [fcntEnd_counted rfl] at hsteps
    exact congrArg (fun u : State => u.ft) (hsteps.done_eq rfl h ht)
  · obtain ⟨z, hz⟩ := not_forall.mp hw
    exact absurd ht (not_done_of_refused
      (fun m => fcnt_refused (s := { s with cmd := 0x3, st := .busy }) rfl rfl (Bool.eq_false_iff.mpr hz) _) h)

/-! ### What the builder builds depends on FT only (R90, R97) -/

/-- Two builders that may differ in the registers a and c, which are written before they are read. -/
structure Builder.SameQueue (B B' : Builder) : Prop where
  q : B.q = B'.q
  seq : B.seq = B'.seq

theorem Builder.SameQueue.insert {B B' : Builder} (h : B.SameQueue B') (t : Tree) :
    (B.insert t).SameQueue (B'.insert t) where
  q := by simp only [Builder.insert, h.q, h.seq]
  seq := congrArg (· + 1) h.seq

theorem Builder.SameQueue.insertPresent {B B' : Builder} (h : B.SameQueue B') (ft : Vector Nat 256) (s : Fin 256) :
    (Machine.insertPresent ft B s).SameQueue (Machine.insertPresent ft B' s) := by
  unfold Machine.insertPresent
  split
  · exact h.insert _
  · exact h

theorem Builder.SameQueue.foldl_insertPresent (ft : Vector Nat 256) (ss : List (Fin 256)) {B B' : Builder}
    (h : B.SameQueue B') :
    (ss.foldl (Machine.insertPresent ft) B).SameQueue (ss.foldl (Machine.insertPresent ft) B') := by
  induction ss generalizing B B' with
  | nil => exact h
  | cons s ss ih => exact ih (h.insertPresent ft s)

/-- TB_INIT starts from an empty Q whatever the builder's registers held (R89). -/
theorem init_sameQueue (ft : Vector Nat 256) (B B' : Builder) : (B.init ft).SameQueue (B'.init ft) :=
  Builder.SameQueue.foldl_insertPresent ft _ ⟨rfl, rfl⟩

theorem Builder.SameQueue.merge {B B' : Builder} (h : B.SameQueue B') (n : Nat) :
    (B.merge n).SameQueue (B'.merge n) := by
  induction n generalizing B B' with
  | zero => exact h
  | succ n ih =>
    rw [Builder.merge, Builder.merge, ← h.q]
    split
    · exact h
    · exact h
    · next a c rest _ =>
      exact ih (Builder.SameQueue.insert (B := { B with q := rest, a := a, c := c })
        (B' := { B' with q := rest, a := a, c := c }) ⟨rfl, h.seq⟩ _)

/-- `T` is the tree that the builder leaves, started on `ft` with some contents of its registers (R89, R95). -/
def BuiltFrom (ft : Vector Nat 256) (T : Tree) : Prop :=
  ∃ (B : Builder) (e : QEntry), ((B.init ft).merge (B.init ft).q.length).q = [e] ∧ e.t = T

/-- One FT gives one tree (R97). -/
theorem BuiltFrom.unique {ft : Vector Nat 256} {T T' : Tree} (h : BuiltFrom ft T) (h' : BuiltFrom ft T') : T = T' := by
  obtain ⟨B, e, he, rfl⟩ := h
  obtain ⟨B', e', he', rfl⟩ := h'
  have hinit := init_sameQueue ft B B'
  have hq := (hinit.merge (B.init ft).q.length).q
  rw [he, hinit.q, he'] at hq
  rw [List.singleton_inj.mp hq]

/-! ### TBLD (R89 to R97) -/

/-- TBLD alone ends the command (R89). -/
theorem tbldEnd_tbld {s : State} (hc : s.cmd = 0x4) :
    tbldEnd s = State.finish { s with treeValid := true, ftValid := false } :=
  if_neg (by rw [hc]; decide)

/-- In ENCODE, CTDR follows TBLD (R123). -/
theorem tbldEnd_encode {s : State} (hc : s.cmd = opEncode) :
    tbldEnd s = ctdrStart { s with treeValid := true, ftValid := false } := if_pos hc

/-- What TB_MERGE leaves, before its flags (R89). -/
def State.built (s : State) (e a c : QEntry) : State :=
  { s with
    tree := e.t
    q := [e]
    seq := 2 * presentCount s.ft + 1
    a := a
    c := c
    eofSeen := false
    treeValid := false
    ctValid := false
    phase := .tbMerge
    pend := none }

/-- TBLD where the root's weight fits: its two internal updates (R89, R94). -/
theorem tbld_updates {s : State} (hb : s.st = .busy) (hf : s.ftValid = true)
    (hw : widthFits s.par.width (1 + s.ft.toList.sum) = true) :
    ∃ e a c, BuiltFrom s.ft e.t ∧ e.t.leaves.Perm (initialLeaves s.ft) ∧ e.t.weighted = true ∧
      ∃ s', internal (tbldStart s) = .next s' ∧ internal s' = .next (tbldEnd (s.built e a c)) := by
  rw [tbld_start hf]
  obtain ⟨e, a, c, -, hleaves, hweighted, -, hq, h1, h2⟩ := tbld_internal (s := { s with
      eofSeen := false, treeValid := false, ctValid := false, phase := .tbInit, pend := none }) hb rfl rfl
  exact ⟨e, a, c, ⟨_, e, hq, rfl⟩, hleaves, hweighted, _, h1, h2.trans (if_pos hw)⟩

/-- TBLD is refused where the root's weight does not fit (R94, U3). -/
theorem tbld_refused {s : State} (hb : s.st = .busy) (hf : s.ftValid = true)
    (hw : widthFits s.par.width (1 + s.ft.toList.sum) = false) {as : List Answer} (hh : as.head? ≠ some .hold) :
    run as (tbldStart s) = .refused .countWidth := by
  rw [tbld_start hf]
  obtain ⟨_, _, _, -, -, -, -, -, h1, h2⟩ := tbld_internal (s := { s with
      eofSeen := false, treeValid := false, ctValid := false, phase := .tbInit, pend := none }) hb rfl rfl
  rw [if_neg (Bool.eq_false_iff.mp hw)] at h2
  exact (run_internal h1 hh).trans (run_internal_refused h2 hh)

/-- However TBLD has come to DONE, TREE is what the builder builds from FT (R89). -/
theorem tbld_done {s t : State} (ha : s.accepts = true) (hf : s.ftValid = true) (h : exec .tbld s = .next t)
    (ht : t.st = .done) : BuiltFrom s.ft t.tree := by
  replace h : run s.answers (tbldStart { s with cmd := 0x4, st := .busy }) = .next t :=
    (command_run ha 0x4 tbldStart).symm.trans h
  cases hw : widthFits s.par.width (1 + s.ft.toList.sum) with
  | true =>
    obtain ⟨e, a, c, hbuilt, -, -, s', h1, h2⟩ := tbld_updates (s := { s with cmd := 0x4, st := .busy }) rfl hf hw
    rw [tbldEnd_tbld rfl] at h2
    have hend := (run_internal h1 (as := []) (by simp)).trans
      ((run_internal h2 (by simp)).trans (run_of_not_busy (by simp) []))
    have htree : t.tree = e.t := congrArg (fun u : State => u.tree) (run_done_unique (n := 0) s.answers hend rfl h ht)
    exact htree ▸ hbuilt
  | false =>
    exact absurd ht (not_done_of_refused (n := 0) (fun m =>
      tbld_refused (s := { s with cmd := 0x4, st := .busy }) rfl hf hw (head?_replicate_ok_ne_hold m)) h)

/-- Settles O22: the read that would count too far, FC_SCAN and TB_MERGE are refused. -/
theorem countsBeyondTheWidthAreRefused : Obligations.CountsBeyondTheWidthAreRefused := by
  refine ⟨fun s y rest as hh hb hp hq hsrc hr hw => ?_, fun s y rest ha hr hw => ?_, fun s ha hf hhold hw => ?_,
    fun w n => decide_eq_true_iff, fun n => rfl, rfl⟩
  · rw [step_block hh, blockStep_ok hb hq hr, fcScan_deliver hp hq hsrc, if_neg (Bool.eq_false_iff.mp hw),
      andThen_refused]
  · rw [oks_add] at hr
    exact (command_oks ha hr 0x3 fcntStart).trans (fcnt_refused (s := { s with cmd := 0x3, st := .busy }) rfl rfl hw _)
  · exact (command_run ha 0x4 tbldStart).trans (tbld_refused (s := { s with cmd := 0x4, st := .busy }) rfl hf hw hhold)

/-! ### ENCODE (R123, R142) -/

/-- In ENCODE, SENC follows CTDR (R123). -/
theorem ctdrEnd_encode {s : State} (hc : s.cmd = opEncode) (ht : s.treeValid = true) :
    ctdrEnd s = { s with
      ctValid := true, eofSeen := false, phase := .seMagic, pend := some (.boutWriteBits s.par.magic.toNat 32) } :=
  (if_pos hc).trans (senc_start (s := { s with ctValid := true }) ht rfl)

/-- In ENCODE, CD_WALK leads to the first transaction of SENC (R109, R123). -/
theorem ctdr_update_encode {s : State} (hb : s.st = .busy) (hc : s.cmd = opEncode) (ht : s.treeValid = true) :
    ∃ path, internal (ctdrStart s) = .next { s with
      ct := s.tree.table, path := path, stk := [], ctValid := true, eofSeen := false, phase := .seMagic
      pend := some (.boutWriteBits s.par.magic.toNat 32) } := by
  rw [ctdr_start ht]
  obtain ⟨path, h⟩ := ctdr_internal (s := { s with
      eofSeen := false, ctValid := false, phase := .cdWalk, pend := none }) hb rfl rfl
  exact ⟨path, h.trans (congrArg Host.Outcome.next (ctdrEnd_encode hc ht))⟩

/-- What TBLD and CTDR leave in ENCODE, where SENC starts (R123). -/
def State.coded (s : State) (e a c : QEntry) (path : Code) : State :=
  { s with
    tree := e.t
    ct := e.t.table
    q := [e]
    seq := 2 * presentCount s.ft + 1
    a := a
    c := c
    path := path
    stk := []
    eofSeen := false
    ftValid := false
    treeValid := true
    ctValid := true
    phase := .cdWalk
    pend := none }

/-- In ENCODE, the three internal updates lead from the start of TBLD to the first transaction of SENC (R123). -/
theorem tables_steps {s : State} (hb : s.st = .busy) (hc : s.cmd = opEncode) (hf : s.ftValid = true)
    (hw : widthFits s.par.width (1 + s.ft.toList.sum) = true) :
    ∃ e a c path, BuiltFrom s.ft e.t ∧ e.t.leaves.Perm (initialLeaves s.ft) ∧ e.t.weighted = true ∧
      ∀ n u, 0 < n →
        Steps n { s.coded e a c path with phase := .seMagic, pend := some (.boutWriteBits s.par.magic.toNat 32) } u →
        Steps n (tbldStart s) u := by
  obtain ⟨e, a, c, hbuilt, hleaves, hweighted, s', h1, h2⟩ := tbld_updates hb hf hw
  rw [tbldEnd_encode (s := s.built e a c) hc] at h2
  obtain ⟨path, h3⟩ := ctdr_update_encode (s := { s.built e a c with treeValid := true, ftValid := false }) hb hc rfl
  exact ⟨e, a, c, path, hbuilt, hleaves, hweighted, fun n u hn h =>
    .internal_of_pos h1 hn (.internal_of_pos h2 hn (.internal_of_pos h3 hn h))⟩

/-- The tree built from the counts of these bytes gives each of them, and the EOF-symbol, a Code (R114). -/
theorem covers_table {ys : List Byte} {T : Tree} (h : T.leaves.Perm (initialLeaves (byteCounts ys))) :
    covers T.table ys := by
  have hcode : ∀ sym ∈ (initialLeaves (byteCounts ys)).map Prod.fst, ctAt T.table sym ≠ none := by
    intro sym hsym hnone
    rw [ctAt_table, Tree.codeOf_eq_none, (h.map Prod.fst).mem_iff] at hnone
    exact hnone hsym
  refine ⟨fun y hy => hcode _ ((mem_initialLeaves _ _).mpr (.inr ⟨y, rfl, ?_⟩)),
    hcode _ ((mem_initialLeaves _ _).mpr (.inl rfl))⟩
  rw [ftAt_byteCounts]
  exact List.count_pos_iff.mpr hy

theorem sencTxns_pos (t : Tree) (ct : Vector (Option Code) 257) (ys : List Byte) : 0 < sencTxns t ct ys := by
  unfold sencTxns; omega

@[simp] theorem sencEnd_st (s : State) : (sencEnd s).st = .done := rfl

@[simp] theorem sencEnd_ct (s : State) : (sencEnd s).ct = s.ct := rfl

/-- What ENCODE leaves, before its end (R123). -/
def State.encoded (s : State) (e a c : QEntry) (path : Code) : State :=
  { (s.counted s.src).coded e a c path with
    bout := s.bout ++ toBits 32 s.par.magic.toNat ++ e.t.ser ++ payload e.t.table s.src
    srcPos := s.src.length
    k := (codeBits e.t.table eofSym).length
    phase := .seEofcode }

@[simp] theorem State.encoded_ct (s : State) (e a c : QEntry) (path : Code) :
    (s.encoded e a c path).ct = e.t.table := rfl

/-- All of ENCODE from src_pos 0, where the root's weight fits: FC_SCAN, the three internal updates, and SENC (R123). -/
theorem encode_steps {s : State} (hb : s.st = .busy) (hc : s.cmd = opEncode) (hpos : s.srcPos = 0)
    (hw : widthFits s.par.width (1 + s.src.length) = true) :
    ∃ e a c path, BuiltFrom (byteCounts s.src) e.t ∧ e.t.leaves.Perm (initialLeaves (byteCounts s.src)) ∧
      e.t.weighted = true ∧
      Steps (s.src.length + 1 + sencTxns e.t e.t.table s.src) (fcntStart s) (sencEnd (s.encoded e a c path)) := by
  have hsrc : s.src.drop s.srcPos = s.src := by rw [hpos]; rfl
  have hcounts : ∀ y, widthFits s.par.width (s.src.count y) = true := fun y =>
    widthFits_le (List.count_le_length.trans (Nat.le_add_left ..)) hw
  have hroot : widthFits s.par.width (1 + (byteCounts s.src).toList.sum) = true := by rwa [sum_byteCounts]
  have hfcnt := fcnt_steps hb hsrc hcounts
  rw [fcntEnd_counted_encode hc] at hfcnt
  obtain ⟨e, a, c, path, hbuilt, hleaves, hweighted, htables⟩ := tables_steps (s := s.counted s.src) hb hc rfl hroot
  have hne6 : s.cmd ≠ 6 := by rw [hc]; decide
  have hsenc := senc_steps (s := (s.counted s.src).coded e a c path) hb rfl hne6 (covers_table hleaves)
  exact ⟨e, a, c, path, hbuilt, hleaves, hweighted, hfcnt.trans (htables _ _ (sencTxns_pos ..) hsenc)⟩

/-- ENCODE is refused where a count or the root's weight does not fit (R86, R94, U3). -/
theorem encode_refused {s : State} (hb : s.st = .busy) (hc : s.cmd = opEncode) (hpos : s.srcPos = 0)
    (hw : widthFits s.par.width (1 + s.src.length) = false) (m : Nat) :
    run (oks (s.src.length + 1) (List.replicate m .ok)) (fcntStart s) = .refused .countWidth := by
  have hsrc : s.src.drop s.srcPos = s.src := by rw [hpos]; rfl
  by_cases hcounts : ∀ y, widthFits s.par.width (s.src.count y) = true
  · have hroot : widthFits s.par.width (1 + (byteCounts s.src).toList.sum) = false := by rwa [sum_byteCounts]
    rw [fcnt_steps hb hsrc hcounts, fcntEnd_counted_encode hc]
    exact tbld_refused (s := s.counted s.src) hb rfl hroot (head?_replicate_ok_ne_hold m)
  · obtain ⟨z, hz⟩ := not_forall.mp hcounts
    rw [oks_add]
    exact fcnt_refused hb hsrc (Bool.eq_false_iff.mpr hz) _

/-- However ENCODE from src_pos 0 has come to DONE, FT counts SRC, TREE is built from FT, CT is its table, and the file is
appended to BOUT (R123). -/
theorem encode_done {s t : State} (ha : s.accepts = true) (hpos : s.srcPos = 0) (h : exec .encode s = .next t)
    (ht : t.st = .done) :
    t.ft = byteCounts s.src ∧ BuiltFrom t.ft t.tree ∧ t.ct = t.tree.table ∧
      t.bout = s.bout ++ toBits 32 s.par.magic.toNat ++ t.tree.ser ++ payload t.ct s.src := by
  replace h : run s.answers (fcntStart { s with cmd := opEncode, st := .busy }) = .next t :=
    (command_run ha opEncode fcntStart).symm.trans h
  cases hw : widthFits s.par.width (1 + s.src.length) with
  | true =>
    obtain ⟨e, a, c, path, hbuilt, -, -, hsteps⟩ :=
      encode_steps (s := { s with cmd := opEncode, st := .busy }) rfl rfl hpos hw
    have heq := hsteps.done_eq (sencEnd_st _) h ht
    have hft : t.ft = byteCounts s.src := congrArg (fun u : State => u.ft) heq
    have htree : t.tree = e.t := congrArg (fun u : State => u.tree) heq
    have hct : t.ct = e.t.table := by
      simpa using congrArg (fun u : State => u.ct) heq
    have hbout : t.bout = s.bout ++ toBits 32 s.par.magic.toNat ++ e.t.ser ++ payload e.t.table s.src :=
      congrArg (fun u : State => u.bout) heq
    rw [hft, htree, hct]
    exact ⟨rfl, hbuilt, rfl, hbout⟩
  | false =>
    exact absurd ht (not_done_of_refused
      (encode_refused (s := { s with cmd := opEncode, st := .busy }) rfl rfl hpos hw) h)

/-- The length of the payload does not depend on the order of the bytes (R142). -/
theorem payload_length_perm {ys zs : List Byte} (h : ys.Perm zs) (ct : Vector (Option Code) 257) :
    (payload ct ys).length = (payload ct zs).length := by
  rw [payload, payload, List.length_append, List.length_append, (h.flatMap_right _).length_eq]

/-- The header of a file is the magic and the tree (R72, R73). -/
theorem take_header (magic : Word) (T : Tree) (bs : List Bit) :
    (toBits 32 magic.toNat ++ T.ser ++ bs).take (32 + T.ser.length) = toBits 32 magic.toNat ++ T.ser :=
  List.take_left' (by rw [List.length_append, length_toBits])

/-- Settles O53: FT depends on the multiset of the bytes, TREE on FT, CT and the header on TREE, and the payload's length
on CT and the multiset. -/
theorem permutedInputGivesTheSameTree : Obligations.PermutedInputGivesTheSameTree := by
  refine ⟨fun s u t v hs hu hperm h ht h' hv => ?_, fun s u t v hs hu hft hsf huf h ht h' hv => ?_,
    fun s u t v hs hu hs0 hu0 hperm hsb hub hmagic h ht h' hv => ?_⟩
  · rw [fcnt_done hs h ht, fcnt_done hu h' hv, byteCounts_perm hperm]
  · exact (tbld_done hs hsf h ht).unique (hft ▸ tbld_done hu huf h' hv)
  · obtain ⟨hft, hbuilt, hct, hbout⟩ := encode_done hs hs0 h ht
    obtain ⟨hft', hbuilt', hct', hbout'⟩ := encode_done hu hu0 h' hv
    have hfteq : t.ft = v.ft := by rw [hft, hft', byteCounts_perm hperm]
    have htree : t.tree = v.tree := hbuilt.unique (hfteq ▸ hbuilt')
    have hcteq : t.ct = v.ct := by rw [hct, hct', htree]
    rw [hsb, List.nil_append] at hbout
    rw [hub, List.nil_append, ← hmagic, ← htree, ← hcteq] at hbout'
    refine ⟨hfteq, htree, hcteq, ?_, ?_⟩
    · rw [hbout, hbout', List.length_append, payload_length_perm hperm, ← List.length_append]
    · rw [hbout, hbout', take_header, take_header]

end Sys2Proof.Machine

/-! The proofs of the statements of 41_huffman_tree_builder.md: the order in which the builder merges, the tree it builds and
what it builds on at most one byte value, and that no tree over the same leaves has a smaller weighted depth. -/

namespace Sys2Proof.Machine

/-! ### TB_INIT inserts the initial leaves in order (R89, R90) -/

/-- The insertion of these leaves, in order. -/
def Builder.insertLeaves (ls : List (Symbol × Nat)) (B : Builder) : Builder :=
  ls.foldl (fun B l => B.insert (.leaf l.1 l.2)) B

/-- TB_INIT inserts the initial leaves into an empty Q (R89). -/
theorem init_eq_insertLeaves (ft : Vector Nat 256) (B : Builder) :
    B.init ft = Builder.insertLeaves (initialLeaves ft) { B with q := [], seq := 0 } := by
  rw [Builder.insertLeaves, initialLeaves, List.foldl_cons, List.foldl_map, List.foldl_filter]
  simp only [decide_eq_true_eq]
  rfl

/-- The entries of these leaves, numbered from 0 in order (R90). -/
def numberedEntries (ls : List (Symbol × Nat)) : List QEntry := ls.mapIdx fun i l => ⟨l.2, i, .leaf l.1 l.2⟩

theorem insertLeaves_numbered (ls : List (Symbol × Nat)) {B : Builder} (hq : B.q = []) (hs : B.seq = 0) :
    (B.insertLeaves ls).q.Perm (numberedEntries ls) ∧ (B.insertLeaves ls).seq = ls.length := by
  induction ls using List.reverseRecOn with
  | nil => exact ⟨.of_eq hq, hs⟩
  | append_singleton ls l ih =>
    obtain ⟨hperm, hseq⟩ := ih
    have hlast : B.insertLeaves (ls ++ [l]) = (B.insertLeaves ls).insert (.leaf l.1 l.2) := List.foldl_concat ..
    rw [hlast, numberedEntries, List.mapIdx_concat, ← hseq]
    refine ⟨?_, by simp [hseq]⟩
    exact (qInsert_perm _ _).trans ((hperm.cons _).trans (List.perm_append_singleton _ _).symm)

/-- After TB_INIT, Q holds the initial leaves, numbered in order (R89, R90). -/
theorem init_perm_numberedEntries (ft : Vector Nat 256) (B : Builder) :
    (B.init ft).q.Perm (numberedEntries (initialLeaves ft)) := by
  rw [init_eq_insertLeaves]
  exact (insertLeaves_numbered _ rfl rfl).1

/-! ### TB_MERGE turn by turn (R89 to R91) -/

theorem merge_of_length_le_one {B : Builder} (h : B.q.length ≤ 1) (n : Nat) : B.merge n = B := by
  cases n with
  | zero => rfl
  | succ n =>
    match hq : B.q with
    | [] => simp [Builder.merge, hq]
    | [_] => simp [Builder.merge, hq]
    | _ :: _ :: _ => simp [hq] at h

theorem merge_succ_cons {B : Builder} {a c : QEntry} {rest : List QEntry} (hq : B.q = a :: c :: rest) (n : Nat) :
    B.merge (n + 1) = (B.mergeOnce a c rest).merge n := by
  rw [Builder.merge, hq]
  rfl

/-- One more turn is a turn from where the others have led. -/
theorem merge_succ_eq (n : Nat) (B : Builder) : B.merge (n + 1) = (B.merge n).merge 1 := by
  induction n generalizing B with
  | zero => rfl
  | succ n ih =>
    match hq : B.q with
    | [] => simp [merge_of_length_le_one (B := B) (by simp [hq])]
    | [_] => simp [merge_of_length_le_one (B := B) (by simp [hq])]
    | a :: c :: rest => rw [merge_succ_cons hq, merge_succ_cons hq, ih]

theorem merge_queueOk (n : Nat) {B : Builder} (h : queueOk B.q B.seq) : queueOk (B.merge n).q (B.merge n).seq := by
  induction n generalizing B with
  | zero => exact h
  | succ n ih =>
    match hq : B.q with
    | [] => rwa [merge_of_length_le_one (by simp [hq])]
    | [_] => rwa [merge_of_length_le_one (by simp [hq])]
    | a :: c :: rest =>
      rw [merge_succ_cons hq]
      exact ih (mergeOnce_queueOk h hq)

/-- Settles O23: Q is in the order of R90 after any number of merges, and the next merge takes its first two entries. -/
theorem builderMergesTheTwoLeastEntries : Obligations.BuilderMergesTheTwoLeastEntries := by
  refine fun ft B₀ => ⟨init_perm_numberedEntries ft B₀, fun n a c rest hq => ?_⟩
  have hok := merge_queueOk n (init_spec ft B₀).1
  obtain ⟨ha, hc⟩ := List.pairwise_cons.mp (hq ▸ hok.sorted)
  have hweight : ∀ e ∈ a :: c :: rest, e.t.weight = e.w := fun e he => (hok.weights e (hq ▸ he)).1.symm
  have hnext : (B₀.init ft).merge (n + 1) = ((B₀.init ft).merge n).mergeOnce a c rest :=
    (merge_succ_eq n _).trans (merge_succ_cons hq 0)
  refine ⟨fun e he => before_iff.mp (ha e he), fun e he => before_iff.mp ((List.pairwise_cons.mp hc).1 e he), ?_, ?_⟩
  · rw [hnext, ← hweight a (by simp), ← hweight c (by simp)]
    exact qInsert_perm _ _
  · rw [hnext]
    rfl

/-! ### The tree of TBLD (R89, R94, R95) -/

theorem length_initialLeaves (ft : Vector Nat 256) : (initialLeaves ft).length = presentCount ft + 1 := by
  rw [initialLeaves, List.length_cons, List.length_map, presentCount_eq]

/-- A tree over the initial leaves has n + 1 leaves, n internal nodes and at most n levels (R95). -/
theorem Tree.counts_of_leaves_perm {T : Tree} {ft : Vector Nat 256} (h : T.leaves.Perm (initialLeaves ft)) :
    T.innerCount = presentCount ft ∧ T.leafCount = presentCount ft + 1 ∧ T.depth ≤ presentCount ft := by
  have hleaf : T.leafCount = presentCount ft + 1 := by
    rw [← T.length_leaves, h.length_eq, length_initialLeaves]
  have hinner : T.innerCount = presentCount ft := by
    have := T.leafCount_eq
    omega
  exact ⟨hinner, hleaf, hinner ▸ T.depth_le_innerCount⟩

/-- Settles O21: the two internal updates of TBLD, the second of which makes all merges and ends the command. -/
theorem tbldBuildsTheTree : Obligations.TbldBuildsTheTree := by
  intro s ha hf hhold hw
  obtain ⟨e, a, c, hew, hleaves, hweighted, hsum, hq, h1, h2⟩ := tbld_internal (s := { s with
      cmd := 0x4, st := .busy, eofSeen := false, treeValid := false, ctValid := false, phase := .tbInit, pend := none })
    rfl rfl rfl
  replace h2 := h2.trans (if_pos hw)
  rw [tbldEnd_tbld rfl] at h2
  refine ⟨e.t, e, a, c, ?_, rfl, (merge_all s.ft s.builder) ▸ hq, hew, hleaves, hweighted, hsum,
    Tree.counts_of_leaves_perm hleaves⟩
  calc exec .tbld s
      = run s.answers (tbldStart { s with cmd := 0x4, st := .busy }) := command_run ha 0x4 tbldStart
    _ = _ := by
        rw [tbld_start (s := { s with cmd := 0x4, st := .busy }) hf, run_internal h1 hhold, run_internal h2 hhold,
          run_of_not_busy (by simp)]
        rfl

/-! ### The two smallest trees (R92, R93) -/

/-- A leaf alone is left as it is (R92). -/
theorem BuiltFrom.eq_leaf {ft : Vector Nat 256} {T : Tree} (h : BuiltFrom ft T) {l : Symbol × Nat}
    (hft : initialLeaves ft = [l]) : T = .leaf l.1 l.2 := by
  obtain ⟨B, e, he, rfl⟩ := h
  have hq : (B.init ft).q = [⟨l.2, 0, .leaf l.1 l.2⟩] := by
    rw [init_eq_insertLeaves, hft]
    rfl
  rw [merge_of_length_le_one (by simp [hq]), hq] at he
  rw [← List.singleton_inj.mp he]

/-- Two leaves become the children of one node in the order of their insertion, unless the second is lighter (R90, R91,
R93). -/
theorem BuiltFrom.eq_pair {ft : Vector Nat 256} {T : Tree} (h : BuiltFrom ft T) {l r : Symbol × Nat}
    (hft : initialLeaves ft = [l, r]) (hle : l.2 ≤ r.2) :
    T = .internal (.leaf l.1 l.2) (.leaf r.1 r.2) (l.2 + r.2) := by
  obtain ⟨B, e, he, rfl⟩ := h
  have hq : (B.init ft).q = [⟨l.2, 0, .leaf l.1 l.2⟩, ⟨r.2, 1, .leaf r.1 r.2⟩] := by
    rw [init_eq_insertLeaves, hft]
    simp [Builder.insertLeaves, Builder.insert, qInsert, QEntry.before, hle.not_gt]
  rw [hq, List.length_cons, merge_succ_cons hq, merge_of_length_le_one (by simp [mergeOnce_length])] at he
  rw [← List.singleton_inj.mp he]
  rfl

/-- A table without a count starts the builder with the EOF-symbol alone (R92). -/
theorem initialLeaves_of_zero {ft : Vector Nat 256} (h : ∀ y, ftAt ft y = 0) : initialLeaves ft = [(eofSym, 1)] := by
  have hnone : (List.finRange 256).filter (fun s => decide (1 ≤ ft[s.val])) = [] := by
    refine List.filter_eq_nil_iff.mpr fun s _ => ?_
    have hs : ft[s.val] = 0 := h (BitVec.ofFin s)
    simp [hs]
  rw [initialLeaves, hnone, List.map_nil]

/-- A table with one count starts the builder with two leaves (R93). -/
theorem initialLeaves_of_single {ft : Vector Nat 256} {x : Byte} (hx : 1 ≤ ftAt ft x)
    (h : ∀ y, y ≠ x → ftAt ft y = 0) : initialLeaves ft = [(eofSym, 1), (symbolOfByte x, ftAt ft x)] := by
  have hone : (List.finRange 256).filter (fun s => decide (1 ≤ ft[s.val])) = [x.toFin] := by
    have hp : (fun s : Fin 256 => decide (1 ≤ ft[s.val])) = fun s => s == x.toFin := by
      funext s
      by_cases hs : s = x.toFin
      · subst hs
        simpa [ftAt] using hx
      · have hzero : ft[s.val] = 0 := h (BitVec.ofFin s) fun he => hs (by rw [← he])
        simp [hs, hzero]
    rw [hp, List.filter_beq, List.count_eq_one_of_mem (List.nodup_finRange 256) (List.mem_finRange _),
      List.replicate_one]
  rw [initialLeaves, hone]
  rfl

/-- The Code of the only symbol of a tree is empty (R92). -/
theorem codeOf_single (sym : Symbol) (w : Nat) : (Tree.leaf sym w).codeOf sym = some [] := by
  rw [Tree.codeOf_leaf, if_pos rfl]

/-- The Codes of a tree of two leaves are 0 and 1 (R93). -/
theorem codeOf_pair {x y : Symbol} (h : x ≠ y) (v w u : Nat) :
    (Tree.internal (.leaf x v) (.leaf y w) u).codeOf x = some [false] ∧
      (Tree.internal (.leaf x v) (.leaf y w) u).codeOf y = some [true] := by
  simp [Tree.codeOf_internal, Tree.codeOf_leaf, h, h.symm]

/-- What the builder makes of a table with one count (R93). -/
theorem BuiltFrom.eq_single {ft : Vector Nat 256} {T : Tree} (h : BuiltFrom ft T) {x : Byte} (hx : 1 ≤ ftAt ft x)
    (hother : ∀ y, y ≠ x → ftAt ft y = 0) :
    T = .internal (.leaf eofSym 1) (.leaf (symbolOfByte x) (ftAt ft x)) (ftAt ft x + 1) := by
  rw [h.eq_pair (initialLeaves_of_single hx hother) hx, Nat.add_comm]

/-- Settles O24: the tree is built from FT, and there is no merge or one. -/
theorem tbldOnAtMostOneByteValue : Obligations.TbldOnAtMostOneByteValue := by
  intro s t ha hf h ht
  have hbuilt := tbld_done ha hf h ht
  refine ⟨fun hzero => ?_, fun x hx hother => ?_⟩
  · rw [hbuilt.eq_leaf (initialLeaves_of_zero hzero)]
    exact ⟨rfl, codeOf_single _ _⟩
  · rw [hbuilt.eq_single hx hother]
    exact ⟨rfl, codeOf_pair (symbolOfByte_ne_eof x).symm _ _ _⟩

/-! ### ENCODE of one repeated byte (R93, R144) -/

/-- The builder started on n + 1 times one byte (R93). -/
theorem BuiltFrom.eq_replicate {n : Nat} {y : Byte} {T : Tree} (h : BuiltFrom (byteCounts (List.replicate (n + 1) y)) T) :
    T = .internal (.leaf eofSym 1) (.leaf (symbolOfByte y) (n + 1)) (n + 2) := by
  have hy : ftAt (byteCounts (List.replicate (n + 1) y)) y = n + 1 := by
    rw [ftAt_byteCounts, List.count_replicate_self]
  have hother : ∀ z, z ≠ y → ftAt (byteCounts (List.replicate (n + 1) y)) z = 0 := fun z hz => by
    rw [ftAt_byteCounts, List.count_replicate, if_neg (by simpa using hz.symm)]
  rw [h.eq_single (by omega) hother, hy]

/-- The payload of n times one byte whose Code is `code` (R80). -/
theorem payload_replicate {ct : Vector (Option Code) 257} {y : Byte} {b : Bit} (h : ctAt ct (symbolOfByte y) = some [b])
    (n : Nat) : payload ct (List.replicate n y) = List.replicate n b ++ codeBits ct eofSym := by
  rw [payload]
  congr 1
  induction n with
  | zero => rfl
  | succ n ih => rw [List.replicate_succ, List.flatMap_cons, ih, codeBits, h]; rfl

/-- Settles O52: ENCODE with the tree of two leaves, whose Codes are 0 and 1. -/
theorem repeatedByteGivesTwoLeaves : Obligations.RepeatedByteGivesTwoLeaves := by
  intro s y n rest ha hsrc hpos hw hr
  have hw' : widthFits s.par.width (1 + s.src.length) = true := by
    rwa [hsrc, List.length_replicate, Nat.add_comm]
  obtain ⟨e, a, c, path, hbuilt, -, -, hsteps⟩ :=
    encode_steps (s := { s with cmd := opEncode, st := .busy }) rfl rfl hpos hw'
  have htree : e.t = .internal (.leaf eofSym 1) (.leaf (symbolOfByte y) (n + 1)) (n + 2) :=
    BuiltFrom.eq_replicate (hsrc ▸ hbuilt)
  have hpayload : payload e.t.table s.src = List.replicate (n + 1) true ++ [false] := by
    obtain ⟨heof, hy⟩ := codeOf_pair (symbolOfByte_ne_eof y).symm 1 (n + 1) (n + 2)
    rw [← htree, ← ctAt_table] at heof hy
    rw [hsrc, payload_replicate hy, codeBits, heof]
    rfl
  have htxns : s.src.length + 1 + sencTxns e.t e.t.table s.src = 3 * n + 13 := by
    rw [sencTxns, hpayload, htree, hsrc]
    simp [Tree.txns, Tree.leafCount, Tree.innerCount]
    omega
  have hexec : exec .encode s = _ :=
    (command_oks ha hr opEncode fcntStart).trans ((hsteps.cast htxns).end (by simp) rest)
  refine ⟨_, hexec, rfl, rfl, htree, ?_⟩
  show s.bout ++ toBits 32 s.par.magic.toNat ++ e.t.ser ++ payload e.t.table s.src = _
  rw [hpayload, htree]
  simp [Tree.ser, eofSym]

/-! ### Weighted depth by the leaves' weights and depths (R96) -/

/-- The weight and the depth of every leaf, left to right, the root standing at depth `d`. -/
def Tree.profile : Tree → Nat → List (Nat × Nat)
  | .leaf _ w, d => [(w, d)]
  | .internal left right _, d => left.profile (d + 1) ++ right.profile (d + 1)

/-- The sum of weight × depth. -/
def weightedDepth (M : List (Nat × Nat)) : Nat := (M.map fun p => p.1 * p.2).sum

@[simp] theorem weightedDepth_cons (p : Nat × Nat) (M : List (Nat × Nat)) :
    weightedDepth (p :: M) = p.1 * p.2 + weightedDepth M := rfl

@[simp] theorem weightedDepth_append (M N : List (Nat × Nat)) :
    weightedDepth (M ++ N) = weightedDepth M + weightedDepth N := by
  rw [weightedDepth, List.map_append, List.sum_append]
  rfl

theorem weightedDepth_perm {M N : List (Nat × Nat)} (h : M.Perm N) : weightedDepth M = weightedDepth N :=
  (h.map _).sum_eq

namespace Tree

theorem cost_eq_weightedDepth (t : Tree) (d : Nat) : t.cost d = weightedDepth (t.profile d) := by
  induction t generalizing d with
  | leaf => rfl
  | internal l r w hl hr => rw [cost, profile, weightedDepth_append, hl, hr]

theorem profile_weights (t : Tree) (d : Nat) : (t.profile d).map Prod.fst = t.leaves.map Prod.snd := by
  induction t generalizing d with
  | leaf => rfl
  | internal l r w hl hr => rw [profile, leaves, List.map_append, List.map_append, hl, hr]

theorem profile_depths_le {t : Tree} {d e : Nat} (h : e ∈ (t.profile d).map Prod.snd) : e ≤ d + t.depth := by
  induction t generalizing d with
  | leaf =>
    rw [List.mem_singleton.mp h]
    exact Nat.le_add_right ..
  | internal l r w hl hr =>
    rw [profile, List.map_append, List.mem_append] at h
    rw [depth]
    rcases h with h | h
    · have := hl h
      omega
    · have := hr h
      omega

/-- One edge more above a weighted tree costs its weight once more. -/
theorem cost_succ {t : Tree} (h : t.weighted = true) (d : Nat) : t.cost (d + 1) = t.cost d + t.weight := by
  induction t generalizing d with
  | leaf sym w => exact Nat.mul_succ w d
  | internal l r w hl hr =>
    simp only [weighted, Bool.and_eq_true, decide_eq_true_eq] at h
    obtain ⟨⟨hwl, hwr⟩, rfl⟩ := h
    rw [cost, cost, hl hwl, hr hwr, weight_internal]
    omega

/-! ### The shape of a tree bears any weights -/

/-- A tree of the same shape with these weights in its leaves, left to right. -/
theorem exists_profile_eq (t : Tree) (d : Nat) {M : List (Nat × Nat)}
    (h : M.map Prod.snd = (t.profile d).map Prod.snd) : ∃ v : Tree, v.profile d = M := by
  induction t generalizing d M with
  | leaf sym w =>
    obtain ⟨⟨w', d'⟩, rfl, rfl⟩ := List.map_eq_singleton_iff.mp h
    exact ⟨.leaf sym w', rfl⟩
  | internal l r w hl hr =>
    rw [profile, List.map_append] at h
    obtain ⟨Ml, Mr, rfl, hMl, hMr⟩ := List.map_eq_append_iff.mp h
    obtain ⟨vl, rfl⟩ := hl _ hMl
    obtain ⟨vr, rfl⟩ := hr _ hMr
    exact ⟨.internal vl vr 0, rfl⟩

end Tree

/-- A list whose values under f are those of L in some order can be put in the order of L. -/
theorem exists_perm_map_eq {α β : Type} (f : α → β) {M : List α} {L : List β} (h : (M.map f).Perm L) :
    ∃ N : List α, N.Perm M ∧ N.map f = L := by
  have hM : List.Forall₂ (fun b x => b = f x) (M.map f) M := by
    rw [List.forall₂_map_left_iff, List.forall₂_same]
    exact fun _ _ => rfl
  obtain ⟨N, hN, hperm⟩ := List.perm_comp_forall₂ h.symm hM
  refine ⟨N, hperm, ?_⟩
  rw [← List.forall₂_eq_eq_eq, List.forall₂_map_left_iff]
  exact hN.flip.imp fun _ _ => Eq.symm

namespace Tree

/-- A tree over these weights and depths, where there is one over the same depths. -/
theorem exists_profile_perm (t : Tree) (d : Nat) {M : List (Nat × Nat)}
    (h : (M.map Prod.snd).Perm ((t.profile d).map Prod.snd)) : ∃ v : Tree, (v.profile d).Perm M := by
  obtain ⟨N, hperm, hN⟩ := exists_perm_map_eq Prod.snd h
  obtain ⟨v, rfl⟩ := t.exists_profile_eq d hN
  exact ⟨v, hperm⟩

/-- A tree that is no leaf has two siblings on its lowest level; with both cut off, their parent is a leaf one level
higher. -/
theorem exists_deepest_siblings {t : Tree} {k : Nat} (h : t.depth = k + 1) (d : Nat) :
    ∃ (a b : Nat) (M : List (Nat × Nat)) (v : Tree), (t.profile d).Perm ((a, d + k + 1) :: (b, d + k + 1) :: M) ∧
      (v.profile d).Perm ((0, d + k) :: M) := by
  induction t generalizing k d with
  | leaf => cases h
  | internal l r w hl hr =>
    replace h : max l.depth r.depth = k := Nat.succ.inj h
    cases k with
    | zero =>
      match l, r with
      | .leaf x a, .leaf y b => exact ⟨a, b, [], .leaf x 0, .refl _, .refl _⟩
      | .internal .., _ => simp [depth] at h
      | _, .internal .. => simp [depth] at h
    | succ k =>
      have hd : d + (k + 1) = d + 1 + k := by omega
      rw [hd]
      rcases (by omega : l.depth = k + 1 ∨ r.depth = k + 1) with hk | hk
      · obtain ⟨a, b, M, v, ht, hv⟩ := hl hk (d + 1)
        exact ⟨a, b, M ++ r.profile (d + 1), .internal v r 0, ht.append_right _, hv.append_right _⟩
      · obtain ⟨a, b, M, v, ht, hv⟩ := hr hk (d + 1)
        refine ⟨a, b, M ++ l.profile (d + 1), .internal l v 0, ?_, ?_⟩
        · exact List.perm_append_comm.trans (ht.append_right _)
        · exact List.perm_append_comm.trans (hv.append_right _)

end Tree

/-! ### The exchange argument -/

/-- Where the least weight x is exchanged with a weight on the lowest level, the weighted depth does not grow. -/
theorem exists_exchange {x a D : Nat} {M : List (Nat × Nat)} (hx : x ∈ a :: M.map Prod.fst) (hxa : x ≤ a)
    (hD : ∀ d ∈ M.map Prod.snd, d ≤ D) :
    ∃ N : List (Nat × Nat), N.map Prod.snd = M.map Prod.snd ∧ (x :: N.map Prod.fst).Perm (a :: M.map Prod.fst) ∧
      weightedDepth ((x, D) :: N) ≤ weightedDepth ((a, D) :: M) := by
  rcases List.mem_cons.mp hx with rfl | hx
  · exact ⟨M, rfl, .refl _, le_rfl⟩
  · obtain ⟨⟨x, d⟩, hp, rfl⟩ := List.mem_map.mp hx
    obtain ⟨P, S, rfl⟩ := List.append_of_mem hp
    refine ⟨P ++ (a, d) :: S, by simp, ?_, ?_⟩
    · simp only [List.map_append, List.map_cons]
      exact (List.perm_middle.cons _).trans ((List.Perm.swap ..).trans (List.perm_middle.symm.cons _))
    · have hswap : x * D + a * d ≤ x * d + a * D := mul_add_mul_le_mul_add_mul hxa (hD d (by simp))
      simp only [weightedDepth_cons, weightedDepth_append]
      omega

/-- A tree with two leaves or more is no leaf. -/
theorem Tree.depth_ne_zero {u : Tree} (h : 1 < u.leaves.length) : u.depth ≠ 0 := by
  cases u with
  | leaf => exact absurd h (Nat.lt_irrefl 1)
  | internal => exact Nat.succ_ne_zero _

/-- For a tree over the two least weights x and y, and others, there is one over x + y in their place that is better by
x + y at least: both are exchanged with two siblings on the lowest level, which are then cut off. -/
theorem Tree.exists_contracted {u : Tree} {x y : Nat} {ws : List Nat}
    (hu : (u.leaves.map Prod.snd).Perm (x :: y :: ws)) (hxy : x ≤ y) (hy : ∀ w ∈ ws, y ≤ w) :
    ∃ v : Tree, (v.leaves.map Prod.snd).Perm ((x + y) :: ws) ∧ v.cost 0 + (x + y) ≤ u.cost 0 := by
  have hlen : 1 < u.leaves.length := by
    have := hu.length_eq
    simp only [List.length_map, List.length_cons] at this
    omega
  obtain ⟨k, hk⟩ := Nat.exists_eq_add_one_of_ne_zero (u.depth_ne_zero hlen)
  obtain ⟨a, b, M, v, hprofile, hv⟩ := u.exists_deepest_siblings hk 0
  rw [Nat.zero_add] at hprofile hv
  have hdepth : ∀ d ∈ (k + 1) :: M.map Prod.snd, d ≤ k + 1 := fun d hd => by
    have := profile_depths_le ((hprofile.map Prod.snd).mem_iff.mpr (List.mem_cons_of_mem (k + 1) hd))
    omega
  have hweights : (a :: b :: M.map Prod.fst).Perm (x :: y :: ws) :=
    (hprofile.map Prod.fst).symm.trans (u.profile_weights 0 ▸ hu)
  have hxle : ∀ w ∈ x :: y :: ws, x ≤ w :=
    List.forall_mem_cons.mpr ⟨le_rfl, List.forall_mem_cons.mpr ⟨hxy, fun w hw => hxy.trans (hy w hw)⟩⟩
  -- x takes the place of the first sibling
  obtain ⟨N₀, hd₀, hw₀, hcost₀⟩ := exists_exchange (x := x) (a := a) (D := k + 1) (M := (b, k + 1) :: M)
    (hweights.mem_iff.mpr (by simp)) (hxle a (hweights.mem_iff.mp (by simp))) hdepth
  obtain ⟨⟨b', _⟩, N, rfl, rfl, hNd⟩ := List.map_eq_cons_iff.mp hd₀
  have hNw : (b' :: N.map Prod.fst).Perm (y :: ws) := (List.perm_cons x).mp (hw₀.trans hweights)
  -- y takes the place of the second
  obtain ⟨L, hLd, hLw, hcost⟩ := exists_exchange (x := y) (a := b') (D := k + 1) (M := N) (hNw.mem_iff.mpr (by simp))
    (List.forall_mem_cons.mpr ⟨le_rfl, hy⟩ b' (hNw.mem_iff.mp (by simp)))
    (fun d hd => hdepth d (List.mem_cons_of_mem _ (hNd ▸ hd)))
  replace hLw : (L.map Prod.fst).Perm ws := (List.perm_cons y).mp (hLw.trans hNw)
  -- the siblings are cut off
  obtain ⟨v', hv'⟩ := v.exists_profile_perm 0 (M := (x + y, k) :: L) (by
    rw [List.map_cons, hLd, hNd]
    exact (hv.map Prod.snd).symm)
  refine ⟨v', ?_, ?_⟩
  · rw [← v'.profile_weights 0]
    exact (hv'.map Prod.fst).trans (hLw.cons _)
  · rw [cost_eq_weightedDepth, cost_eq_weightedDepth, weightedDepth_perm hv', weightedDepth_perm hprofile]
    simp only [weightedDepth_cons, Nat.mul_succ, Nat.add_mul] at hcost₀ hcost ⊢
    omega

/-! ### TB_MERGE is optimal (R96) -/

/-- From a queue in order, TB_MERGE leads to a tree that is no worse than one which a competitor u over the weights in Q
would make of the trees in Q. -/
theorem merge_cost_le (n : Nat) {B : Builder} (h : queueOk B.q B.seq) {e : QEntry} (he : (B.merge n).q = [e]) {u : Tree}
    (hu : (u.leaves.map Prod.snd).Perm (B.q.map QEntry.w)) :
    e.t.cost 0 ≤ u.cost 0 + (B.q.map fun f => f.t.cost 0).sum := by
  induction n generalizing B u with
  | zero => simp [show B.q = [e] from he]
  | succ n ih =>
    match hq : B.q with
    | [] => simp [merge_of_length_le_one (B := B) (by simp [hq]), hq] at he
    | [f] =>
      rw [merge_of_length_le_one (by simp [hq]), hq] at he
      simp [List.singleton_inj.mp he]
    | a :: c :: rest =>
      rw [merge_succ_cons hq] at he
      obtain ⟨ha, hc⟩ := List.pairwise_cons.mp (hq ▸ h.sorted)
      obtain ⟨hwa, hta⟩ := h.weights a (hq ▸ by simp)
      obtain ⟨hwc, htc⟩ := h.weights c (hq ▸ by simp)
      have hle : ∀ {f g : QEntry}, f.before g = true → f.w ≤ g.w := fun hb => by
        rw [before_iff] at hb
        omega
      rw [hq] at hu
      obtain ⟨v, hv, hcost⟩ := Tree.exists_contracted hu (hle (ha c (by simp)))
        (List.forall_mem_map.mpr fun f hf => hle ((List.pairwise_cons.mp hc).1 f hf))
      have hmerged : (B.mergeOnce a c rest).q.Perm
          (⟨a.w + c.w, B.seq, .internal a.t c.t (a.w + c.w)⟩ :: rest) := by
        rw [hwa, hwc]
        exact qInsert_perm _ _
      have hbound := ih (mergeOnce_queueOk h hq) he (hv.trans (hmerged.map QEntry.w).symm)
      rw [(hmerged.map fun f => f.t.cost 0).sum_eq] at hbound
      simp only [List.map_cons, List.sum_cons, Tree.cost, Tree.cost_succ hta, Tree.cost_succ htc] at hbound ⊢
      omega

theorem numberedEntries_weights (ls : List (Symbol × Nat)) :
    (numberedEntries ls).map QEntry.w = ls.map Prod.snd :=
  List.ext_getElem (by simp [numberedEntries]) (by simp [numberedEntries])

/-- The entries of leaves have no weighted depth of their own. -/
theorem numberedEntries_cost (ls : List (Symbol × Nat)) : ((numberedEntries ls).map fun f => f.t.cost 0).sum = 0 := by
  refine List.sum_eq_zero (List.forall_mem_map.mpr fun f hf => ?_)
  obtain ⟨i, hi, rfl⟩ := List.mem_mapIdx.mp hf
  rfl

/-- Among the trees over the initial leaves, what the builder builds has the least weighted depth (R96). -/
theorem BuiltFrom.cost_le {ft : Vector Nat 256} {T u : Tree} (h : BuiltFrom ft T) (hu : u.leaves.Perm (initialLeaves ft)) :
    T.cost 0 ≤ u.cost 0 := by
  obtain ⟨B, e, he, rfl⟩ := h
  have hinit := init_perm_numberedEntries ft B
  have hweights : ((B.init ft).q.map QEntry.w).Perm ((initialLeaves ft).map Prod.snd) :=
    numberedEntries_weights _ ▸ hinit.map QEntry.w
  have hbound := merge_cost_le _ (init_spec ft B).1 he ((hu.map Prod.snd).trans hweights.symm)
  rwa [(hinit.map fun f => f.t.cost 0).sum_eq, numberedEntries_cost, Nat.add_zero] at hbound

/-- Settles O25: the tree is built from FT. -/
theorem tbldTreeIsOptimal : Obligations.TbldTreeIsOptimal :=
  fun _ _ ha hf h ht _ hu => (tbld_done ha hf h ht).cost_le hu

end Sys2Proof.Machine

/-! The proofs of the statements of 42_tree_codec.md: what TDES does where it waits for a field of the header, the tree it
reads from a serialization, and that whatever it has read is the serialization of the tree it has made. -/

namespace Sys2Proof.Machine

/-! ### A marker or a symbol value is handed to TDES (R101 to R107) -/

theorem readsSymbol_iff {s : State} :
    s.readsSymbol = true ↔ s.st = .busy ∧ s.phase = .tdWalk ∧ s.pend = some (.binReadBits 9) := decide_eq_true_iff

/-- TDES alone ends the command where its tree is complete (R26). -/
theorem tdesEnd_tdes {s : State} (hc : s.cmd = 0x7) : tdesEnd s = { s with treeValid := true }.finish :=
  if_neg (by rw [hc]; decide)

theorem deliver_marker {s : State} (hph : s.phase = .tdWalk) (y : Read Bit) :
    deliver (.bit y) s = .next (tdesMarker y s) := by
  simp [deliver, hph]

theorem deliver_symbol {s : State} (hph : s.phase = .tdWalk) (y : Read Nat) : deliver (.nat y) s = tdesSymbol y s := by
  simp [deliver, hph]

/-- An answered read of a marker. -/
theorem transact_marker {s u : State} {y : Read Bit} (hp : s.pend = some .binReadBit)
    (hx : perform .binReadBit s = (.bit y, u)) (hph : u.phase = .tdWalk) :
    transact false s = .next (tdesMarker y u.answered) := by
  rw [transact_ok hp, hx]; exact deliver_marker (s := u.answered) hph y

/-- An answered read of a symbol value. -/
theorem transact_symbol {s u : State} {y : Read Nat} (hp : s.pend = some (.binReadBits 9))
    (hx : perform (.binReadBits 9) s = (.nat y, u)) (hph : u.phase = .tdWalk) :
    transact false s = tdesSymbol y u.answered := by
  rw [transact_ok hp, hx]; exact deliver_symbol (s := u.answered) hph y

/-- The marker 1 of a node that fits opens an internal node (R101). -/
theorem tdesMarker_internal {s : State} (hcap : overCap s.par.nodeCap s.nnodes = false) :
    tdesMarker (.val true) s = { s with
      b := .val true, nnodes := s.nnodes + 1, stk := .needLeft :: s.stk, pend := some .binReadBit } := by
  simp [tdesMarker, hcap, State.issue]

/-- The marker 0 of a node that fits is followed by the symbol of the leaf (R101). -/
theorem tdesMarker_leaf {s : State} (hcap : overCap s.par.nodeCap s.nnodes = false) :
    tdesMarker (.val false) s = s.awaitsSymbol := by
  simp [tdesMarker, hcap, State.issue, State.awaitsSymbol]

/-- The marker of a node that does not fit (R104). -/
theorem tdesMarker_overCap {s : State} (hcap : overCap s.par.nodeCap s.nnodes = true) (b : Bit) :
    tdesMarker (.val b) s = raise .corruptHeader 3 (s.par.nodeCap.getD 0) { s with b := .val b } := by
  simp [tdesMarker, hcap]

/-- A value of the range 0 .. 256 is a leaf of weight 1 (R101, R105). -/
theorem tdesSymbol_leaf {v : Nat} {sym : Symbol} (hv : symbolOfNat v = some sym) (s : State) :
    tdesSymbol (.val v) s = tdesReturn (.leaf sym 1) s.stk { s with v := .val v } := by
  simp [tdesSymbol, hv]

/-- A value over 256 is out of range (R103). -/
theorem tdesSymbol_outOfRange {v : Nat} (hv : 256 < v) (s : State) :
    tdesSymbol (.val v) s = .next (raise .corruptHeader 2 v { s with v := .val v }) := by
  simp [tdesSymbol, symbolOfNat_eq_none.mpr hv]

/-! ### A header that is cut short, out of range or too large (R102 to R104, R107) -/

/-- A step whose transaction moves `s` to `u` and whose result is answered by a raise. -/
theorem step_raises {s u v : State} {x : Txn} {res : Result} {F : FaultClass} {sub info : Nat} {rest : List Answer}
    (hh : s.host = []) (hb : s.st = .busy) (hp : s.pend = some x) (ha : s.answers = .ok :: rest)
    (hx : perform x s = (res, u)) (hd : deliver res u.answered = .next (raise F sub info v)) (hst : u.sameStreams v)
    (hc : v.cmd = s.cmd) (hs : sub < 16) (hi : info < 2 ^ 32) :
    ∃ t, step s = .next t ∧ t.tookFault F.code sub info ∧ u.sameStreams t ∧ t.cmd = s.cmd ∧ t.answers = rest := by
  obtain ⟨htook, hstreams⟩ := raised (F := F) (s' := u) (rest := rest) hs hi hst
  exact ⟨_, stepHost_ok hh hb hp ha (by rw [hx]; exact hd), htook, hstreams, hc, rfl⟩

/-- END where a marker is expected, before anything else is looked at (R102, R107). -/
theorem step_markerEnd {s : State} {rest : List Answer} (hh : s.host = []) (hm : s.readsMarker = true)
    (hend : s.bin.length ≤ s.binPos) (ha : s.answers = .ok :: rest) :
    ∃ t, step s = .next t ∧ t.tookFault 3 0 0 ∧ s.sameStreams t ∧ t.cmd = s.cmd ∧ t.answers = rest := by
  obtain ⟨hb, hph, hp⟩ := readsMarker_iff.mp hm
  exact step_raises hh hb hp ha (perform_binReadBit_end (List.drop_eq_nil_of_le hend))
    (deliver_marker (s := s.answered) hph .END) ⟨rfl, rfl, rfl, rfl, rfl, rfl⟩ rfl (by decide) (by decide)

/-- Settles O32: END is what both reads return, and TDES raises before it looks at anything else. -/
theorem truncatedHeaderRaisesCorruptHeader : Obligations.TruncatedHeaderRaisesCorruptHeader := by
  refine ⟨fun s rest hh hm hend ha => step_markerEnd hh hm hend ha, fun s rest hh hm hend ha => ?_⟩
  obtain ⟨hb, hph, hp⟩ := readsSymbol_iff.mp hm
  exact step_raises hh hb hp ha (perform_binReadBits_end hend)
    (deliver_symbol (s := { s with binPos := s.bin.length }.answered) hph .END)
    ⟨rfl, rfl, rfl, rfl, rfl, rfl⟩ rfl (by decide) (by decide)

/-- Settles O33: the nine bits are read whole, and their value is out of range. -/
theorem outOfRangeSymbolRaisesCorruptHeader : Obligations.OutOfRangeSymbolRaisesCorruptHeader := by
  intro s v bs rest hh hm hv hv' hbits ha
  obtain ⟨hb, hph, hp⟩ := readsSymbol_iff.mp hm
  exact step_raises hh hb hp ha (perform_binReadBits_val (by omega) (by decide) hbits)
    ((deliver_symbol (s := { s with binPos := s.binPos + 9 }.answered) hph _).trans (tdesSymbol_outOfRange hv _))
    ⟨rfl, rfl, rfl, rfl, rfl, rfl⟩ rfl (by decide) (by omega)

/-- Settles O34: the bit is read before the capacity is looked at, and END comes before both. -/
theorem nodeBeyondCapacityRaisesCorruptHeader : Obligations.NodeBeyondCapacityRaisesCorruptHeader := by
  intro s cap rest hh hm hcap hlt hn ha
  refine ⟨fun hmore => ?_, fun hend => step_markerEnd hh hm hend ha⟩
  obtain ⟨hb, hph, hp⟩ := readsMarker_iff.mp hm
  have hover : overCap s.par.nodeCap s.nnodes = true := by simp [overCap, hcap, hn]
  have hinfo : s.par.nodeCap.getD 0 = cap := by rw [hcap, Option.getD_some]
  have hraise := tdesMarker_overCap (s := { s with binPos := s.binPos + 1 }.answered) hover s.bin[s.binPos]
  subst hinfo
  exact step_raises hh hb hp ha (perform_binReadBit_val (List.drop_eq_getElem_cons hmore))
    ((deliver_marker (s := { s with binPos := s.binPos + 1 }.answered) hph _).trans (congrArg _ hraise))
    ⟨rfl, rfl, rfl, rfl, rfl, rfl⟩ rfl (by decide) hlt

/-! ### The node fields (R74, R75, R101, R103, R105; assumption 7) -/

/-- The leaf that a field of the format stands for is returned to the open nodes (R101, R105). -/
theorem exec_fileNodeLeaf_returns {s : State} {v : BitVec 9} {sym : Symbol} (h : s.readsMarker = true)
    (hcap : fitsCap s.par.nodeCap (s.nnodes + 1)) (hv : symbolOfNat v.toNat = some sym) :
    exec (.fileNodeLeaf v) s = tdesReturn (.leaf sym 1) s.stk { s with
      b := .val false, v := .val v.toNat, nnodes := s.nnodes + 1, pend := none } := by
  obtain ⟨-, hph, -⟩ := readsMarker_iff.mp h
  rw [exec_fileNodeLeaf h hcap, deliver_symbol (s := s.awaitsSymbol.answered) hph, tdesSymbol_leaf hv]
  rfl

/-- A complete tree with no node open above it is TREE, and TDES alone ends (R101). -/
theorem tdesReturn_nil {s : State} (hc : s.cmd = 0x7) (t : Tree) :
    tdesReturn t [] s = .next { s with
      tree := t, stk := [], treeValid := true, phase := .halt, st := .done, pend := none } :=
  congrArg _ (tdesEnd_tdes (s := { s with tree := t, stk := [] }) hc)

/-- Settles O55: one case for each place where a node can stand, and the two ways for a field to build nothing. -/
theorem nodeFieldsBuildTheTree : Obligations.NodeFieldsBuildTheTree := by
  refine ⟨fun s h hcap => ?internal, fun s v sym h hcap hv => ⟨fun hstk hc => ?root, fun rest hstk => ?left,
    fun l rest hstk => ?right, fun l hstk hc => ?last⟩, fun s v h hcap hv => ?outOfRange, fun s v h => ?elsewhere⟩
  case internal =>
    obtain ⟨-, hph, -⟩ := readsMarker_iff.mp h
    rw [exec_fileNodeInternal h, deliver_marker (s := s.answered) hph,
      tdesMarker_internal (s := s.answered) (overCap_of_hasRoom (n := 1) hcap (by decide))]
    rfl
  case root => rw [exec_fileNodeLeaf_returns h hcap hv, hstk]; apply tdesReturn_nil; exact hc
  case left => rw [exec_fileNodeLeaf_returns h hcap hv, hstk]; rfl
  case right => rw [exec_fileNodeLeaf_returns h hcap hv, hstk]; rfl
  case last => rw [exec_fileNodeLeaf_returns h hcap hv, hstk, tdesReturn]; apply tdesReturn_nil; exact hc
  case outOfRange =>
    obtain ⟨-, hph, -⟩ := readsMarker_iff.mp h
    rw [exec_fileNodeLeaf h hcap, deliver_symbol (s := s.awaitsSymbol.answered) hph, tdesSymbol_outOfRange hv]
    exact ⟨_, rfl, tookFault_raise .corruptHeader 2 _ _ (by decide) (v.isLt.trans (by decide)),
      ⟨rfl, rfl, rfl, rfl, rfl, rfl⟩⟩
  case elsewhere => exact ⟨if_neg (by simp [h]), if_neg (by simp [h])⟩

/-! ### TDES reads a serialized tree (R101, R105, R108) -/

/-- The state in which TDES has parsed all of `T` from BIN (R101, R105). -/
def State.parsed (s : State) (T : Tree) (b : Read Bit) (v : Read Nat) : State :=
  { s with
    tree := T.placeholder, b := b, v := v, nnodes := T.nodeCount, stk := [], binPos := s.binPos + T.ser.length,
    treeValid := false, ctValid := false, eofSeen := false, phase := .tdWalk, pend := none }

/-- A serialized tree that fits is parsed whole, alone or in DECODE. -/
theorem tdes_steps {s : State} {T : Tree} {bs : List Bit} (hb : s.st = .busy) (hd : s.bin.drop s.binPos = T.ser ++ bs)
    (hcap : fitsCap s.par.nodeCap T.nodeCount) :
    ∃ b v, Steps T.txns (tdesStart s) (tdesEnd (s.parsed T b v)) := by
  rw [tdes_start]
  obtain ⟨b, v, h⟩ := parse_steps T (s := { s with
      eofSeen := false, treeValid := false, ctValid := false, phase := .tdWalk, nnodes := 0, stk := [],
      pend := some .binReadBit }) hb rfl rfl hd (fun cap hc => (Nat.zero_add _).trans_le (hcap cap hc))
  exact ⟨b, v, h _ (by simp only [tdesReturn, State.parsed, Nat.zero_add])⟩

/-- Settles O30: the parse of `ser(T)`, then the end of the command. -/
theorem tdesReadsTheTree : Obligations.TdesReadsTheTree := by
  intro s T bs rest ha hd hcap hr
  obtain ⟨b, v, hsteps⟩ := tdes_steps (s := { s with cmd := 0x7, st := .busy }) rfl hd hcap
  rw [tdesEnd_tdes rfl] at hsteps
  refine ⟨b, v, ?_⟩
  calc exec .tdes s
      = run (oks T.txns rest) (tdesStart { s with cmd := 0x7, st := .busy }) := command_oks ha hr 0x7 tdesStart
    _ = _ := hsteps.end (by simp) rest

/-! ### What TDES has read is a serialization (R101, R108) -/

/-- What the open nodes of TDES stand for on BIN: the marker of each, and its left child if it is complete. -/
def openBits : List StkEntry → List Bit
  | [] => []
  | .needLeft :: rest => openBits rest ++ [true]
  | .needRight l :: rest => openBits rest ++ true :: l.ser
  | .sub _ :: rest => openBits rest
  | .sym _ :: rest => openBits rest

/-- From `s` on, exactly these bits have been read from BIN, and nothing has been written to BOUT. -/
structure ReadSince (s : State) (bits : List Bit) (u : State) : Prop where
  bin : u.bin = s.bin
  bout : u.bout = s.bout
  binPos : u.binPos = s.binPos + bits.length
  isPrefix : bits <+: s.bin.drop s.binPos

/-- The bits read so far are followed by those that stand next on BIN. -/
theorem ReadSince.read {s u : State} {bits more bs : List Bit} (h : ReadSince s bits u)
    (hd : u.bin.drop u.binPos = more ++ bs) :
    ReadSince s (bits ++ more) { u with binPos := u.binPos + more.length } where
  bin := h.bin
  bout := h.bout
  binPos := by simp [h.binPos, Nat.add_assoc]
  isPrefix := by
    obtain ⟨next, hnext⟩ := h.isPrefix
    rw [h.bin, h.binPos, drop_add_of_drop hnext.symm] at hd
    exact ⟨bs, by rw [List.append_assoc, ← hd, hnext]⟩

theorem ReadSince.congr {s u v : State} {bits : List Bit} (h : ReadSince s bits u) (hbin : v.bin = u.bin)
    (hbout : v.bout = u.bout) (hpos : v.binPos = u.binPos) : ReadSince s bits v :=
  ⟨hbin.trans h.bin, hbout.trans h.bout, hpos.trans h.binPos, h.isPrefix⟩

/-- Where TDES, alone and begun in `s`, can stand: what it has read is what its open nodes stand for, with the marker of the
leaf whose symbol is next; when it is done, what it has read is `ser(TREE)`. -/
inductive TdesStands (s u : State) : Prop
  | atMarker (busy : u.st = .busy) (phase : u.phase = .tdWalk) (cmd : u.cmd = 0x7) (pend : u.pend = some .binReadBit)
      (read : ReadSince s (openBits u.stk) u)
  | atSymbol (busy : u.st = .busy) (phase : u.phase = .tdWalk) (cmd : u.cmd = 0x7) (pend : u.pend = some (.binReadBits 9))
      (read : ReadSince s (openBits u.stk ++ [false]) u)
  | done (done : u.st = .done) (valid : u.treeValid = true) (read : ReadSince s u.tree.ser u)
  | fault (fault : u.st = .fault)

theorem TdesStands.withAnswers {s u : State} (h : TdesStands s u) (as : List Answer) :
    TdesStands s { u with answers := as } := by
  cases h with
  | atMarker hb hph hc hp hr => exact .atMarker hb hph hc hp (hr.congr rfl rfl rfl)
  | atSymbol hb hph hc hp hr => exact .atSymbol hb hph hc hp (hr.congr rfl rfl rfl)
  | done hd hv hr => exact .done hd hv (hr.congr rfl rfl rfl)
  | fault hf => exact .fault hf

/-- TDES makes no internal update. -/
theorem TdesStands.internal_eq {s u : State} (h : TdesStands s u) : internal u = .next u := by
  cases h with
  | atMarker _ _ _ hp _ => exact internal_of_pend hp
  | atSymbol _ _ _ hp _ => exact internal_of_pend hp
  | done hd _ _ => exact internal_of_not_busy (by simp [hd])
  | fault hf => exact internal_of_not_busy (by simp [hf])

/-- A complete subtree is returned to the open nodes. -/
theorem tdesReturn_stands {s u v : State} {t : Tree} {stk : List StkEntry} (hb : u.st = .busy)
    (hph : u.phase = .tdWalk) (hc : u.cmd = 0x7) (hr : ReadSince s (openBits stk ++ t.ser) u)
    (h : tdesReturn t stk u = .next v) : TdesStands s v := by
  induction stk generalizing t with
  | nil =>
    rw [tdesReturn_nil hc] at h
    obtain rfl := Host.Outcome.next.inj h
    exact .done rfl rfl (hr.congr rfl rfl rfl)
  | cons e rest ih =>
    cases e with
    | needLeft =>
      obtain rfl := Host.Outcome.next.inj h
      have hopen : openBits (.needLeft :: rest) ++ t.ser = openBits (.needRight t :: rest) := by simp [openBits]
      rw [hopen] at hr
      exact .atMarker hb hph hc rfl (hr.congr rfl rfl rfl)
    | needRight l =>
      have hopen : openBits (.needRight l :: rest) ++ t.ser
          = openBits rest ++ (Tree.internal l t (l.weight + t.weight)).ser := by simp [openBits, Tree.ser]
      exact ih (hopen ▸ hr) h
    | sub _ => cases h
    | sym _ => cases h

/-- A marker has been read (R101, R104). -/
theorem tdesMarker_stands {s u : State} {b : Bit} (hb : u.st = .busy) (hph : u.phase = .tdWalk) (hc : u.cmd = 0x7)
    (hr : ReadSince s (openBits u.stk ++ [b]) u) : TdesStands s (tdesMarker (.val b) u) := by
  cases hcap : overCap u.par.nodeCap u.nnodes with
  | true =>
    rw [tdesMarker_overCap hcap]
    exact .fault rfl
  | false =>
    cases b with
    | true =>
      rw [tdesMarker_internal hcap]
      exact .atMarker hb hph hc rfl (hr.congr rfl rfl rfl)
    | false =>
      rw [tdesMarker_leaf hcap]
      exact .atSymbol hb hph hc rfl (hr.congr rfl rfl rfl)

/-- A symbol value has been read (R101, R103). -/
theorem tdesSymbol_stands {s u v : State} {n : Nat} (hb : u.st = .busy) (hph : u.phase = .tdWalk) (hc : u.cmd = 0x7)
    (hr : ReadSince s (openBits u.stk ++ [false] ++ toBits 9 n) u) (h : tdesSymbol (.val n) u = .next v) :
    TdesStands s v := by
  cases hsym : symbolOfNat n with
  | none =>
    rw [tdesSymbol_outOfRange (symbolOfNat_eq_none.mp hsym)] at h
    obtain rfl := Host.Outcome.next.inj h
    exact .fault rfl
  | some sym =>
    rw [tdesSymbol_leaf hsym] at h
    have hleaf : [false] ++ toBits 9 n = (Tree.leaf sym 1).ser := by rw [← symbolOfNat_val hsym]; rfl
    rw [List.append_assoc, hleaf] at hr
    exact tdesReturn_stands (u := { u with v := .val n }) hb hph hc (hr.congr rfl rfl rfl) h

/-- Where n bits are left, they are `bin_n` of a value (R45). -/
theorem drop_eq_toBits_append {l : List Bit} {i n : Nat} (h : i + n ≤ l.length) :
    ∃ v bs, v < 2 ^ n ∧ l.drop i = toBits n v ++ bs := by
  have hn : n ≤ (l.drop i).length := by rw [List.length_drop]; omega
  refine ⟨ofBits ((l.drop i).take n), (l.drop i).drop n, ofBits_take_lt hn, ?_⟩
  rw [toBits_ofBits_take hn, List.take_append_drop]

/-- The marker is read, or END. -/
theorem stands_of_marker {s u v : State} (hb : u.st = .busy) (hph : u.phase = .tdWalk) (hc : u.cmd = 0x7)
    (hp : u.pend = some .binReadBit) (hr : ReadSince s (openBits u.stk) u) (h : transact false u = .next v) :
    TdesStands s v := by
  cases hd : u.bin.drop u.binPos with
  | nil =>
    rw [transact_marker hp (perform_binReadBit_end hd) hph] at h
    obtain rfl := Host.Outcome.next.inj h
    exact .fault rfl
  | cons b bs =>
    rw [transact_marker hp (perform_binReadBit_val hd) hph] at h
    obtain rfl := Host.Outcome.next.inj h
    have hread : ReadSince s (openBits u.stk ++ [b]) { u with binPos := u.binPos + 1 }.answered :=
      (hr.read (more := [b]) hd).congr rfl rfl rfl
    exact tdesMarker_stands (u := { u with binPos := u.binPos + 1 }.answered) hb hph hc hread

/-- The symbol value is read, or END. -/
theorem stands_of_symbol {s u v : State} (hb : u.st = .busy) (hph : u.phase = .tdWalk) (hc : u.cmd = 0x7)
    (hp : u.pend = some (.binReadBits 9)) (hr : ReadSince s (openBits u.stk ++ [false]) u)
    (h : transact false u = .next v) : TdesStands s v := by
  by_cases hlen : u.binPos + 9 ≤ u.bin.length
  · obtain ⟨n, bs, hn, hd⟩ := drop_eq_toBits_append hlen
    rw [transact_symbol hp (perform_binReadBits_val hn (by decide) hd) hph] at h
    have hread : ReadSince s (openBits u.stk ++ [false] ++ toBits 9 n) { u with binPos := u.binPos + 9 }.answered :=
      (hr.read hd).congr rfl rfl rfl
    exact tdesSymbol_stands (u := { u with binPos := u.binPos + 9 }.answered) hb hph hc hread h
  · rw [transact_symbol hp (perform_binReadBits_end (by omega)) hph] at h
    obtain rfl := Host.Outcome.next.inj h
    exact .fault rfl

theorem TdesStands.transact {s u v : State} {fails : Bool} (h : TdesStands s u) (hb : u.st = .busy)
    (htx : transact fails u = .next v) : TdesStands s v := by
  cases fails with
  | true => exact .fault (transact_true_st htx)
  | false =>
    cases h with
    | atMarker hb hph hc hp hr => exact stands_of_marker hb hph hc hp hr htx
    | atSymbol hb hph hc hp hr => exact stands_of_symbol hb hph hc hp hr htx
    | done hd _ _ => rw [hb] at hd; cases hd
    | fault hf => rw [hb] at hf; cases hf

/-- However TDES runs, it stands at such a place. -/
theorem exec_tdes_stands {s t : State} (ha : s.accepts = true) (h : exec .tdes s = .next t) : TdesStands s t := by
  replace h : run s.answers (tdesStart { s with cmd := 0x7, st := .busy }) = .next t :=
    (command_run ha 0x7 tdesStart).symm.trans h
  refine run_preserves (P := TdesStands s) (fun u v hu hi => ?_) (fun u f v hu hb htx => hu.transact hb htx)
    (fun u as hu => hu.withAnswers as) s.answers _ t ?start h
  case start =>
    rw [tdes_start]
    exact .atMarker rfl rfl rfl rfl ⟨rfl, rfl, rfl, List.nil_prefix⟩
  rw [hu.internal_eq] at hi
  obtain rfl := Host.Outcome.next.inj hi
  exact hu

/-- However TDES has come to DONE, what it has read is `ser(TREE)` (R108). -/
theorem tdes_done {s t : State} (ha : s.accepts = true) (h : exec .tdes s = .next t) (ht : t.st = .done) :
    t.treeValid = true ∧ ReadSince s t.tree.ser t := by
  cases exec_tdes_stands ha h with
  | atMarker hb _ _ _ _ => rw [ht] at hb; cases hb
  | atSymbol hb _ _ _ _ => rw [ht] at hb; cases hb
  | done _ hv hr => exact ⟨hv, hr⟩
  | fault hf => rw [ht] at hf; cases hf

/-- However TSER has come to DONE, it has appended `ser(TREE)` (R99). -/
theorem tser_done {s t : State} (ha : s.accepts = true) (hv : s.treeValid = true) (h : exec .tser s = .next t)
    (ht : t.st = .done) : t.bout = s.bout ++ s.tree.ser := by
  replace h : run s.answers (emitTree { s with cmd := 0x6, st := .busy, eofSeen := false, pend := none }) = .next t := by
    rw [emitTree_pend { s with cmd := 0x6, st := .busy, eofSeen := false } none,
      ← tser_start (s := { s with cmd := 0x6, st := .busy }) hv]
    exact (command_run ha 0x6 tserStart).symm.trans h
  have hwalk := emitTree_steps (s := { s with cmd := 0x6, st := .busy, eofSeen := false, pend := none }) rfl rfl
  rw [tserEnd_tser rfl] at hwalk
  exact congrArg (fun u : State => u.bout) (hwalk.done_eq rfl h ht)

theorem Tree.placeholder_idem (t : Tree) : t.placeholder.placeholder = t.placeholder := by
  induction t with
  | leaf => rfl
  | internal l r w hl hr => simp [placeholder, hl, hr]

/-- Settles O31: TDES parses `ser(T)`; and whatever it has parsed is `ser(TREE)`, which is what TSER appends. -/
theorem tdesInvertsTser : Obligations.TdesInvertsTser := by
  refine ⟨fun s T bs rest ha hd hcap hr => ?_, fun s t u ha h ht h' hu => ?_⟩
  · obtain ⟨b, v, hexec⟩ := tdesReadsTheTree s T bs rest ha hd hcap hr
    exact ⟨_, hexec, rfl, T.placeholder_idem⟩
  · obtain ⟨hv, hread⟩ := tdes_done ha h ht
    refine ⟨hread.bin, by rw [hread.binPos]; omega, ?_⟩
    rw [tser_done (accepts_iff.mpr (.inr ht)) hv h' hu, hread.bout, hread.binPos, Nat.add_sub_cancel_left,
      ← List.prefix_iff_eq_take.mp hread.isPrefix]

end Sys2Proof.Machine

/-! The proofs of the statements of 43_code_table_deriver.md: what CTDR leaves in CT, that no Code is a prefix of another,
and which symbols have a Code after FCNT, TBLD and CTDR. -/

namespace Sys2Proof.Machine

/-! ### A unit that has ended had its precondition met (R28, R30) -/

/-- Where the "requires" column is not met, UsageError stands in the way of DONE. -/
theorem requires_of_done {s t : State} {u : UnitCmd} {body : State → State} (ha : s.accepts = true)
    (h : command u.opcode (beginUnit u body) s = .next t) (ht : t.st = .done) : requires u s = true := by
  by_contra hunmet
  obtain ⟨t', h', htook, -⟩ := unmet_raisesUsageError ha (Bool.eq_false_iff.mpr hunmet) body
  obtain rfl := Host.Outcome.next.inj (h.symm.trans h')
  have hfault : t.st = .fault := htook.halted.2
  rw [ht] at hfault
  cases hfault

/-! ### CTDR (R109 to R112) -/

/-- CTDR alone ends the command (R109). -/
theorem ctdrEnd_ctdr {s : State} (hc : s.cmd = 0x5) : ctdrEnd s = State.finish { s with ctValid := true } :=
  if_neg (by rw [hc]; decide)

/-- What CTDR leaves, before its end (R109, R110). -/
def State.derived (s : State) (ct : Vector (Option Code) 257) (path : Code) : State :=
  { s with
    ct := ct
    path := path
    stk := []
    eofSeen := false
    ctValid := true
    phase := .cdWalk
    pend := none }

/-- All of CTDR alone, which uses no answer: CD_WALK fills CT, and the command ends (R109). CT has a name of its own, so
that comparing two states does not unfold the table of TREE. -/
theorem run_ctdr {s : State} (hb : s.st = .busy) (hc : s.cmd = 0x5) (ht : s.treeValid = true) :
    ∃ ct path, ct = s.tree.table ∧ ∀ as, as.head? ≠ some .hold →
      run as (ctdrStart s) = .next { (s.derived ct path).finish with answers := as } := by
  rw [ctdr_start ht]
  obtain ⟨path, hwalk⟩ := ctdr_internal (s := { s with
      eofSeen := false, ctValid := false, phase := .cdWalk, pend := none }) hb rfl rfl
  have hend := hwalk.trans (congrArg Host.Outcome.next (ctdrEnd_ctdr hc))
  exact ⟨_, path, rfl, fun as hh => (run_internal hend hh).trans (run_of_not_busy (by simp) as)⟩

/-- The last leaf of a symbol gives its Code (R109, R112). -/
theorem Tree.codeOf_of_last {t : Tree} {sym : Symbol} {p : Code} {before after : List (Symbol × Code)}
    (h : t.codes = before ++ (sym, p) :: after) (hlast : sym ∉ after.map Prod.fst) : t.codeOf sym = some p := by
  have hafter : after.filter (fun e => e.1 = sym) = [] :=
    List.filter_eq_nil_iff.mpr fun e he heq => hlast (List.mem_map.mpr ⟨e, he, of_decide_eq_true heq⟩)
  rw [codeOf, h, List.filter_append, List.filter_cons_of_pos (by simp), hafter, List.getLast?_concat]
  rfl

/-- Settles O26: CT is the table of TREE, whose entries are the Codes of the last leaves. -/
theorem ctdrDerivesTheCodes : Obligations.CtdrDerivesTheCodes := by
  intro s ha ht hh
  obtain ⟨ct, path, hct, hrun⟩ := run_ctdr (s := { s with cmd := 0x5, st := .busy }) rfl rfl ht
  have hexec : exec .ctdr s = _ := (command_run ha 0x5 ctdrStart).trans (hrun s.answers hh)
  refine ⟨ct, path, hexec, fun sym => ?_, fun sym p before after hcodes hlast => ?_⟩
  · rw [hct, ctAt_table, Tree.codeOf_eq_none]
  · rw [hct, ctAt_table, Tree.codeOf_of_last hcodes hlast]

/-- However CTDR has come to DONE, CT is the table of TREE (R109). -/
theorem ctdr_done {s t : State} (ha : s.accepts = true) (h : exec .ctdr s = .next t) (ht : t.st = .done) :
    t.ct = s.tree.table := by
  have hvalid : s.treeValid = true := requires_of_done (u := .ctdr) ha h ht
  replace h : run s.answers (ctdrStart { s with cmd := 0x5, st := .busy }) = .next t :=
    (command_run ha 0x5 ctdrStart).symm.trans h
  obtain ⟨ct, path, hct, hrun⟩ := run_ctdr (s := { s with cmd := 0x5, st := .busy }) rfl rfl hvalid
  have heq := run_done_unique (n := 0) s.answers (hrun [] (by simp)) rfl h ht
  exact (congrArg (fun u : State => u.ct) heq).trans hct

/-! ### Codes are prefix-free (R79, R113) -/

/-- Settles O27: the Codes in CT are paths to leaves of TREE. -/
theorem codesArePrefixFree : Obligations.CodesArePrefixFree := by
  intro s t ha h ht x y p q hxy hp hq hprefix
  rw [ctdr_done ha h ht, ctAt_table] at hp hq
  exact hxy (Tree.codes_prefix (Tree.codeOf_mem hp) (Tree.codeOf_mem hq) hprefix).1

/-! ### Which symbols have a Code (R89, R114) -/

/-- The builder keeps the leaves it starts from (R89). -/
theorem BuiltFrom.leaves_perm {ft : Vector Nat 256} {T : Tree} (h : BuiltFrom ft T) :
    T.leaves.Perm (initialLeaves ft) := by
  obtain ⟨B, e, he, rfl⟩ := h
  obtain ⟨e', he', -, -, hleaves, -⟩ := build_spec ft B
  obtain rfl := List.singleton_inj.mp (he.symm.trans he')
  exact hleaves

theorem symbolOfByte_injective : Function.Injective symbolOfByte :=
  Function.LeftInverse.injective byteOfSymbol_symbolOfByte

/-- A byte has a Code in the tree built from FT exactly if its counter is at least 1 (R89, R114). -/
theorem BuiltFrom.byte_hasCode_iff {ft : Vector Nat 256} {T : Tree} (h : BuiltFrom ft T) (y : Byte) :
    ctAt T.table (symbolOfByte y) ≠ none ↔ 1 ≤ ftAt ft y := by
  rw [ctAt_table, Ne, Tree.codeOf_eq_none, not_not, (h.leaves_perm.map Prod.fst).mem_iff, mem_initialLeaves,
    or_iff_right (symbolOfByte_ne_eof y)]
  exact ⟨fun ⟨z, hz, hcount⟩ => symbolOfByte_injective hz ▸ hcount, fun hcount => ⟨y, rfl, hcount⟩⟩

/-- Settles O28: FT counts the bytes, TREE is built from FT, and CT is the table of TREE. -/
theorem codeTableCoversTheBytesCounted : Obligations.CodeTableCoversTheBytesCounted := by
  intro s s₁ s₂ s₃ ha h₁ hd₁ h₂ hd₂ h₃ hd₃
  have ha₁ : s₁.accepts = true := accepts_iff.mpr (.inr hd₁)
  have hft : s₁.ft = byteCounts (s.src.drop s.srcPos) := fcnt_done ha h₁ hd₁
  have hbuilt : BuiltFrom s₁.ft s₂.tree := tbld_done ha₁ (requires_of_done (u := .tbld) ha₁ h₂ hd₂) h₂ hd₂
  rw [hft] at hbuilt
  rw [ctdr_done (accepts_iff.mpr (.inr hd₂)) h₃ hd₃]
  refine ⟨(covers_table hbuilt.leaves_perm).2, fun y => ?_⟩
  rw [hbuilt.byte_hasCode_iff, ftAt_byteCounts]
  exact List.one_le_count_iff

end Sys2Proof.Machine

/-! The proofs of the statements of 44_huffman_encoder.md: what SENC writes and where it stops at a symbol without a Code,
what ENCODE writes, and that ENCODE is the program of its four parts. The last rests on `RunsAsPart`, which ties a unit
command to its part of a composite command. -/

namespace Sys2Proof.Machine

/-! ### SENC (R116 to R122) -/

/-- SENC needs valid tables, and then starts with the magic (R28, R116). -/
theorem exec_senc {s : State} {as : List Answer} (ha : s.accepts = true) (ht : s.treeValid = true)
    (hv : s.ctValid = true) (hr : s.answers = as) :
    exec .senc s = run as { s with
      cmd := 0x8, st := .busy, eofSeen := false, phase := .seMagic
      pend := some (.boutWriteBits s.par.magic.toNat 32) } :=
  (command_oks ha hr 0x8 sencStart).trans (congrArg _ (senc_start (s := { s with cmd := 0x8, st := .busy }) ht hv))

/-- The opcode of SENC is not that of TSER, so its walk of TREE is followed by the payload (R26). -/
theorem senc_ne_tser : (0x8 : BitVec 4) ≠ 6 := by decide

/-- Settles O44: `senc_steps` from where the start of SENC leaves the state. -/
theorem sencWritesTheFile : Obligations.SencWritesTheFile := by
  intro s rest ha ht hv hcov hr
  have hsteps := senc_steps (s := { s with cmd := 0x8, st := .busy, eofSeen := false, pend := none }) rfl rfl
    senc_ne_tser hcov
  exact (exec_senc ha ht hv hr).trans (hsteps.end (by simp) rest)

/-- The read that answers a byte without a Code raises InternalConsistency (R119). -/
theorem uncodedByte_step {s : State} {y : Byte} {zs : List Byte} (hb : s.st = .busy)
    (h : s.src.drop s.srcPos = y :: zs) (hc : ctAt s.ct (symbolOfByte y) = none) :
    Steps 1 (sencRead s) (raise .internalConsistency 0 y.toNat { s with srcPos := s.srcPos + 1 }) :=
  Steps.srcRead (s := sencRead s) hb rfl h (by simp [deliver, sencRead, sencGot, put, hc, raise])

/-- The END that leads to an EOF-symbol without a Code raises InternalConsistency (R119). -/
theorem uncodedEof_step {s : State} (hb : s.st = .busy) (h : s.src.drop s.srcPos = [])
    (hc : ctAt s.ct eofSym = none) : Steps 1 (sencRead s) (raise .internalConsistency 0 256 s) :=
  Steps.srcEnd (s := sencRead s) hb rfl h (by simp [deliver, sencRead, sencGot, put, hc, raise])

/-- SENC where it reads what follows the bytes `ys` of SRC: the header and the Codes of these bytes are written. -/
def State.sentCodes (s : State) (ys : List Byte) (r : Read Byte) (k : Nat) : State :=
  { s with
    bout := s.bout ++ toBits 32 s.par.magic.toNat ++ s.tree.ser ++ codesOf s.ct ys
    srcPos := ys.length
    r := r
    k := k
    stk := []
    eofSeen := false
    cmd := 0x8
    st := .busy
    pend := none }

/-- SENC comes to every read of SRC before which all bytes have Codes (R116, R117). -/
theorem sentCodes_steps {s : State} {ys zs : List Byte} (hsrc : s.src = ys ++ zs)
    (hcov : ∀ y ∈ ys, ctAt s.ct (symbolOfByte y) ≠ none) :
    ∃ r k, Steps (1 + s.tree.txns + 1 + (ys.length + (codesOf s.ct ys).length))
      { s with
        cmd := 0x8, st := .busy, eofSeen := false, phase := .seMagic
        pend := some (.boutWriteBits s.par.magic.toNat 32) }
      (sencRead (s.sentCodes ys r k)) := by
  have hheader := header_steps (s := { s with cmd := 0x8, st := .busy, eofSeen := false, pend := none }) rfl rfl
    senc_ne_tser
  obtain ⟨r, k, hpayload⟩ := payload_steps (s := s.sentCodes [] s.r s.k) ys rfl rfl hsrc hcov
  refine ⟨r, k, ((hheader.of_eq ?_).trans hpayload).of_eq ?_⟩
  · simp [State.sentCodes, codesOf]
  · simp [State.sentCodes, codesOf]

/-- Where the read that follows the bytes `ys` raises, SENC has written the header and the Codes of these bytes before
(R116, R119). -/
theorem exec_senc_raises {s : State} {ys zs : List Byte} {info pos : Nat} {rest : List Answer} (ha : s.accepts = true)
    (ht : s.treeValid = true) (hv : s.ctValid = true) (hsrc : s.src = ys ++ zs)
    (hcov : ∀ y ∈ ys, ctAt s.ct (symbolOfByte y) ≠ none)
    (hr : s.answers = oks (1 + s.tree.txns + 1 + (ys.length + 1) + (codesOf s.ct ys).length) rest)
    (hi : info < 2 ^ 32)
    (hread : ∀ r k, Steps 1 (sencRead (s.sentCodes ys r k))
      (raise .internalConsistency 0 info { s.sentCodes ys r k with srcPos := pos })) :
    ∃ t, exec .senc s = .next t ∧ t.tookFault 6 0 info ∧
      State.sameStreams { s with
        srcPos := pos, bout := s.bout ++ toBits 32 s.par.magic.toNat ++ s.tree.ser ++ codesOf s.ct ys } t ∧
      t.answers = rest := by
  obtain ⟨r, k, hsent⟩ := sentCodes_steps hsrc hcov
  have hsteps := (hsent.trans (hread r k)).cast
    (m := 1 + s.tree.txns + 1 + (ys.length + 1) + (codesOf s.ct ys).length) (by omega)
  obtain ⟨htook, -⟩ := raised (F := .internalConsistency) (sub := 0) (rest := rest) (by decide) hi
    (.refl { s.sentCodes ys r k with srcPos := pos })
  exact ⟨_, (exec_senc ha ht hv hr).trans (hsteps.end (by simp) rest), htook, ⟨rfl, rfl, rfl, rfl, rfl, rfl⟩, rfl⟩

/-- Settles O45: the read that follows the bytes with Codes raises, with the next byte or with END. -/
theorem symbolWithoutCodeRaisesInternalConsistency : Obligations.SymbolWithoutCodeRaisesInternalConsistency := by
  intro s ys rest ha ht hv hcov hr
  refine ⟨fun y zs hsrc hnone => ?_, fun hsrc hnone => ?_⟩
  · refine exec_senc_raises ha ht hv hsrc hcov hr (y.isLt.trans (by decide)) fun r k => ?_
    exact uncodedByte_step (s := s.sentCodes ys r k) (zs := zs) rfl (by simp [State.sentCodes, hsrc]) hnone
  · refine exec_senc_raises ha ht hv (hsrc.trans (List.append_nil ys).symm) hcov hr (by decide) fun r k => ?_
    exact uncodedEof_step (s := s.sentCodes ys r k) rfl (by simp [State.sentCodes, hsrc]) hnone

/-! ### The length of the payload (R76, R80, R123) -/

/-- The weighted depth, leaf by leaf: the weight that a leaf's symbol fixes times the length of its path (R96). -/
theorem Tree.cost_eq_sum_codes {t : Tree} {weightOf : Symbol → Nat} (h : ∀ l ∈ t.leaves, l.2 = weightOf l.1)
    (d : Nat) :
    t.cost d = (t.codes.map fun e => weightOf e.1 * (d + e.2.length)).sum := by
  induction t generalizing d with
  | leaf sym w => simp [cost, codes, ← h (sym, w) (by simp [leaves])]
  | internal l r w hl hr =>
    rw [cost, hl (fun x hx => h x (by simp [leaves, hx])), hr (fun x hx => h x (by simp [leaves, hx]))]
    simp [codes, Function.comp_def, Nat.add_comm, Nat.add_left_comm]

/-- Where no symbol is on two leaves, the lengths of the Codes give the weighted depth (R96, R109). -/
theorem Tree.cost_eq_sum_codeBits {t : Tree} {weightOf : Symbol → Nat} (h : ∀ l ∈ t.leaves, l.2 = weightOf l.1)
    (hnodup : (t.leaves.map Prod.fst).Nodup) :
    t.cost 0 = ((t.leaves.map Prod.fst).map fun sym => weightOf sym * (codeBits t.table sym).length).sum := by
  rw [cost_eq_sum_codes h, ← codes_fst, List.map_map]
  refine congrArg List.sum (List.map_congr_left fun e he => ?_)
  simp [codeBits, codeOf_of_nodup hnodup he]

/-- The symbols whose Codes make up the payload of these bytes (R80). -/
def payloadSymbols (ys : List Byte) : List Symbol := ys.map symbolOfByte ++ [eofSym]

theorem payload_eq_flatMap (ct : Vector (Option Code) 257) (ys : List Byte) :
    payload ct ys = (payloadSymbols ys).flatMap (codeBits ct) := by
  simp [payload, payloadSymbols, List.flatMap_map]

theorem count_payloadSymbols_byte (ys : List Byte) (y : Byte) :
    (payloadSymbols ys).count (symbolOfByte y) = ys.count y := by
  rw [payloadSymbols, List.count_append, List.count_map_of_injective _ _ symbolOfByte_injective,
    List.count_singleton, if_neg (by simpa using (symbolOfByte_ne_eof y).symm), Nat.add_zero]

theorem count_payloadSymbols_eof (ys : List Byte) : (payloadSymbols ys).count eofSym = 1 := by
  have hbytes : eofSym ∉ ys.map symbolOfByte := fun h => by
    obtain ⟨y, -, hy⟩ := List.mem_map.mp h
    exact symbolOfByte_ne_eof y hy
  rw [payloadSymbols, List.count_append, List.count_eq_zero.mpr hbytes, List.count_singleton_self]

/-- The leaves that TBLD starts from carry the symbols of the payload, each with the number of its occurrences (R89). -/
theorem snd_of_mem_initialLeaves {ys : List Byte} {l : Symbol × Nat} (h : l ∈ initialLeaves (byteCounts ys)) :
    l.2 = (payloadSymbols ys).count l.1 := by
  rcases List.mem_cons.mp h with rfl | h
  · exact (count_payloadSymbols_eof ys).symm
  · obtain ⟨x, -, rfl⟩ := List.mem_map.mp h
    exact (ftAt_byteCounts ys (BitVec.ofFin x)).trans (count_payloadSymbols_byte ys (BitVec.ofFin x)).symm

theorem mem_initialLeaves_fst {ys : List Byte} {sym : Symbol} :
    sym ∈ (initialLeaves (byteCounts ys)).map Prod.fst ↔ sym ∈ payloadSymbols ys := by
  rw [mem_initialLeaves, payloadSymbols, List.mem_append, List.mem_map, List.mem_singleton, or_comm]
  simp only [ftAt_byteCounts, List.one_le_count_iff, eq_comm (a := sym), and_comm]

theorem nodup_initialLeaves_fst (ft : Vector Nat 256) : ((initialLeaves ft).map Prod.fst).Nodup := by
  simp only [initialLeaves, List.map_cons, List.map_map, List.nodup_cons, List.mem_map]
  refine ⟨?_, ?_⟩
  · rintro ⟨x, -, hx⟩
    exact symbolOfByte_ne_eof (BitVec.ofFin x) hx
  · exact ((List.nodup_finRange 256).filter _).map (Fin.castSucc_injective 256)

/-- The payload is as long as the weighted depth of a tree over the counts of its bytes (R96, R123). -/
theorem length_payload_eq_cost {ys : List Byte} {T : Tree} (h : T.leaves.Perm (initialLeaves (byteCounts ys))) :
    (payload T.table ys).length = T.cost 0 := by
  have hsyms := h.map Prod.fst
  have hnodup : (T.leaves.map Prod.fst).Nodup := hsyms.nodup_iff.mpr (nodup_initialLeaves_fst _)
  have hsame : (payloadSymbols ys).toFinset = (T.leaves.map Prod.fst).toFinset :=
    Finset.ext fun sym => by
      rw [List.mem_toFinset, List.mem_toFinset, hsyms.mem_iff, mem_initialLeaves_fst]
  calc (payload T.table ys).length
      = ((payloadSymbols ys).map fun sym => (codeBits T.table sym).length).sum := by
        rw [payload_eq_flatMap, List.length_flatMap]
    _ = ∑ sym ∈ (T.leaves.map Prod.fst).toFinset,
          (payloadSymbols ys).count sym * (codeBits T.table sym).length := by
        rw [Finset.sum_list_map_count, hsame]; rfl
    _ = T.cost 0 := by
        rw [List.sum_toFinset _ hnodup,
          ← T.cost_eq_sum_codeBits (fun l hl => snd_of_mem_initialLeaves (h.mem_iff.mp hl)) hnodup]

/-- A file is 32 bits, 10 for each leaf and 1 for each other node, and the payload (R76, R123). -/
theorem length_file {ys : List Byte} {T : Tree} (magic : Word) (h : T.leaves.Perm (initialLeaves (byteCounts ys))) :
    (toBits 32 magic.toNat ++ T.ser ++ payload T.table ys).length = 32 + (11 * T.leafCount - 1) + T.cost 0 := by
  have := T.leafCount_eq
  rw [List.length_append, List.length_append, length_toBits, T.length_ser, length_payload_eq_cost h]
  omega

/-- The tree of a file has the EOF-symbol on a leaf, so what follows the magic is no byte leaf (R180). -/
theorem ser_ne_byteLeaf {T : Tree} (h : eofSym ∈ T.leaves.map Prod.fst) (y : Byte) (bs cs : List Bit) :
    T.ser ++ cs ≠ false :: toBits 9 y.toNat ++ bs := by
  intro heq
  have hleaf : T.placeholder = .leaf (symbolOfByte y) 1 :=
    (Tree.ser_injective (u := .leaf (symbolOfByte y) 1) heq).1
  rw [← T.codes_fst, ← T.placeholder_codes, hleaf] at h
  exact symbolOfByte_ne_eof y (List.mem_singleton.mp h).symm

/-- ENCODE from src_pos 0, where the root's weight fits and the script has a result for each of its transactions
(R123). -/
theorem exec_encode {s : State} (ha : s.accepts = true) (hpos : s.srcPos = 0)
    (hw : widthFits s.par.width (1 + s.src.length) = true) :
    ∃ e a c path, BuiltFrom (byteCounts s.src) e.t ∧ e.t.leaves.Perm (initialLeaves (byteCounts s.src)) ∧
      e.t.weighted = true ∧ ∀ rest, s.answers = oks (s.src.length + 1 + sencTxns e.t e.t.table s.src) rest →
        exec .encode s = .next
          { sencEnd (State.encoded { s with cmd := opEncode, st := .busy } e a c path) with answers := rest } := by
  obtain ⟨e, a, c, path, hbuilt, hleaves, hweighted, hsteps⟩ :=
    encode_steps (s := { s with cmd := opEncode, st := .busy }) rfl rfl hpos hw
  exact ⟨e, a, c, path, hbuilt, hleaves, hweighted, fun rest hr =>
    (command_oks ha hr opEncode fcntStart).trans (hsteps.end (by simp) rest)⟩

/-- Settles O46: whatever the script, ENCODE works with the tree that is built from the counts of SRC. -/
theorem encodeWritesTheFile : Obligations.EncodeWritesTheFile := by
  intro s ha hpos hw
  obtain ⟨e, -, -, -, hbuilt, hleaves, hweighted, -⟩ := exec_encode ha hpos hw
  have heof : eofSym ∈ e.t.leaves.map Prod.fst := (hleaves.map Prod.fst).mem_iff.mpr (List.mem_cons_self ..)
  refine ⟨byteCounts s.src, e.t, ftAt_byteCounts _, hleaves, hweighted, covers_table hleaves, length_file _ hleaves,
    fun y bs => ser_ne_byteLeaf heof y bs _, fun rest => ?_⟩
  obtain ⟨e', a, c, path, hbuilt', -, -, hexec⟩ := exec_encode (s := { s with
      answers := oks (s.src.length + 1 + sencTxns e.t e.t.table s.src) rest }) ha hpos hw
  have htree : e'.t = e.t := hbuilt'.unique hbuilt
  refine ⟨[e'], a, c, path, (hexec rest (by rw [htree])).trans ?_⟩
  simp only [State.encoded, State.coded, htree]
  rfl

/-! ### A run and the script it leaves (R48, R166) -/

theorem andThen_congr {o : Out} {f g : State → Out} (h : ∀ t, o = .next t → f t = g t) :
    andThen o f = andThen o g := by
  cases o with
  | next t => exact h t rfl
  | fault r => rfl
  | refused r => rfl

theorem eq_refused_of_andThen_next {o : Out} {g : State → State} {r : Refusal}
    (h : andThen o (fun t => .next (g t)) = .refused r) : o = .refused r := by
  cases o with
  | next t => cases h
  | fault f => cases h
  | refused r' => exact h

theorem InsideOut.andThen {f g : State → Out} (hf : InsideOut f) (hg : InsideOut g) :
    InsideOut fun s => Machine.andThen (f s) g where
  env s e := by
    rw [hf.env, andThen_assoc, andThen_assoc]
    exact andThen_congr fun t _ => hg.env t e
  cmd s t h := by
    obtain ⟨u, hu, ht⟩ := andThen_eq_next.mp h
    exact (hg.cmd _ _ ht).trans (hf.cmd _ _ hu)
  par s t h := by
    obtain ⟨u, hu, ht⟩ := andThen_eq_next.mp h
    exact (hg.par _ _ ht).trans (hf.par _ _ hu)

theorem insideOut_settle : InsideOut settle :=
  (insideOut_internal.andThen insideOut_internal).andThen insideOut_internal

/-- What stays inside the block does not look at the script. -/
theorem InsideOut.answers {f : State → Out} (hf : InsideOut f) (s : State) (as : List Answer) :
    f { s with answers := as } = Machine.andThen (f s) fun t => .next { t with answers := as } :=
  (hf.queues s as s.host).trans (andThen_congr fun t ht => by
    rw [← show t.host = s.host from congrArg Env.host (hf.env_eq ht)])

theorem transact_answers (fails : Bool) (s : State) (as : List Answer) :
    transact fails { s with answers := as } = andThen (transact fails s) fun t => .next { t with answers := as } :=
  (transact_queues fails s as s.host).trans (andThen_congr fun t ht => by
    obtain ⟨-, hhost, -⟩ := transact_keeps ht
    rw [← hhost])

/-- A run goes by the script it is given, not by what State holds of the script. -/
theorem run_withAnswers (as bs : List Answer) (s : State) : run as { s with answers := bs } = run as s := by
  induction as generalizing s with
  | nil => rw [run, run, insideOut_settle.answers, andThen_assoc]; rfl
  | cons a as ih =>
    by_cases hold : a = .hold
    · rw [hold, run_hold_any, run_hold_any]
    · have hh : (a :: as).head? ≠ some .hold := by simpa using hold
      rw [run_settle _ _ hh, run_settle _ _ hh, insideOut_settle.answers, andThen_assoc]
      refine andThen_congr fun t _ => ?_
      by_cases hb : t.st = .busy
      · simp only [andThen_next, if_pos hb]
        rw [transact_answers, andThen_assoc]
        exact andThen_congr fun u _ => ih u
      · simp only [andThen_next, if_neg hb]

/-- What a run leaves of its script is the end of it. -/
theorem run_answers_suffix {as : List Answer} {s t : State} (h : run as s = .next t) : t.answers <:+ as := by
  induction as generalizing s with
  | nil =>
    obtain ⟨u, -, hu⟩ := andThen_eq_next.mp h
    obtain rfl := Host.Outcome.next.inj hu
    exact List.suffix_rfl
  | cons a as ih =>
    rw [run] at h
    split at h
    · split at h
      · obtain rfl := Host.Outcome.next.inj h
        exact List.suffix_cons a as
      · obtain ⟨u, -, hu⟩ := andThen_eq_next.mp h
        split at hu
        · obtain ⟨v, -, hv⟩ := andThen_eq_next.mp hu
          exact (ih hv).trans (List.suffix_cons a as)
        · obtain rfl := Host.Outcome.next.inj hu
          exact List.suffix_rfl
    · obtain rfl := Host.Outcome.next.inj h
      exact List.suffix_rfl

theorem KeepsInv.inv_of_next {s t : State} {o : Out} (h : KeepsInv s o) (ho : o = .next t) : t.Inv := by
  rcases h with ⟨u, hu, hinv, -⟩ | ⟨hrefused, -⟩
  · exact Host.Outcome.next.inj (ho.symm.trans hu) ▸ hinv
  · rw [ho] at hrefused
    cases hrefused

/-! ### A unit alone and as a part of a composite command (R26, R32, R123, R138) -/

/-- The commands that run in a phase (R26). -/
def Phase.opcodes : Phase → List (BitVec 4)
  | .fcScan => [0x3, opEncode]
  | .tbInit => [0x4, opEncode]
  | .tbMerge => [0x4, opEncode]
  | .cdWalk => [0x5, opEncode]
  | .tsWalk => [0x6, 0x8, opEncode]
  | .seMagic => [0x8, opEncode]
  | .seRewind => [0x8, opEncode]
  | .sePayload => [0x8, opEncode]
  | .seEofcode => [0x8, opEncode]
  | .mgCheck => [0xA, opDecode]
  | .tdWalk => [0x7, opDecode]
  | .sdOuter => [0x9, opDecode]
  | .sdWalk => [0x9, opDecode]
  | .idle => []
  | .halt => []

/-- A running command stands in one of its own phases (R26). -/
theorem cmd_mem_opcodes {s : State} (h : s.seqOk) : s.cmd ∈ s.phase.opcodes := by
  unfold State.seqOk at h
  cases hph : s.phase <;> rw [hph] at h
  case idle | halt => exact h.elim
  case tsWalk =>
    obtain ⟨-, -, -, hc | ⟨hc, -⟩⟩ := h
    · exact List.mem_cons.mpr (.inl (List.mem_singleton.mp hc))
    · exact List.mem_cons_of_mem _ hc
  case sePayload | seEofcode | sdWalk => obtain ⟨hc, -⟩ := h; exact hc
  case mgCheck => obtain ⟨-, hc⟩ := h; exact hc
  case tdWalk => obtain ⟨-, -, hc, -⟩ := h; exact hc
  all_goals obtain ⟨-, hc, -⟩ := h; exact hc

/-- The same state under another command (R32). -/
def State.withCmd (s : State) (op : BitVec 4) : State := { s with cmd := op }

/-- Where a unit's own command stands in `t`, the composite command `op` stands in this state: it has gone on with
`after` where the unit has ended. -/
def State.within (op : BitVec 4) (after : State → State) (t : State) : State :=
  if t.st = .done then after t else t.withCmd op

/-- The composite command `op` starts its next unit where `t` is left by the unit before. -/
def startNext (op : BitVec 4) (start : State → State) (t : State) : State := start { t with cmd := op, st := .busy }

/-- The unit whose own command has the opcode `c` is a part of the composite command `op`, which goes on with `after`. -/
structure RunsAsPart (op c : BitVec 4) (after : State → State) : Prop where
  answers : ∀ t as, after { t with answers := as } = { after t with answers := as }
  internal : ∀ s : State, s.st = .busy → s.cmd = c → c ∈ s.phase.opcodes →
    Machine.internal (s.withCmd op) = andThen (Machine.internal s) fun t => .next (t.within op after)
  deliver : ∀ res (s : State), s.st = .busy → s.cmd = c → c ∈ s.phase.opcodes →
    Machine.deliver res (s.withCmd op) = andThen (Machine.deliver res s) fun t => .next (t.within op after)

theorem perform_withCmd (x : Txn) (s : State) (op : BitVec 4) :
    perform x (s.withCmd op) = ((perform x s).1, (perform x s).2.withCmd op) := by
  cases x with
  | srcRead => simp only [perform, srcRead, State.withCmd]; cases s.src[s.srcPos]? <;> rfl
  | binReadBit => simp only [perform, binReadBit, State.withCmd]; cases s.bin[s.binPos]? <;> rfl
  | binReadBits n =>
    by_cases h : s.binPos + n ≤ s.bin.length <;> simp [perform, binReadBits, State.withCmd, h]
  | _ => rfl

theorem State.within_busy {s : State} (hb : s.st = .busy) (op : BitVec 4) (after : State → State) :
    s.within op after = s.withCmd op := if_neg (by simp [hb])

/-- The composite command goes on from the end of its part, and otherwise it has ended, or waits, like the unit alone. -/
def afterPart (op : BitVec 4) (after : State → State) (t : State) : Out :=
  if t.st = .done then run t.answers (after t) else .next (t.withCmd op)

namespace RunsAsPart

variable {op c : BitVec 4} {after : State → State}

theorem transact (h : RunsAsPart op c after) {s : State} {x : Txn} (hs : s.Inv) (hb : s.st = .busy) (hc : s.cmd = c)
    (hp : s.pend = some x) (fails : Bool) :
    Machine.transact fails (s.withCmd op) = andThen (Machine.transact fails s) fun t => .next (t.within op after) := by
  have hp' : (s.withCmd op).pend = some x := hp
  cases fails with
  | true => rw [transact_fail hp, transact_fail hp']; rfl
  | false =>
    have hsame := perform_streamsOnly x s
    rw [transact_ok hp, transact_ok hp', perform_withCmd]
    refine h.deliver _ (perform x s).2.answered (hsame.st.trans hb) (hsame.cmd.trans hc) ?_
    rw [State.answered_phase, hsame.phase, ← hc]
    exact cmd_mem_opcodes (hs.seq hb)

/-- The internal updates of a unit are those of the composite command. -/
theorem run_of_settled (h : RunsAsPart op c after) {as : List Answer} (hh : as.head? ≠ some .hold)
    (hsettled : ∀ s, s.Inv → s.st = .busy → s.cmd = c → rank s = 0 →
      Machine.run as (s.withCmd op) = andThen (Machine.run as s) (afterPart op after))
    {s : State} (hs : s.Inv) (hc : s.cmd = c) :
    Machine.run as (s.within op after) = andThen (Machine.run as s) (afterPart op after) := by
  induction hn : rank s using Nat.strong_induction_on generalizing s with
  | _ n ih =>
    by_cases hb : s.st = .busy
    · rw [State.within_busy hb]
      by_cases hr : rank s = 0
      · exact hsettled s hs hb hc hr
      · have hinternal := h.internal s hb hc (hc ▸ cmd_mem_opcodes (hs.seq hb))
        rcases inv_internal hs with ⟨t, ht, hinv, -⟩ | ⟨hrefused, -⟩
        · rw [ht, andThen_next] at hinternal
          rw [run_internal ht hh, run_internal hinternal hh]
          have hlt := rank_internal ht
          exact ih (rank t) (by omega) hinv ((insideOut_internal.cmd _ _ ht).trans hc) rfl
        · rw [hrefused, andThen_refused] at hinternal
          rw [run_internal_refused hrefused hh, run_internal_refused hinternal hh, andThen_refused]
    · rw [run_of_not_busy hb, andThen_next, afterPart, State.within]
      split
      · exact ((congrArg _ (h.answers s as)).trans (run_withAnswers as as (after s))).symm
      · exact run_of_not_busy (s := s.withCmd op) hb as

/-- The run of a composite command up to the end of its part is the run of the part's own command (R123, R138). -/
theorem run (h : RunsAsPart op c after) {as : List Answer} (hh : .hold ∉ as) {s : State} (hs : s.Inv)
    (hc : s.cmd = c) :
    Machine.run as (s.within op after) = andThen (Machine.run as s) (afterPart op after) := by
  induction as generalizing s with
  | nil =>
    refine h.run_of_settled (by simp) (fun s hs hb _ hr => ?_) hs hc
    obtain ⟨x, hp⟩ := pend_of_rank hs hb hr
    rw [run_blocked hp, run_blocked (s := s.withCmd op) hp, andThen_next]
    exact (if_neg (by simp [hb])).symm
  | cons a as ih =>
    rw [List.mem_cons, not_or] at hh
    obtain ⟨ha, hh⟩ := hh
    refine h.run_of_settled (by simpa using Ne.symm ha) (fun s hs hb hc hr => ?_) hs hc
    obtain ⟨x, hp⟩ := pend_of_rank hs hb hr
    rw [run_cons_of_settled (settle_of_pend hp) hb (Ne.symm ha),
      run_cons_of_settled (settle_of_pend (s := s.withCmd op) hp) hb (Ne.symm ha), h.transact hs hb hc hp,
      andThen_assoc, andThen_assoc]
    refine andThen_congr fun t ht => ?_
    obtain ⟨-, -, hcmd, -⟩ := transact_keeps ht
    exact ih hh ((inv_transact _ hs hb hr).inv_of_next ht) (hcmd.trans hc)

end RunsAsPart

/-! ### A composite command and its program (R70, R124, R139) -/

/-- From between two commands, `after` under the composite command `op` leads where the program leads, but for CMD. -/
def Composes (op : BitVec 4) (after : State → State) (is : List Instr) : Prop :=
  ∀ t : State, t.Inv → t.accepts = true → .hold ∉ t.answers →
    run t.answers (after t) = andThen (program is t) fun u => .next (u.withCmd op)

theorem not_busy_of_accepts {s : State} (ha : s.accepts = true) : s.st ≠ .busy := by
  rcases accepts_iff.mp ha with e | e <;> simp [e]

theorem composes_nil (op : BitVec 4) : Composes op (State.withCmd · op) [] := fun t _ ha _ =>
  run_of_not_busy (s := t.withCmd op) (not_busy_of_accepts ha) t.answers

theorem StartsCommand.not_done {op : BitVec 4} {start : State → State} (h : StartsCommand op start) {s : State}
    (hb : s.st = .busy) : (start s).st ≠ .done := by
  rcases h.begins s hb with e | ⟨sub, info, e⟩ <;> simp [e]

/-- One part more at the front of a composite command is one command more at the front of the program. -/
theorem Composes.cons {op c : BitVec 4} {start after : State → State} {i : Instr} {is : List Instr}
    (hpart : RunsAsPart op c after) (hstart : StartsCommand c start)
    (hcmd : ∀ s : State, start (s.withCmd op) = (start s).withCmd op) (hexec : ∀ s, exec i s = command c start s)
    (h : Composes op after is) : Composes op (startNext op start) (i :: is) := by
  intro t ht ha hh
  have hinv : (start { t with cmd := c, st := .busy }).Inv := hstart.inv _ (ht.pre_of_accepts ha c) rfl
  have hwithin : startNext op start t = (start { t with cmd := c, st := .busy }).within op after :=
    (hcmd { t with cmd := c, st := .busy }).trans (if_neg (hstart.not_done rfl)).symm
  rw [hwithin, hpart.run hh hinv (hstart.inside.cmd _), program, hexec, command_run ha, andThen_assoc]
  refine andThen_congr fun u hu => ?_
  unfold afterPart
  split
  · rename_i hd
    exact h u ((inv_run t.answers hinv).inv_of_next hu) (accepts_iff.mpr (.inr hd)) fun hmem =>
      hh ((run_answers_suffix hu).subset hmem)
  · rfl

/-! ### The parts of ENCODE (R123) -/

theorem flagsOnSuccess_busy {s : State} (hb : s.st = .busy) (u : UnitCmd) :
    { flagsOnSuccess u s with st := .busy } = flagsOnSuccess u s := by
  cases u <;> simp [flagsOnSuccess, ← hb]

/-- A unit's start looks neither at the phase nor at what was outstanding. -/
theorem beginUnit_standing {u : UnitCmd} {body : State → State}
    (hbody : ∀ (s : State) ph p, body { s with phase := ph, pend := p } = body s) (s : State) (ph : Phase)
    (p : Option Txn) : beginUnit u body { s with phase := ph, pend := p } = beginUnit u body s := by
  have hreq : requires u { s with phase := ph, pend := p } = requires u s := by cases u <;> rfl
  have hflags : flagsAtStart u { s with phase := ph, pend := p } = { flagsAtStart u s with phase := ph, pend := p } := by
    cases u <;> rfl
  rw [beginUnit, beginUnit, hreq, hflags, hbody]
  rfl

/-- Where a unit ends, its own command is DONE and the composite command starts the next unit (R26, R123, R138). -/
theorem endUnit_within {u : UnitCmd} {op : BitVec 4} {start : State → State} {s : State} (hb : s.st = .busy)
    (hne : s.cmd ≠ op) (hstart : ∀ (s : State) ph p, start { s with phase := ph, pend := p } = start s) :
    endUnit u op start (s.withCmd op) = (endUnit u op start s).within op (startNext op start) := by
  have hflags : flagsOnSuccess u (s.withCmd op) = { flagsOnSuccess u s with cmd := op, st := .busy } := by
    rw [← flagsOnSuccess_busy (s := s.withCmd op) hb]
    cases u <;> rfl
  calc endUnit u op start (s.withCmd op)
      = start { flagsOnSuccess u s with cmd := op, st := .busy } := (if_pos rfl).trans (congrArg start hflags)
    _ = startNext op start (flagsOnSuccess u s).finish :=
        (hstart { flagsOnSuccess u s with cmd := op, st := .busy } .halt none).symm
    _ = _ := by rw [endUnit, if_neg hne]; rfl

theorem beginUnit_withCmd {u : UnitCmd} {body : State → State} {op : BitVec 4}
    (hbody : ∀ s : State, body (s.withCmd op) = (body s).withCmd op) (s : State) :
    beginUnit u body (s.withCmd op) = (beginUnit u body s).withCmd op := by
  have hreq : requires u (s.withCmd op) = requires u s := by cases u <;> rfl
  have hflags : flagsAtStart u (s.withCmd op) = (flagsAtStart u s).withCmd op := by cases u <;> rfl
  rw [beginUnit, beginUnit, hreq, hflags, hbody]
  split <;> rfl

/-- Only three phases have an internal update (R26, R55). -/
theorem not_due_of_phase {s : State} (h : s.phase ∉ [.tbInit, .tbMerge, .cdWalk]) : s.internalDue = false := by
  simp only [List.mem_cons, List.not_mem_nil, or_false] at h
  simp [State.internalDue, h]

theorem internal_tbInit {s : State} (hb : s.st = .busy) (hn : s.pend = none) (hph : s.phase = .tbInit) :
    internal s = .next (tbldInit s) := by simp [internal, hb, hn, hph]

theorem internal_tbMerge {s : State} (hb : s.st = .busy) (hn : s.pend = none) (hph : s.phase = .tbMerge) :
    internal s = tbldMerge s := by simp [internal, hb, hn, hph]

theorem internal_cdWalk {s : State} (hb : s.st = .busy) (hn : s.pend = none) (hph : s.phase = .cdWalk) :
    internal s = .next (ctdrWalk s) := by simp [internal, hb, hn, hph]

/-- Where the unit alone has no internal update to make, the composite command has none. -/
theorem internal_within {s : State} (hb : s.st = .busy) (h : s.internalDue = false) (op : BitVec 4)
    (after : State → State) :
    internal (s.withCmd op) = andThen (internal s) fun t => .next (t.within op after) := by
  rw [internal_of_not_due h, internal_of_not_due (s := s.withCmd op) h, andThen_next, State.within_busy hb]

theorem phase_of_fcnt {p : Phase} (h : (0x3 : BitVec 4) ∈ p.opcodes) : p = .fcScan := by
  cases p <;> revert h <;> decide

theorem phase_of_tbld {p : Phase} (h : (0x4 : BitVec 4) ∈ p.opcodes) : p = .tbInit ∨ p = .tbMerge := by
  cases p <;> revert h <;> decide

theorem phase_of_ctdr {p : Phase} (h : (0x5 : BitVec 4) ∈ p.opcodes) : p = .cdWalk := by
  cases p <;> revert h <;> decide

theorem phase_of_senc {p : Phase} (h : (0x8 : BitVec 4) ∈ p.opcodes) :
    p = .seMagic ∨ p = .tsWalk ∨ p = .seRewind ∨ p = .sePayload ∨ p = .seEofcode := by
  cases p <;> revert h <;> decide

theorem fcntEnd_within {s : State} (hb : s.st = .busy) (hc : s.cmd = 0x3) :
    fcntEnd (s.withCmd opEncode) = (fcntEnd s).within opEncode (startNext opEncode tbldStart) :=
  endUnit_within hb (by rw [hc]; decide) (beginUnit_standing fun _ _ _ => rfl)

theorem tbldEnd_within {s : State} (hb : s.st = .busy) (hc : s.cmd = 0x4) :
    tbldEnd (s.withCmd opEncode) = (tbldEnd s).within opEncode (startNext opEncode ctdrStart) :=
  endUnit_within hb (by rw [hc]; decide) (beginUnit_standing fun _ _ _ => rfl)

theorem ctdrEnd_within {s : State} (hb : s.st = .busy) (hc : s.cmd = 0x5) :
    ctdrEnd (s.withCmd opEncode) = (ctdrEnd s).within opEncode (startNext opEncode sencStart) :=
  endUnit_within hb (by rw [hc]; decide) (beginUnit_standing fun _ _ _ => rfl)

/-- The answer to a read of FC_SCAN (R83). -/
theorem fcntGot_within {s : State} (hb : s.st = .busy) (hc : s.cmd = 0x3) (y : Read Byte) :
    fcntGot y (s.withCmd opEncode) =
      andThen (fcntGot y s) fun t => .next (t.within opEncode (startNext opEncode tbldStart)) := by
  cases y with
  | END => exact congrArg Host.Outcome.next (fcntEnd_within (s := { s with r := .END }) hb hc)
  | val x =>
    have hw : widthFits (s.withCmd opEncode).par.width (ftAt (s.withCmd opEncode).ft x + 1) =
      widthFits s.par.width (ftAt s.ft x + 1) := rfl
    simp only [fcntGot, hw]
    split
    · exact congrArg Host.Outcome.next (State.within_busy
        (s := { s with r := .val x, ft := ftIncr s.ft x, pend := some .srcRead }) hb _ _).symm
    · rfl

/-- FCNT is the part of ENCODE that TBLD follows (R123). -/
theorem fcnt_runsAsPart : RunsAsPart opEncode 0x3 (startNext opEncode tbldStart) where
  answers t := inside_tbldStart.answers { t with cmd := opEncode, st := .busy }
  internal s hb hc hop := internal_within hb (not_due_of_phase (by rw [phase_of_fcnt hop]; decide)) _ _
  deliver res s hb hc hop := by
    have hph : s.phase = .fcScan := phase_of_fcnt hop
    have hph' : (s.withCmd opEncode).phase = .fcScan := hph
    cases res with
    | byte y => simp only [deliver, hph, hph', fcntGot_within hb hc]
    | _ => simp only [deliver, hph, hph', andThen_fault]

/-- TB_MERGE (R89). -/
theorem tbldMerge_within {s : State} (hb : s.st = .busy) (hc : s.cmd = 0x4) :
    tbldMerge (s.withCmd opEncode) =
      andThen (tbldMerge s) fun t => .next (t.within opEncode (startNext opEncode ctdrStart)) := by
  have hB : (s.withCmd opEncode).builder.merge (s.withCmd opEncode).q.length = s.builder.merge s.q.length := rfl
  have hpar : (s.withCmd opEncode).par = s.par := rfl
  simp only [tbldMerge, hB, hpar]
  split
  · rfl
  · split
    · exact congrArg Host.Outcome.next (tbldEnd_within
        (s := { s.withBuilder (s.builder.merge s.q.length) with tree := _ }) hb hc)
    · rfl

/-- TBLD is the part of ENCODE that CTDR follows (R123). -/
theorem tbld_runsAsPart : RunsAsPart opEncode 0x4 (startNext opEncode ctdrStart) where
  answers t := inside_ctdrStart.answers { t with cmd := opEncode, st := .busy }
  internal s hb hc hop := by
    cases hp : s.pend with
    | some x => exact internal_within hb (internalDue_of_pend hp) _ _
    | none =>
      rcases phase_of_tbld hop with hph | hph
      · rw [internal_tbInit hb hp hph, internal_tbInit (s := s.withCmd opEncode) hb hp hph, andThen_next]
        exact congrArg Host.Outcome.next (State.within_busy (s := tbldInit s) hb _ _).symm
      · rw [internal_tbMerge hb hp hph, internal_tbMerge (s := s.withCmd opEncode) hb hp hph]
        exact tbldMerge_within hb hc
  deliver res s hb hc hop := by
    have hph' : (s.withCmd opEncode).phase = s.phase := rfl
    rcases phase_of_tbld hop with hph | hph <;> simp only [deliver, hph', hph, andThen_fault]

/-- CD_WALK (R109). -/
theorem ctdrWalk_within {s : State} (hb : s.st = .busy) (hc : s.cmd = 0x5) :
    ctdrWalk (s.withCmd opEncode) = (ctdrWalk s).within opEncode (startNext opEncode sencStart) :=
  ctdrEnd_within (s := { s with ct := _, path := _, stk := [] }) hb hc

/-- CTDR is the part of ENCODE that SENC follows (R123). -/
theorem ctdr_runsAsPart : RunsAsPart opEncode 0x5 (startNext opEncode sencStart) where
  answers t := inside_sencStart.answers { t with cmd := opEncode, st := .busy }
  internal s hb hc hop := by
    cases hp : s.pend with
    | some x => exact internal_within hb (internalDue_of_pend hp) _ _
    | none =>
      have hph : s.phase = .cdWalk := phase_of_ctdr hop
      rw [internal_cdWalk hb hp hph, internal_cdWalk (s := s.withCmd opEncode) hb hp hph]
      exact congrArg Host.Outcome.next (ctdrWalk_within hb hc)
  deliver res s hb hc hop := by
    have hph' : (s.withCmd opEncode).phase = s.phase := rfl
    simp only [deliver, hph', phase_of_ctdr hop, andThen_fault]

/-! ### SENC looks at CMD nowhere but where it tells itself from TSER (R26) -/

theorem emitTree_withCmd (s : State) (op : BitVec 4) : emitTree (s.withCmd op) = (emitTree s).withCmd op := by
  have htree : (s.withCmd op).tree = s.tree := rfl
  rw [emitTree, htree, emitTree]
  cases s.tree <;> rfl

theorem tserEnd_withCmd {s : State} {op : BitVec 4} (hs : s.cmd ≠ 0x6) (hop : op ≠ 0x6) :
    tserEnd (s.withCmd op) = (tserEnd s).withCmd op := by
  have hrewind : ∀ u : State, u.cmd ≠ 0x6 → tserEnd u = sencRewind u := fun u hu => if_neg hu
  rw [hrewind s hs, hrewind (s.withCmd op) hop]
  rfl

theorem tserNext_withCmd {s : State} {op : BitVec 4} (hs : s.cmd ≠ 0x6) (hop : op ≠ 0x6) :
    tserNext (s.withCmd op) = andThen (tserNext s) fun t => .next (t.withCmd op) := by
  have hstk : (s.withCmd op).stk = s.stk := rfl
  rw [tserNext, hstk, tserNext]
  split
  · exact congrArg Host.Outcome.next (tserEnd_withCmd hs hop)
  all_goals rfl

theorem putBit_withCmd {after : State → State} {op : BitVec 4}
    (hafter : ∀ s : State, after (s.withCmd op) = (after s).withCmd op) (code : Code) (k : Nat) (s : State) :
    putBit code after k (s.withCmd op) = (putBit code after k s).withCmd op := by
  rw [putBit, putBit]
  split
  · rfl
  · exact hafter { s with k := k }

theorem put_withCmd {after : State → State} {op : BitVec 4}
    (hafter : ∀ s : State, after (s.withCmd op) = (after s).withCmd op) (sym : Symbol) (s : State) :
    put sym after (s.withCmd op) = (put sym after s).withCmd op := by
  have hct : (s.withCmd op).ct = s.ct := rfl
  rw [put, hct, put]
  split
  · rfl
  · exact putBit_withCmd hafter _ _ s

theorem putNext_withCmd {after : State → State} {op : BitVec 4}
    (hafter : ∀ s : State, after (s.withCmd op) = (after s).withCmd op) (sym : Symbol) (s : State) :
    putNext sym after (s.withCmd op) = andThen (putNext sym after s) fun t => .next (t.withCmd op) := by
  have hct : (s.withCmd op).ct = s.ct := rfl
  rw [putNext, hct, putNext]
  split
  · rfl
  · exact congrArg Host.Outcome.next (putBit_withCmd hafter _ _ s)

theorem sencGot_withCmd (y : Read Byte) (s : State) (op : BitVec 4) :
    sencGot y (s.withCmd op) = (sencGot y s).withCmd op := by
  cases y with
  | val x => exact put_withCmd (fun _ => rfl) _ { s with r := .val x }
  | END => exact put_withCmd (fun _ => rfl) _ { s with r := .END, phase := .seEofcode }

theorem sencWrote_withCmd (s : State) (op : BitVec 4) :
    sencWrote (s.withCmd op) = andThen (sencWrote s) fun t => .next (t.withCmd op) := by
  have hr : (s.withCmd op).r = s.r := rfl
  rw [sencWrote, hr, sencWrote]
  split
  · exact putNext_withCmd (fun _ => rfl) _ s
  · rfl

theorem sencWroteEof_withCmd (s : State) (op : BitVec 4) :
    sencWroteEof (s.withCmd op) = andThen (sencWroteEof s) fun t => .next (t.withCmd op) :=
  putNext_withCmd (fun _ => rfl) _ s

theorem sencRead_withCmd (s : State) (op : BitVec 4) : sencRead (s.withCmd op) = (sencRead s).withCmd op := rfl

/-- In a phase of SENC what follows a transaction is the same under every command but TSER. -/
theorem deliver_withCmd {s : State} {op : BitVec 4} (hph : 0x8 ∈ s.phase.opcodes) (hs : s.cmd ≠ 0x6) (hop : op ≠ 0x6)
    (res : Result) : deliver res (s.withCmd op) = andThen (deliver res s) fun t => .next (t.withCmd op) := by
  have hph' : (s.withCmd op).phase = s.phase := rfl
  rcases phase_of_senc hph with hph | hph | hph | hph | hph <;> cases res <;>
    simp only [deliver, hph', hph, andThen_fault, andThen_next, emitTree_withCmd, tserNext_withCmd hs hop,
      sencRead_withCmd, sencGot_withCmd, sencWrote_withCmd, sencWroteEof_withCmd]

/-- SENC is the last part of ENCODE, so nothing follows its end (R123). -/
theorem senc_runsAsPart : RunsAsPart opEncode 0x8 (State.withCmd · opEncode) where
  answers _ _ := rfl
  internal s hb _ hop :=
    internal_within hb (not_due_of_phase (by
      rcases phase_of_senc hop with h | h | h | h | h <;> rw [h] <;> decide)) _ _
  deliver res s _ hc hop := by
    have hwithin (t : State) : t.within opEncode (State.withCmd · opEncode) = t.withCmd opEncode := ite_self _
    simp only [hwithin]
    exact deliver_withCmd hop (by rw [hc]; decide) (by decide) res

/-- ENCODE is composed of FCNT, TBLD, CTDR and SENC (R123, R124). -/
theorem encode_composes : Composes opEncode (startNext opEncode fcntStart)
    [.fcnt, .tbld, .ctdr, .senc] := by
  have hsenc : Composes opEncode (startNext opEncode sencStart) [.senc] :=
    (composes_nil opEncode).cons senc_runsAsPart startsCommand_senc (beginUnit_withCmd fun _ => rfl) fun _ => rfl
  have hctdr := hsenc.cons (i := .ctdr) ctdr_runsAsPart startsCommand_ctdr (beginUnit_withCmd fun _ => rfl) fun _ => rfl
  have htbld := hctdr.cons (i := .tbld) tbld_runsAsPart startsCommand_tbld (beginUnit_withCmd fun _ => rfl) fun _ => rfl
  exact htbld.cons fcnt_runsAsPart (startsCommand_fcnt (by decide)) (beginUnit_withCmd fun _ => rfl) fun _ => rfl

/-- Settles O47: ENCODE is composed of its four parts, and the invariant leaves no stop but the refusal of U3. -/
theorem encodeEqualsItsProgram : Obligations.EncodeEqualsItsProgram := by
  intro s hs ha hh
  have hprogram : exec .encode s =
      andThen (program [.fcnt, .tbld, .ctdr, .senc] s) fun u => .next (u.withCmd opEncode) :=
    (command_run ha opEncode fcntStart).trans (encode_composes s hs ha hh)
  rcases inv_exec (i := .encode) hs rfl with ⟨t, ht, -⟩ | ⟨hrefused, hw⟩
  · obtain ⟨u, hu, hut⟩ := andThen_eq_next.mp (hprogram.symm.trans ht)
    obtain rfl := Host.Outcome.next.inj hut
    exact .inl ⟨_, u, ht, hu, rfl⟩
  · exact .inr ⟨hrefused, eq_refused_of_andThen_next (hprogram.symm.trans hrefused), hw⟩

end Sys2Proof.Machine

/-! The proofs of the statements of 45_huffman_decoder.md: what MCHK does with the bits it reads, how SDEC goes over its
payload and ends, what DECODE writes, and that DECODE is the program of its three parts. -/

namespace Sys2Proof.Machine

/-! ### The decode gate (R126, R127) -/

/-- What MCHK leaves where MAGIC stands next on BIN, before its end (R126). -/
def State.passedGate (s : State) : State :=
  { s with
    v := .val s.par.magic.toNat
    binPos := s.binPos + 32
    eofSeen := false
    phase := .mgCheck
    pend := none }

/-- MAGIC passes the gate, in MCHK and in DECODE (R126). -/
theorem mchk_steps {s : State} {bs : List Bit} (hb : s.st = .busy)
    (hd : s.bin.drop s.binPos = toBits 32 s.par.magic.toNat ++ bs) :
    Steps 1 (mchkStart s) (mchkEnd s.passedGate) := by
  rw [mchk_start]
  exact Steps.readBits hb rfl s.par.magic.isLt (by decide) hd (by simp [deliver, mchkGot, State.passedGate])

/-- Settles O35: MAGIC passes the gate, where the command ends. -/
theorem mchkAcceptsTheMagic : Obligations.MchkAcceptsTheMagic := by
  intro s bs rest ha hd hr
  have hsteps := mchk_steps (s := { s with cmd := 0xA, st := .busy }) rfl hd
  rw [mchkEnd_mchk rfl] at hsteps
  exact (command_oks ha hr 0xA mchkStart).trans (hsteps.end (by simp) rest)

/-- A read of fewer than 32 bits raises InvalidFormat (R127). -/
theorem shortMagic_steps {s : State} (hb : s.st = .busy) (hshort : s.bin.length < s.binPos + 32) :
    Steps 1 (mchkStart s) (raise .invalidFormat 1 0 { s with binPos := s.bin.length }) := by
  rw [mchk_start]
  refine Steps.txn hb rfl ?_
  rw [perform_binReadBits_end (by exact hshort)]
  rfl

/-- MCHK and DECODE start alike (R138). -/
theorem exec_gate {i : Instr} (hi : i = .mchk ∨ i = .decode) : ∃ op, ∀ s, exec i s = command op mchkStart s := by
  rcases hi with rfl | rfl
  · exact ⟨0xA, fun _ => rfl⟩
  · exact ⟨opDecode, fun _ => rfl⟩

/-- Settles O37: the first transaction of both commands is the read that raises. -/
theorem shortMagicRaisesInvalidFormat : Obligations.ShortMagicRaisesInvalidFormat := by
  intro s i rest ha hi hshort hr
  obtain ⟨op, hexec⟩ := exec_gate hi
  have hsteps := shortMagic_steps (s := { s with cmd := op, st := .busy }) rfl hshort
  obtain ⟨htook, hstreams⟩ := raised (F := .invalidFormat) (sub := 1) (info := 0) (rest := rest)
    (s := { s with cmd := op, st := .busy, binPos := s.bin.length }) (s' := { s with binPos := s.bin.length })
    (by decide) (by decide) ⟨rfl, rfl, rfl, rfl, rfl, rfl⟩
  exact ⟨_, ((hexec s).trans (command_oks ha hr op mchkStart)).trans (hsteps.end (by simp) rest), htook, hstreams, rfl⟩

/-! ### SDEC (R129 to R136) -/

/-- SDEC has started and issued nothing yet (R28, R129). -/
def State.startedSdec (s : State) : State := { s with cmd := 0x9, st := .busy, eofSeen := false, pend := none }

/-- SDEC needs a valid tree, and then starts with `hasMoreBits` (R28, R129). -/
theorem exec_sdec {s : State} {as : List Answer} (ha : s.accepts = true) (ht : s.treeValid = true)
    (hr : s.answers = as) : exec .sdec s = run as (sdecOuter s.startedSdec) :=
  (command_oks ha hr 0x9 sdecStart).trans (congrArg _ (sdec_start (s := { s with cmd := 0x9, st := .busy }) ht))

@[simp] theorem sdecEnd_st (s : State) : (sdecEnd s).st = .done := rfl

/-- Settles O39: `sdec_steps` from where the start of SDEC leaves the state. -/
theorem sdecDecodesThePayload : Obligations.SdecDecodesThePayload := by
  intro s cs code bs rest ha ht hcs hcode hd hne hr
  obtain ⟨b, cur, hsteps⟩ := sdec_steps (s := s.startedSdec) rfl rfl hcs hcode hd hne
  rw [← Nat.add_assoc] at hsteps
  exact ⟨b, cur, (exec_sdec ha ht hr).trans (hsteps.end (by simp) rest)⟩

/-- SDEC where it has decoded these bytes, before it asks for more bits (R129, R134). -/
def State.decoded (s : State) (cs : List (Byte × Code)) (b : Read Bit) (cur : Tree) : State :=
  { s.startedSdec with
    b := b
    cur := cur
    binPos := s.binPos + (payloadBits cs).length
    dst := s.dst ++ payloadBytes cs }

/-- SDEC comes to the end of every run of Codes that are not empty (R129, R134). -/
theorem decoded_steps {s : State} {cs : List (Byte × Code)} {bs : List Bit} (hcs : onTree s.tree cs)
    (hne : ∀ e ∈ cs, e.2 ≠ []) (hd : s.bin.drop s.binPos = payloadBits cs ++ bs) :
    ∃ b cur, Steps (payloadTxns cs) (sdecOuter s.startedSdec) (sdecOuter (s.decoded cs b cur)) :=
  symbols_steps (s := s.startedSdec) cs rfl rfl hcs hd hne

/-- Settles O40: the loop comes to the end of BIN where it asks for more bits. -/
theorem sdecEndsAtACodeBoundary : Obligations.SdecEndsAtACodeBoundary := by
  intro s cs rest ha ht hcs hne hpos hd hr
  have hlen : s.binPos + (payloadBits cs).length = s.bin.length := by
    rw [← hd, List.length_drop]; omega
  obtain ⟨b, cur, hloop⟩ := decoded_steps (bs := []) hcs hne (hd.trans (List.append_nil _).symm)
  have hend := sdecOuter_end (s := s.decoded cs b cur) rfl rfl hlen.ge
  refine ⟨b, cur, ((exec_sdec ha ht hr).trans ((hloop.trans hend).end (by simp) rest)).trans ?_⟩
  rw [State.decoded, hlen]
  rfl

/-- Where one Code of a tree is not empty, none is (R79). -/
theorem Tree.codes_ne_nil_of_ne_nil {t : Tree} {sym sym' : Symbol} {code code' : Code} (h : (sym, code) ∈ t.codes)
    (h' : (sym', code') ∈ t.codes) (hne : code' ≠ []) : code ≠ [] := by
  rintro rfl
  exact hne (Tree.codes_prefix h h' List.nil_prefix).2.symm

/-- Settles O41: the loop takes the whole Codes, and its next walk is cut short. -/
theorem truncatedPayloadRaisesCorruptStream : Obligations.TruncatedPayloadRaisesCorruptStream := by
  intro s cs sym code p rest ha ht hcs hcode hprefix hproper hne hd hr
  have hcode_ne : code ≠ [] := fun h => hne (List.prefix_nil.mp (h ▸ hprefix))
  obtain ⟨b, cur, hloop⟩ := decoded_steps hcs (fun e he => Tree.codes_ne_nil_of_ne_nil (hcs e he) hcode hcode_ne) hd
  have hcut : s.bin.drop (s.binPos + (payloadBits cs).length) = p := drop_add_of_drop hd
  have hmore := lt_of_drop (s := s.decoded cs b cur) hcut hne
  obtain ⟨v, hstreams, hcmd, hwalk⟩ := cut_steps s.tree (s := { s.decoded cs b cur with phase := .sdWalk }) rfl rfl rfl
    hcode hprefix hproper hcut
  have hsteps := ((hloop.trans (sdecOuter_step rfl rfl hmore)).trans hwalk).cast
    (m := payloadTxns cs + 1 + p.length + 1) (by omega)
  have hv : State.sameStreams { s with binPos := s.bin.length, dst := s.dst ++ payloadBytes cs } v :=
    ⟨hstreams.src.symm, hstreams.srcPos.symm, hstreams.bin.symm,
      hstreams.binPos.symm.trans (Nat.max_eq_left hmore.le), hstreams.bout.symm, hstreams.dst.symm⟩
  obtain ⟨htook, hsame⟩ := raised (F := .corruptStream) (sub := 0) (info := 0) (rest := rest) (by decide) (by decide) hv
  exact ⟨_, (exec_sdec ha ht hr).trans (hsteps.end (by simp) rest), htook, hsame, hcmd, rfl⟩

/-- With no bit left, SDEC ends with its first transaction (R132). -/
theorem exec_sdec_noBit {s : State} {rest : List Answer} (ha : s.accepts = true) (ht : s.treeValid = true)
    (hend : s.bin.length ≤ s.binPos) (hr : s.answers = .ok :: rest) :
    exec .sdec s = .next { s with
      treeValid := false, eofSeen := false, cmd := 0x9, phase := .halt, st := .done, pend := none, answers := rest } :=
  (exec_sdec ha ht hr).trans ((sdecOuter_end (s := s.startedSdec) rfl rfl hend).end (by simp) rest)

/-- At the leaf of the EOF-symbol the decoder stops (R129, R133). -/
theorem sdecWalk_eofLeaf {s : State} {w : Nat} (h : s.cur = .leaf eofSym w) :
    sdecWalk s = sdecEnd { s with eofSeen := true } := by
  simp [sdecWalk, h]

/-- At the leaf of a byte the decoder writes it (R129). -/
theorem sdecWalk_byteLeaf {s : State} {y : Byte} {w : Nat} (h : s.cur = .leaf (symbolOfByte y) w) :
    sdecWalk s = s.issue (.dstWrite y) := by
  simp [sdecWalk, h, symbolOfByte_ne_eof]

/-- Settles O42: with a bit left the walk is over where it starts, and without one there is no walk. -/
theorem sdecOnTheEofLeafConsumesNothing : Obligations.SdecOnTheEofLeafConsumesNothing := by
  intro s w rest ha ht htree hr
  by_cases hmore : s.binPos < s.bin.length
  · have hstep := sdecOuter_step (s := s.startedSdec) rfl rfl hmore
    rw [sdecWalk_eofLeaf htree] at hstep
    refine ⟨s.tree, ((exec_sdec ha ht hr).trans (hstep.end (by simp) rest)).trans ?_⟩
    rw [decide_eq_true hmore]
    rfl
  · rw [decide_eq_false hmore]
    exact ⟨s.cur, exec_sdec_noBit ha ht (Nat.not_lt.mp hmore) hr⟩

/-! ### SDEC on a byte leaf (R136, R180) -/

theorem endless_pend {s : State} {y : Byte} (h : s.endless y) : ∃ x, s.pend = some x := by
  obtain ⟨-, -, -, ⟨-, hp⟩ | ⟨-, hp, -⟩⟩ := h
  · exact ⟨_, hp⟩
  · exact ⟨_, hp⟩

/-- In the endless run an answered transaction leads on in it: no bit is consumed, and only the byte is written. -/
theorem endless_deliver {s : State} {y : Byte} {x : Txn} (h : s.endless y) (hp : s.pend = some x) :
    ∃ u, deliver (perform x s).1 (perform x s).2.answered = .next u ∧ u.endless y ∧ u.binPos = s.binPos ∧
      ∃ n, u.dst = s.dst ++ List.replicate n y := by
  obtain ⟨hb, ⟨w, htree⟩, hmore, ⟨hph, hp'⟩ | ⟨hph, hp', -⟩⟩ := h
  · obtain rfl : Txn.binHasMoreBits = x := Option.some.inj (hp'.symm.trans hp)
    refine ⟨State.issue { s with phase := .sdWalk, cur := s.tree, pend := none } (.dstWrite y), ?_,
      ⟨hb, ⟨w, htree⟩, hmore, .inr ⟨rfl, rfl, w, htree⟩⟩, rfl, 0, (List.append_nil _).symm⟩
    rw [perform_binHasMoreBits, decide_eq_true hmore,
      ← sdecWalk_byteLeaf (s := { s with phase := .sdWalk, cur := s.tree, pend := none }) htree]
    simp [deliver, hph, sdecMore, State.answered]
  · obtain rfl : Txn.dstWrite y = x := Option.some.inj (hp'.symm.trans hp)
    refine ⟨sdecOuter { s with dst := s.dst ++ [y] }, ?_, ⟨hb, ⟨w, htree⟩, hmore, .inl ⟨rfl, rfl⟩⟩, rfl, 1, rfl⟩
    simp [deliver, hph, State.answered, sdecOuter]

/-- The endless run goes on under every script without a failure. -/
theorem endless_run {as : List Answer} (hf : .fail ∉ as) {s : State} {y : Byte} (h : s.endless y) :
    ∃ t n, run as s = .next t ∧ t.endless y ∧ t.binPos = s.binPos ∧ t.dst = s.dst ++ List.replicate n y := by
  induction as generalizing s with
  | nil =>
    obtain ⟨x, hp⟩ := endless_pend h
    exact ⟨_, 0, run_blocked hp, h, rfl, (List.append_nil _).symm⟩
  | cons a as ih =>
    rw [List.mem_cons, not_or] at hf
    obtain ⟨ha, hf⟩ := hf
    have hb : s.st = .busy := h.1
    obtain ⟨x, hp⟩ := endless_pend h
    cases a with
    | fail => exact absurd rfl ha
    | hold => exact ⟨_, 0, run_hold hb as, h, rfl, (List.append_nil _).symm⟩
    | ok =>
      obtain ⟨u, hu, hend, hpos, n, hdst⟩ := endless_deliver h hp
      obtain ⟨t, m, hrun, ht, hpos', hdst'⟩ := ih hf hend
      refine ⟨t, n + m, ?_, ht, hpos'.trans hpos, ?_⟩
      · rw [run_ok hb hp, hu, andThen_next, hrun]
      · rw [hdst', hdst, List.append_assoc, List.replicate_append_replicate]

/-- Two transactions for each write: the question whether a bit is left, and the write. -/
theorem byteLeaf_steps (n : Nat) {s : State} {y : Byte} {w : Nat} (hb : s.st = .busy) (hn : s.pend = none)
    (htree : s.tree = .leaf (symbolOfByte y) w) (hmore : s.binPos < s.bin.length) :
    ∃ b cur, Steps (2 * n) (sdecOuter s)
      (sdecOuter { s with b := b, cur := cur, dst := s.dst ++ List.replicate n y }) := by
  induction n generalizing s with
  | zero => exact ⟨s.b, s.cur, (Steps.refl _).of_eq (by simp)⟩
  | succ n ih =>
    have hcode : (symbolOfByte y, []) ∈ s.tree.codes := by simp [htree, Tree.codes]
    obtain ⟨b, cur, hone⟩ := symbol_steps (code := []) hb hn hcode rfl (by simpa using hmore)
    obtain ⟨b', cur', hrest⟩ := ih (s := { s with b := b, cur := cur, dst := s.dst ++ [y] }) hb hn htree hmore
    refine ⟨b', cur', ((hone.trans hrest).cast ?_).of_eq ?_⟩
    · rw [List.length_nil]; omega
    · simp [List.replicate_succ]

/-- Settles O43: with no bit left there is no walk; with one the run is endless, and `byteLeaf_steps` counts
its writes. -/
theorem sdecOnAByteLeafNeverEnds : Obligations.SdecOnAByteLeafNeverEnds := by
  intro s y w ha ht htree
  refine ⟨fun hend rest hr => exec_sdec_noBit ha ht hend hr, fun hmore hf => ?_, fun hmore n hr => ?_⟩
  · have hstart : (sdecOuter s.startedSdec).endless y := ⟨rfl, ⟨w, htree⟩, hmore, .inl ⟨rfl, rfl⟩⟩
    obtain ⟨t, n, hrun, hend, hpos, hdst⟩ := endless_run hf hstart
    exact ⟨t, n, (exec_sdec ha ht rfl).trans hrun, hend.1, hdst, hpos⟩
  · obtain ⟨b, cur, hsteps⟩ := byteLeaf_steps n (s := s.startedSdec) rfl rfl htree hmore
    have hrun := (hsteps []).trans (run_blocked rfl)
    rw [oks, List.append_nil] at hrun
    exact ⟨_, (exec_sdec ha ht hr).trans hrun, rfl, rfl⟩

/-! ### DECODE of a file (R138) -/

/-- In DECODE, SDEC follows TDES (R138). -/
theorem tdesEnd_decode {s : State} (hc : s.cmd = opDecode) :
    tdesEnd s = sdecOuter { s with treeValid := true, eofSeen := false } :=
  (if_pos hc).trans (sdec_start (s := { s with treeValid := true }) rfl)

/-- DECODE where it has taken the magic and the tree `T`, before it asks for more bits (R138). -/
def State.tookHeader (s : State) (T : Tree) (b : Read Bit) (v : Read Nat) : State :=
  { s.passedGate.parsed T b v with treeValid := true }

/-- DECODE takes a header whose tree fits, and comes to its payload (R126, R101, R138). -/
theorem tookHeader_steps {s : State} {T : Tree} {bs : List Bit} (hb : s.st = .busy) (hc : s.cmd = opDecode)
    (hd : s.bin.drop s.binPos = toBits 32 s.par.magic.toNat ++ (T.ser ++ bs))
    (hcap : fitsCap s.par.nodeCap T.nodeCount) :
    ∃ b v, Steps (1 + T.txns) (mchkStart s) (sdecOuter (s.tookHeader T b v)) ∧
      (s.tookHeader T b v).bin.drop (s.tookHeader T b v).binPos = bs := by
  have hgate := mchk_steps hb hd
  rw [mchkEnd_decode (s := s.passedGate) hc] at hgate
  have hd' : s.bin.drop (s.binPos + 32) = T.ser ++ bs := by simpa using drop_add_of_drop hd
  obtain ⟨b, v, htree⟩ := tdes_steps (s := s.passedGate) hb hd' hcap
  rw [tdesEnd_decode (s := s.passedGate.parsed T b v) hc] at htree
  exact ⟨b, v, hgate.trans htree, drop_add_of_drop hd'⟩

theorem tookHeader_codes (s : State) (T : Tree) (b : Read Bit) (v : Read Nat) :
    (s.tookHeader T b v).tree.codes = T.codes := T.placeholder_codes

/-- Settles O48: the header, and then the payload as in SDEC. -/
theorem decodeReadsTheFile : Obligations.DecodeReadsTheFile := by
  intro s T cs code bs rest ha hcap hcs hcode hd hne hr
  have hd' : s.bin.drop s.binPos = toBits 32 s.par.magic.toNat ++ (T.ser ++ (payloadBits cs ++ code ++ bs)) := by
    simpa using hd
  obtain ⟨b, v, hheader, hbits⟩ := tookHeader_steps (s := { s with cmd := opDecode, st := .busy }) rfl rfl hd' hcap
  obtain ⟨b', cur, hpayload⟩ := sdec_steps rfl rfl (by rwa [onTree, tookHeader_codes]) (by rwa [tookHeader_codes])
    hbits hne
  have hsteps := (hheader.trans hpayload).cast (m := 1 + T.txns + (payloadTxns cs + 1 + code.length)) (by omega)
  exact ⟨v, b', cur, (command_oks ha hr opDecode mchkStart).trans (hsteps.end (by simp) rest)⟩

/-! ### The decode side, phase by phase (R26, R128, R138) -/

/-- The outcome is a next state with the property, or the model's fault, and never a refusal. -/
def Leads (P : State → Prop) (o : Out) : Prop := (∃ t, o = .next t ∧ P t) ∨ ∃ r, o = .fault r

theorem Leads.next {P : State → Prop} {t : State} (h : P t) : Leads P (.next t) := .inl ⟨t, rfl, h⟩

theorem Leads.fault {P : State → Prop} (r : Fault) : Leads P (.fault r) := .inr ⟨r, rfl⟩

theorem Leads.of_next {P : State → Prop} {o : Out} {t : State} (h : Leads P o) (ho : o = .next t) : P t := by
  rcases h with ⟨u, hu, hP⟩ | ⟨r, hr⟩
  · exact Host.Outcome.next.inj (ho.symm.trans hu) ▸ hP
  · cases ho.symm.trans hr

theorem Leads.not_refused {P : State → Prop} {o : Out} {r : Refusal} (h : Leads P o) : o ≠ .refused r := by
  rcases h with ⟨t, ht, -⟩ | ⟨f, hf⟩
  · simp [ht]
  · simp [hf]

theorem Leads.imp {P Q : State → Prop} {o : Out} (h : Leads P o) (hpq : ∀ t, o = .next t → P t → Q t) : Leads Q o := by
  rcases h with ⟨t, ht, hP⟩ | hr
  · exact .inl ⟨t, ht, hpq t ht hP⟩
  · exact .inr hr

/-- The phases that MCHK and TDES can lead to, in DECODE or alone (R26, R138). -/
def Phase.followsHeader : Phase → Bool
  | .mgCheck | .tdWalk | .sdOuter | .halt => true
  | _ => false

theorem Phase.cases_of_followsHeader {p : Phase} (h : p.followsHeader = true) :
    p ∈ [.mgCheck, .tdWalk, .halt] ∨ p = .sdOuter := by
  cases p <;> revert h <;> decide

theorem Phase.not_internal_of_followsHeader {p : Phase} (h : p.followsHeader = true) :
    p ∉ [.tbInit, .tbMerge, .cdWalk] := by
  cases p <;> revert h <;> decide

theorem followsHeader_of_eq {p q : Phase} (h : p = q) (hq : q.followsHeader = true) : p.followsHeader = true := h ▸ hq

theorem mchkGot_followsHeader (y : Read Nat) (s : State) : (mchkGot y s).phase.followsHeader = true := by
  cases y with
  | END => rfl
  | val v =>
    rw [mchkGot]
    split
    · rw [mchkEnd, endUnit]
      split <;> rfl
    · rfl

theorem tdesEnd_followsHeader (s : State) : (tdesEnd s).phase.followsHeader = true := by
  rw [tdesEnd, endUnit]
  split
  · rw [sdec_start rfl]; rfl
  · rfl

theorem tdesMarker_followsHeader {s : State} (hph : s.phase = .tdWalk) (y : Read Bit) :
    (tdesMarker y s).phase.followsHeader = true := by
  have hstays : s.phase.followsHeader = true := followsHeader_of_eq hph rfl
  cases y with
  | END => rfl
  | val b =>
    cases hcap : overCap s.par.nodeCap s.nnodes with
    | true => rw [tdesMarker_overCap hcap]; rfl
    | false =>
      cases b with
      | true => rw [tdesMarker_internal hcap]; exact hstays
      | false => rw [tdesMarker_leaf hcap]; exact hstays

theorem tdesReturn_leads (stk : List StkEntry) {s : State} (hph : s.phase = .tdWalk) (t : Tree) :
    Leads (fun u => u.phase.followsHeader = true) (tdesReturn t stk s) := by
  induction stk generalizing t with
  | nil => exact .next (tdesEnd_followsHeader _)
  | cons e rest ih =>
    cases e with
    | needLeft => exact .next (followsHeader_of_eq hph rfl)
    | needRight l => exact ih _
    | sub _ => exact .fault _
    | sym _ => exact .fault _

theorem tdesSymbol_leads {s : State} (hph : s.phase = .tdWalk) (y : Read Nat) :
    Leads (fun u => u.phase.followsHeader = true) (tdesSymbol y s) := by
  cases y with
  | END => exact .next rfl
  | val v =>
    rw [tdesSymbol]
    split
    · exact .next rfl
    · exact tdesReturn_leads s.stk (s := { s with v := .val v }) hph _

/-- MCHK and TDES go on with a value read, and leave the header only by the start of SDEC or by their end. -/
theorem deliver_header {s : State} (hph : s.phase ∈ [.mgCheck, .tdWalk, .halt]) (res : Result) :
    Leads (fun t => t.phase.followsHeader = true ∧ res ≠ .done) (deliver res s) := by
  simp only [List.mem_cons, List.not_mem_nil, or_false] at hph
  unfold deliver
  rcases hph with hph | hph | hph <;> rw [hph]
  · cases res with
    | nat y => exact .next ⟨mchkGot_followsHeader y s, by simp⟩
    | _ => exact .fault _
  · cases res with
    | bit y => exact .next ⟨tdesMarker_followsHeader hph y, by simp⟩
    | nat y => exact (tdesSymbol_leads hph y).imp fun _ _ ht => ⟨ht, by simp⟩
    | _ => exact .fault _
  · exact .fault _

/-- A transaction that returns a value writes nothing. -/
theorem perform_dst {x : Txn} {s : State} (h : (perform x s).1 ≠ .done) : (perform x s).2.dst = s.dst := by
  cases x with
  | dstWrite y => exact absurd rfl h
  | srcRead => rw [perform, srcRead]; split <;> rfl
  | binReadBit => rw [perform, binReadBit]; split <;> rfl
  | binReadBits n => rw [perform, binReadBits]; split <;> rfl
  | _ => rfl

theorem transact_header {s : State} (hph : s.phase ∈ [.mgCheck, .tdWalk, .halt]) (fails : Bool) :
    Leads (fun t => t.phase.followsHeader = true ∧ t.dst = s.dst) (transact fails s) := by
  cases hp : s.pend with
  | none => rw [transact, hp]; exact .fault _
  | some x =>
    cases fails with
    | true => rw [transact_fail hp]; exact .next ⟨rfl, rfl⟩
    | false =>
      rw [transact_ok hp]
      have hph' : (perform x s).2.answered.phase ∈ [.mgCheck, .tdWalk, .halt] := (perform_streamsOnly x s).phase ▸ hph
      refine (deliver_header hph' _).imp fun t ht h => ⟨h.1, ?_⟩
      exact (congrArg Env.dst ((insideOut_deliver _).env_eq ht)).trans (perform_dst h.2)

/-- The fault recorded is InvalidFormat or CorruptHeader (R152). -/
def State.badHeader (s : State) : Prop :=
  s.st = .fault ∧ (s.faultCause.toNat % 16 = 2 ∨ s.faultCause.toNat % 16 = 3)

/-- SDEC runs, or the command has ended, and not by a bad header. -/
def State.pastHeader (s : State) : Prop :=
  (s.st = .busy ∧ s.phase ∈ [.sdOuter, .sdWalk]) ∨ (s.st ≠ .busy ∧ s.phase = .halt ∧ ¬ s.badHeader)

theorem finish_pastHeader (s : State) : s.finish.pastHeader :=
  .inr ⟨by simp, rfl, fun h => by cases h.1⟩

theorem raise_pastHeader {F : FaultClass} (h : F.code ≠ 2 ∧ F.code ≠ 3) (sub info : Nat) (s : State) :
    (raise F sub info s).pastHeader := by
  refine .inr ⟨by simp, rfl, fun hbad => ?_⟩
  have hcause := hbad.2
  rw [raise_cause] at hcause
  exact hcause.elim h.1 h.2

theorem sdecWalk_pastHeader {s : State} (hb : s.st = .busy) (hph : s.phase = .sdWalk) : (sdecWalk s).pastHeader := by
  have hwaits (x : Txn) : (s.issue x).pastHeader := .inl ⟨hb, by simp [hph]⟩
  rw [sdecWalk]
  split
  · exact hwaits _
  · split
    · exact finish_pastHeader _
    · exact hwaits _

/-- The answer to the read of a bit (R129, R131). -/
theorem sdecGot_leads {s : State} (hb : s.st = .busy) (hph : s.phase = .sdWalk) (y : Read Bit) :
    Leads State.pastHeader (sdecGot y s) := by
  cases y with
  | END => exact .next (raise_pastHeader (by decide) _ _ _)
  | val b =>
    unfold sdecGot
    cases hcur : s.cur with
    | internal l r w =>
      exact .next (sdecWalk_pastHeader (s := { s with b := .val b, cur := if b then r else l }) hb hph)
    | leaf sym w => exact .fault _

/-- What SDEC goes on with (R129 to R132). -/
theorem deliver_payload {s : State} (hb : s.st = .busy) (hph : s.phase ∈ [.sdOuter, .sdWalk]) (res : Result) :
    Leads State.pastHeader (deliver res s) := by
  simp only [List.mem_cons, List.not_mem_nil, or_false] at hph
  unfold deliver
  rcases hph with hph | hph <;> rw [hph]
  · cases res with
    | flag more =>
      cases more with
      | true => exact .next (sdecWalk_pastHeader (s := { s with phase := .sdWalk, cur := s.tree }) hb rfl)
      | false => exact .next (finish_pastHeader _)
    | _ => exact .fault _
  · cases res with
    | done => exact .next (.inl ⟨hb, by simp [sdecOuter]⟩)
    | bit y => exact sdecGot_leads hb hph y
    | _ => exact .fault _

theorem transact_payload {s : State} (hb : s.st = .busy) (hph : s.phase ∈ [.sdOuter, .sdWalk]) (fails : Bool) :
    Leads State.pastHeader (transact fails s) := by
  cases hp : s.pend with
  | none => rw [transact, hp]; exact .fault _
  | some x =>
    have hsame := perform_streamsOnly x s
    cases fails with
    | true => rw [transact_fail hp]; exact .next (raise_pastHeader (by decide) _ _ _)
    | false =>
      rw [transact_ok hp]
      exact deliver_payload (s := (perform x s).2.answered) (hsame.st.trans hb) (hsame.phase ▸ hph) _

/-- Where the decode side can stand from a phase of the header on, with DST holding `ys` there: nothing has been written
yet, or the header is past. -/
inductive DecodeStands (ys : List Byte) (u : State) : Prop
  | unwritten (phase : u.phase.followsHeader = true) (dst : u.dst = ys)
  | past (past : u.pastHeader)

namespace DecodeStands

variable {ys : List Byte} {u : State}

theorem withAnswers (h : DecodeStands ys u) (as : List Answer) : DecodeStands ys { u with answers := as } := by
  cases h with
  | unwritten hph hdst => exact .unwritten hph hdst
  | past hpast => exact .past hpast

/-- The decode side makes no internal update (R26). -/
theorem internal_eq (h : DecodeStands ys u) : internal u = .next u := by
  refine internal_of_not_due (not_due_of_phase ?_)
  cases h with
  | unwritten hph _ => exact Phase.not_internal_of_followsHeader hph
  | past hpast =>
    obtain ⟨-, hph⟩ | ⟨-, hph, -⟩ := hpast
    · simp only [List.mem_cons, List.not_mem_nil, or_false] at hph
      rcases hph with hph | hph <;> rw [hph] <;> decide
    · rw [hph]; decide

theorem transact (h : DecodeStands ys u) (hb : u.st = .busy) (fails : Bool) :
    Leads (DecodeStands ys) (transact fails u) := by
  cases h with
  | unwritten hph hdst =>
    rcases Phase.cases_of_followsHeader hph with hph | hph
    · exact (transact_header hph fails).imp fun _ _ ht => .unwritten ht.1 (ht.2.trans hdst)
    · exact (transact_payload hb (by simp [hph]) fails).imp fun _ _ ht => .past ht
  | past hpast =>
    obtain ⟨-, hph⟩ | ⟨hnb, -⟩ := hpast
    · exact (transact_payload hb hph fails).imp fun _ _ ht => .past ht
    · exact absurd hb hnb

theorem run (h : DecodeStands ys u) {as : List Answer} {t : State} (hrun : run as u = .next t) :
    DecodeStands ys t :=
  run_preserves (fun _ _ hv hi => Host.Outcome.next.inj (hv.internal_eq.symm.trans hi) ▸ hv)
    (fun _ fails _ hv hb ht => (hv.transact hb fails).of_next ht) (fun _ as hv => hv.withAnswers as) as u t h hrun

/-- In the header, and where a bad header has ended the command, nothing has been written (R128, R138). -/
theorem dst_eq (h : DecodeStands ys u) (hhead : u.phase = .mgCheck ∨ u.phase = .tdWalk ∨ u.badHeader) : u.dst = ys := by
  cases h with
  | unwritten _ hdst => exact hdst
  | past hpast =>
    rcases hpast with ⟨hb, hph⟩ | ⟨-, hph, hnot⟩
    · rcases hhead with e | e | ⟨hf, -⟩
      · simp [e] at hph
      · simp [e] at hph
      · simp [hb] at hf
    · rcases hhead with e | e | hbad
      · simp [e] at hph
      · simp [e] at hph
      · exact absurd hbad hnot

end DecodeStands

theorem decodeStands_of_header {s : State} (hph : s.phase = .mgCheck ∨ s.phase = .tdWalk) : DecodeStands s.dst s := by
  refine .unwritten ?_ rfl
  rcases hph with hph | hph <;> exact followsHeader_of_eq hph rfl

/-- A step of the block from MCHK or TDES on (R9). -/
theorem blockStep_decodeStands {s t : State} (hph : s.phase = .mgCheck ∨ s.phase = .tdWalk)
    (h : blockStep s = .next t) : DecodeStands s.dst t := by
  have hstands := decodeStands_of_header hph
  rcases blockStep_cases h with rfl | ⟨-, hi⟩ | ⟨as, -, rfl⟩ | ⟨fails, as, -, ht⟩
  · exact hstands
  · exact Host.Outcome.next.inj (hstands.internal_eq.symm.trans hi) ▸ hstands
  · exact hstands.withAnswers as
  · have hmem : s.phase ∈ [.mgCheck, .tdWalk, .halt] := by rcases hph with hph | hph <;> simp [hph]
    obtain ⟨hphase, hdst⟩ := (transact_header (s := { s with answers := as }) hmem fails).of_next ht
    exact .unwritten hphase hdst

/-- So it is with every step in which the host does nothing. -/
theorem step_decodeStands {s t : State} (hh : s.host = [] ∨ ∃ rest, s.host = .pass :: rest ∨ s.host = .tick :: rest)
    (hph : s.phase = .mgCheck ∨ s.phase = .tdWalk) (h : step s = .next t) : DecodeStands s.dst t := by
  obtain hh | ⟨rest, hh | hh⟩ := hh
  · exact blockStep_decodeStands hph ((step_block hh).symm.trans h)
  · rw [step_cons hh, hostAct, resume] at h
    have hstands := decodeStands_of_header (s := { s with host := rest }) hph
    split at h
    · exact hstands.run h
    · exact Host.Outcome.next.inj h ▸ hstands
  · rw [step_cons hh] at h
    exact blockStep_decodeStands (s := { s with host := rest }) hph h

/-- DECODE starts in the header (R138). -/
theorem decodeStands_start (s : State) :
    DecodeStands s.dst (mchkStart { s with cmd := opDecode, st := .busy }) := by
  rw [mchk_start]
  exact .unwritten rfl rfl

/-- Settles O38: every run and every step leads to where `DecodeStands` says. -/
theorem decodeWritesNothingBeforeTheHeaderIsRead : Obligations.DecodeWritesNothingBeforeTheHeaderIsRead := by
  refine ⟨fun s t ha h hhead => ?_, fun s t hh hph h hhead => (step_decodeStands hh hph h).dst_eq hhead⟩
  have hrun : run s.answers (mchkStart { s with cmd := opDecode, st := .busy }) = .next t :=
    (command_run ha opDecode mchkStart).symm.trans h
  exact ((decodeStands_start s).run hrun).dst_eq hhead

/-! ### The parts of DECODE (R138) -/

theorem phase_of_mchk {p : Phase} (h : (0xA : BitVec 4) ∈ p.opcodes) : p = .mgCheck := by
  cases p <;> revert h <;> decide

theorem phase_of_tdes {p : Phase} (h : (0x7 : BitVec 4) ∈ p.opcodes) : p = .tdWalk := by
  cases p <;> revert h <;> decide

theorem phase_of_sdec {p : Phase} (h : (0x9 : BitVec 4) ∈ p.opcodes) : p = .sdOuter ∨ p = .sdWalk := by
  cases p <;> revert h <;> decide

theorem mchkEnd_within {s : State} (hb : s.st = .busy) (hc : s.cmd = 0xA) :
    mchkEnd (s.withCmd opDecode) = (mchkEnd s).within opDecode (startNext opDecode tdesStart) :=
  endUnit_within hb (by rw [hc]; decide) (beginUnit_standing fun _ _ _ => rfl)

theorem tdesEnd_within {s : State} (hb : s.st = .busy) (hc : s.cmd = 0x7) :
    tdesEnd (s.withCmd opDecode) = (tdesEnd s).within opDecode (startNext opDecode sdecStart) :=
  endUnit_within hb (by rw [hc]; decide) (beginUnit_standing fun _ _ _ => rfl)

/-- The answer to the read of the magic (R126, R127). -/
theorem mchkGot_within {s : State} (hb : s.st = .busy) (hc : s.cmd = 0xA) (y : Read Nat) :
    mchkGot y (s.withCmd opDecode) = (mchkGot y s).within opDecode (startNext opDecode tdesStart) := by
  cases y with
  | END => rfl
  | val v =>
    have hpar : (s.withCmd opDecode).par = s.par := rfl
    rw [mchkGot, mchkGot, hpar]
    split
    · exact mchkEnd_within (s := { s with v := .val v }) hb hc
    · rfl

/-- MCHK is the part of DECODE that TDES follows (R138). -/
theorem mchk_runsAsPart : RunsAsPart opDecode 0xA (startNext opDecode tdesStart) where
  answers t := inside_tdesStart.answers { t with cmd := opDecode, st := .busy }
  internal s hb _ hop := internal_within hb (not_due_of_phase (by rw [phase_of_mchk hop]; decide)) _ _
  deliver res s hb hc hop := by
    have hph : s.phase = .mgCheck := phase_of_mchk hop
    have hph' : (s.withCmd opDecode).phase = .mgCheck := hph
    cases res with
    | nat y => simp only [deliver, hph, hph', mchkGot_within hb hc, andThen_next]
    | _ => simp only [deliver, hph, hph', andThen_fault]

/-- The answer to the read of a marker: TDES is not at its end (R101). -/
theorem tdesMarker_within {s : State} (hb : s.st = .busy) (y : Read Bit) (after : State → State) :
    tdesMarker y (s.withCmd opDecode) = (tdesMarker y s).within opDecode after := by
  cases y with
  | END => rfl
  | val b =>
    cases hcap : overCap s.par.nodeCap s.nnodes with
    | true =>
      rw [tdesMarker_overCap hcap, tdesMarker_overCap (s := s.withCmd opDecode) hcap]; rfl
    | false =>
      cases b with
      | true =>
        rw [tdesMarker_internal hcap, tdesMarker_internal (s := s.withCmd opDecode) hcap]
        exact (State.within_busy (s := { s with b := .val true, nnodes := _, stk := _, pend := _ }) hb _ _).symm
      | false =>
        rw [tdesMarker_leaf hcap, tdesMarker_leaf (s := s.withCmd opDecode) hcap]
        exact (State.within_busy (s := s.awaitsSymbol) hb _ _).symm

/-- A complete subtree is returned to the open nodes (R101). -/
theorem tdesReturn_within (stk : List StkEntry) {s : State} (hb : s.st = .busy) (hc : s.cmd = 0x7) (t : Tree) :
    tdesReturn t stk (s.withCmd opDecode) =
      andThen (tdesReturn t stk s) fun u => .next (u.within opDecode (startNext opDecode sdecStart)) := by
  induction stk generalizing t with
  | nil => exact congrArg Host.Outcome.next (tdesEnd_within (s := { s with tree := t, stk := [] }) hb hc)
  | cons e rest ih =>
    cases e with
    | needLeft =>
      exact congrArg Host.Outcome.next (State.within_busy
        (s := State.issue { s with stk := .needRight t :: rest } .binReadBit) hb _ _).symm
    | needRight l => exact ih _
    | sub _ => rfl
    | sym _ => rfl

/-- The answer to the read of a symbol value (R101 to R103). -/
theorem tdesSymbol_within {s : State} (hb : s.st = .busy) (hc : s.cmd = 0x7) (y : Read Nat) :
    tdesSymbol y (s.withCmd opDecode) =
      andThen (tdesSymbol y s) fun u => .next (u.within opDecode (startNext opDecode sdecStart)) := by
  cases y with
  | END => rfl
  | val v =>
    have hstk : (s.withCmd opDecode).stk = s.stk := rfl
    rw [tdesSymbol, tdesSymbol, hstk]
    split
    · rfl
    · exact tdesReturn_within s.stk (s := { s with v := .val v }) hb hc _

/-- TDES is the part of DECODE that SDEC follows (R138). -/
theorem tdes_runsAsPart : RunsAsPart opDecode 0x7 (startNext opDecode sdecStart) where
  answers t := inside_sdecStart.answers { t with cmd := opDecode, st := .busy }
  internal s hb _ hop := internal_within hb (not_due_of_phase (by rw [phase_of_tdes hop]; decide)) _ _
  deliver res s hb hc hop := by
    have hph : s.phase = .tdWalk := phase_of_tdes hop
    have hph' : (s.withCmd opDecode).phase = .tdWalk := hph
    cases res with
    | bit y => simp only [deliver, hph, hph', tdesMarker_within hb y (startNext opDecode sdecStart), andThen_next]
    | nat y => simp only [deliver, hph, hph', tdesSymbol_within hb hc]
    | _ => simp only [deliver, hph, hph', andThen_fault]

theorem sdecWalk_withCmd (s : State) (op : BitVec 4) : sdecWalk (s.withCmd op) = (sdecWalk s).withCmd op := by
  have hcur : (s.withCmd op).cur = s.cur := rfl
  rw [sdecWalk, hcur, sdecWalk]
  split
  · rfl
  · split <;> rfl

theorem sdecMore_withCmd (more : Bool) (s : State) (op : BitVec 4) :
    sdecMore more (s.withCmd op) = (sdecMore more s).withCmd op := by
  cases more with
  | true => exact sdecWalk_withCmd { s with phase := .sdWalk, cur := s.tree } op
  | false => rfl

theorem sdecGot_withCmd (y : Read Bit) (s : State) (op : BitVec 4) :
    sdecGot y (s.withCmd op) = andThen (sdecGot y s) fun t => .next (t.withCmd op) := by
  cases y with
  | END => rfl
  | val b =>
    have hcur : (s.withCmd op).cur = s.cur := rfl
    rw [sdecGot, hcur, sdecGot]
    split
    · exact congrArg Host.Outcome.next (sdecWalk_withCmd { s with b := .val b, cur := _ } op)
    · rfl

theorem sdecOuter_withCmd (s : State) (op : BitVec 4) : sdecOuter (s.withCmd op) = (sdecOuter s).withCmd op := rfl

/-- SDEC is the last part of DECODE, so nothing follows its end (R138). -/
theorem sdec_runsAsPart : RunsAsPart opDecode 0x9 (State.withCmd · opDecode) where
  answers _ _ := rfl
  internal s hb _ hop :=
    internal_within hb (not_due_of_phase (by rcases phase_of_sdec hop with h | h <;> rw [h] <;> decide)) _ _
  deliver res s _ _ hop := by
    have hwithin (t : State) : t.within opDecode (State.withCmd · opDecode) = t.withCmd opDecode := ite_self _
    have hph' : (s.withCmd opDecode).phase = s.phase := rfl
    simp only [hwithin]
    rcases phase_of_sdec hop with hph | hph <;> cases res <;>
      simp only [deliver, hph', hph, andThen_fault, andThen_next, sdecMore_withCmd, sdecGot_withCmd, sdecOuter_withCmd]

/-- DECODE is composed of MCHK, TDES and SDEC (R138, R139). -/
theorem decode_composes : Composes opDecode (startNext opDecode mchkStart) [.mchk, .tdes, .sdec] := by
  have hsdec : Composes opDecode (startNext opDecode sdecStart) [.sdec] :=
    (composes_nil opDecode).cons sdec_runsAsPart startsCommand_sdec (beginUnit_withCmd fun _ => rfl) fun _ => rfl
  have htdes := hsdec.cons (i := .tdes) tdes_runsAsPart startsCommand_tdes (beginUnit_withCmd fun _ => rfl) fun _ => rfl
  exact htdes.cons mchk_runsAsPart (startsCommand_mchk (by decide)) (beginUnit_withCmd fun _ => rfl) fun _ => rfl

/-- No part of DECODE looks at W, so the invariant leaves it no stop (R41, U3). -/
theorem exec_decode_next {s : State} (hs : s.Inv) (ha : s.accepts = true) : ∃ t, exec .decode s = .next t := by
  have hstart : (mchkStart { s with cmd := opDecode, st := .busy }).Inv :=
    (startsCommand_mchk (op := opDecode) (by decide)).inv _ (hs.pre_of_accepts ha opDecode) rfl
  have hkeeps : Keeps (fun u => u.Inv ∧ DecodeStands s.dst u) none
      (run s.answers (mchkStart { s with cmd := opDecode, st := .busy })) := by
    refine run_keeps (fun u ⟨hinv, hu⟩ => ?_) (fun u fails ⟨hinv, hu⟩ hb hr => ?_)
      (fun u as ⟨hinv, hu⟩ => ⟨hinv.congr as u.host, hu.withAnswers as⟩) s.answers _ ⟨hstart, decodeStands_start s⟩
    · rw [hu.internal_eq]
      exact .next ⟨hinv, hu⟩
    · have hleads := hu.transact hb fails
      rcases inv_transact fails hinv hb hr with ⟨t, ht, hinv', -⟩ | ⟨hrefused, -⟩
      · exact .inl ⟨t, ht, hinv', hleads.of_next ht⟩
      · exact absurd hrefused hleads.not_refused
  rcases hkeeps with ⟨t, ht, -⟩ | ⟨-, hw⟩
  · exact ⟨t, (command_run ha opDecode mchkStart).trans ht⟩
  · exact absurd rfl hw

/-- Settles O49: DECODE is composed of its three parts, and comes to a next state. -/
theorem decodeEqualsItsProgram : Obligations.DecodeEqualsItsProgram := by
  intro s hs ha hh
  obtain ⟨t, ht⟩ := exec_decode_next hs ha
  have hprogram : exec .decode s =
      andThen (program [.mchk, .tdes, .sdec] s) fun u => .next (u.withCmd opDecode) :=
    (command_run ha opDecode mchkStart).trans (decode_composes s hs ha hh)
  obtain ⟨u, hu, hut⟩ := andThen_eq_next.mp (hprogram.symm.trans ht)
  obtain rfl := Host.Outcome.next.inj hut
  exact ⟨_, u, ht, hu, rfl⟩

end Sys2Proof.Machine

/-! The proofs of the statements of 46_testable_properties.md: a magic that is wrong is refused, the empty file is its
header, and DECODE gives back what ENCODE was given. The last two rest on `decode_file`, which says what DECODE makes of
any file that ends with the EOF-symbol's Code, that of the EOF-symbol alone included. -/

namespace Sys2Proof.Machine

/-! ### A wrong magic (R126, R146) -/

/-- A 32-bit value that is not MAGIC raises InvalidFormat (R126). -/
theorem wrongMagic_steps {s : State} {v : Nat} {bs : List Bit} (hb : s.st = .busy) (hv : v < 2 ^ 32)
    (hne : v ≠ s.par.magic.toNat) (hd : s.bin.drop s.binPos = toBits 32 v ++ bs) :
    Steps 1 (mchkStart s) (raise .invalidFormat 0 v { s with binPos := s.binPos + 32 }) := by
  rw [mchk_start]
  exact Steps.readBits hb rfl hv (by decide) hd (congrArg Host.Outcome.next (if_neg hne))

/-- Settles O36: the first transaction of both commands is the read that raises. -/
theorem wrongMagicRaisesInvalidFormat : Obligations.WrongMagicRaisesInvalidFormat := by
  intro s i v bs rest ha hi hv hne hd hr
  obtain ⟨op, hexec⟩ := exec_gate hi
  have hsteps := wrongMagic_steps (s := { s with cmd := op, st := .busy }) rfl hv hne hd
  obtain ⟨htook, hstreams⟩ := raised (F := .invalidFormat) (sub := 0) (rest := rest)
    (s := { s with cmd := op, st := .busy, binPos := s.binPos + 32 }) (s' := { s with binPos := s.binPos + 32 })
    (by decide) hv ⟨rfl, rfl, rfl, rfl, rfl, rfl⟩
  exact ⟨_, ((hexec s).trans (command_oks ha hr op mchkStart)).trans (hsteps.end (by simp) rest), htook, hstreams, rfl⟩

/-! ### DECODE of a file, with or without a payload bit (R130, R138) -/

/-- Only the EOF-symbol leaf gives a payload without a bit: no byte stands before the EOF-symbol, and its Code is empty
(R79, R130). -/
theorem eq_nil_of_payload_nil {T : Tree} {cs : List (Byte × Code)} {code : Code} (hcs : onTree T cs)
    (hcode : (eofSym, code) ∈ T.codes) (h : payloadBits cs ++ code = []) : cs = [] ∧ code = [] := by
  obtain ⟨hbits, hnil⟩ := List.append_eq_nil_iff.mp h
  refine ⟨?_, hnil⟩
  cases cs with
  | nil => rfl
  | cons e cs =>
    have hfst : e.2 = [] := (List.append_eq_nil_iff.mp hbits).1
    exact absurd hfst (Tree.codes_ne_nil (hcs e (List.mem_cons_self ..)) hcode (symbolOfByte_ne_eof e.1))

/-- DECODE of a header with no bit after it ends where SDEC asks for more bits (R132, R138). -/
theorem decode_headerAlone {s : State} {T : Tree} {rest : List Answer} (ha : s.accepts = true)
    (hcap : fitsCap s.par.nodeCap T.nodeCount) (hd : s.bin.drop s.binPos = toBits 32 s.par.magic.toNat ++ T.ser)
    (hr : s.answers = oks (1 + T.txns + 1) rest) :
    ∃ v, exec .decode s = .next v ∧ v.st = .done ∧ v.answers = rest ∧ v.dst = s.dst ∧
      v.binPos = s.binPos + 32 + T.ser.length ∧ v.eofSeen = false := by
  obtain ⟨b, v, hheader, hbits⟩ := tookHeader_steps (s := { s with cmd := opDecode, st := .busy }) (bs := []) rfl rfl
    (by simpa using hd) hcap
  have hend := sdecOuter_end rfl rfl (List.drop_eq_nil_iff.mp hbits)
  exact ⟨_, (command_oks ha hr opDecode mchkStart).trans ((hheader.trans hend).end (by simp) rest),
    rfl, rfl, rfl, rfl, rfl⟩

/-- DECODE of a file whose payload ends with the EOF-symbol's Code, whatever bits follow: the bytes are written, the
bits after the payload are not read, and eof_seen tells whether a bit followed the header (R129, R130, R138). -/
theorem decode_file {s : State} {T : Tree} {cs : List (Byte × Code)} {code : Code} {bs : List Bit} {rest : List Answer}
    (ha : s.accepts = true) (hcap : fitsCap s.par.nodeCap T.nodeCount) (hcs : onTree T cs)
    (hcode : (eofSym, code) ∈ T.codes)
    (hd : s.bin.drop s.binPos = toBits 32 s.par.magic.toNat ++ T.ser ++ payloadBits cs ++ code ++ bs)
    (hr : s.answers = oks (1 + T.txns + (payloadTxns cs + 1 + code.length)) rest) :
    ∃ v, exec .decode s = .next v ∧ v.st = .done ∧ v.answers = rest ∧ v.dst = s.dst ++ payloadBytes cs ∧
      v.binPos = s.binPos + 32 + T.ser.length + (payloadBits cs ++ code).length ∧
      v.eofSeen = !(payloadBits cs ++ code ++ bs).isEmpty := by
  by_cases hne : payloadBits cs ++ code ++ bs = []
  · obtain ⟨hpayload, rfl⟩ := List.append_eq_nil_iff.mp hne
    obtain ⟨rfl, rfl⟩ := eq_nil_of_payload_nil hcs hcode hpayload
    obtain ⟨v, hexec, hst, hans, hdst, hpos, heof⟩ := decode_headerAlone ha hcap (by simpa [payloadBits] using hd) hr
    exact ⟨v, hexec, hst, hans, by simpa [payloadBytes] using hdst, hpos, heof⟩
  · obtain ⟨v, b, cur, hexec⟩ := decodeReadsTheFile s T cs code bs rest ha hcap hcs hcode hd hne hr
    exact ⟨_, hexec, rfl, rfl, rfl, rfl, by rw [List.isEmpty_eq_false_iff.mpr hne]; rfl⟩

/-! ### The empty file (R92, R118, R145) -/

/-- A tree with one leaf is that leaf (R19). -/
theorem Tree.eq_leaf_of_leaves {t : Tree} {l : Symbol × Nat} (h : t.leaves = [l]) : t = .leaf l.1 l.2 := by
  cases t with
  | leaf sym w => rw [← List.singleton_inj.mp h]
  | internal left right w =>
    have hcount := congrArg List.length h
    rw [length_leaves, leafCount, left.leafCount_eq, right.leafCount_eq, List.length_singleton] at hcount
    omega

/-- The leaf of the EOF-symbol alone carries all leaves where no byte is counted (R92). -/
theorem eq_eofLeaf_of_zero {ft : Vector Nat 256} {T : Tree} (h : T.leaves.Perm (initialLeaves ft))
    (hzero : ∀ y, ftAt ft y = 0) : T = .leaf eofSym 1 := by
  rw [initialLeaves_of_zero hzero] at h
  exact Tree.eq_leaf_of_leaves (List.perm_singleton.mp h)

/-- The EOF-symbol leaf gives no byte and an empty Code to the payload (R118). -/
theorem payload_eofLeaf (w : Nat) : payload (Tree.leaf eofSym w).table [] = [] := by
  rw [payload, List.flatMap_nil, List.nil_append, codeBits, ctAt_table, codeOf_single, Option.getD_some]

/-- The EOF-symbol leaf is the ten bits 0100000000 (R73, R145). -/
theorem ser_eofLeaf (w : Nat) :
    (Tree.leaf eofSym w).ser = [false, true, false, false, false, false, false, false, false, false] := by
  rw [Tree.ser]; decide

/-- Settles O51: the tree is the leaf of the EOF-symbol, whose Code is empty. -/
theorem emptyInputGivesHeaderOnly : Obligations.EmptyInputGivesHeaderOnly := by
  refine ⟨fun s rest ha hsrc hpos hmagic hw hr => ?_, fun u P rest ha hpos hmagic hcap hbin hr => ?_⟩
  · obtain ⟨e, a, c, path, -, hleaves, -, hexec⟩ := exec_encode ha hpos (by rwa [hsrc])
    have htree : e.t = .leaf eofSym 1 := eq_eofLeaf_of_zero hleaves fun y => by rw [ftAt_byteCounts, hsrc]; rfl
    have hpayload : payload e.t.table s.src = [] := by rw [htree, hsrc, payload_eofLeaf]
    have htxns : s.src.length + 1 + sencTxns e.t e.t.table s.src = 6 := by
      rw [sencTxns, hpayload, htree, hsrc]; rfl
    refine ⟨_, hexec rest (by rw [htxns, hr]), rfl, rfl, ?_⟩
    calc s.bout ++ toBits 32 s.par.magic.toNat ++ e.t.ser ++ payload e.t.table s.src
        = s.bout ++ toBits 32 s.par.magic.toNat ++ (Tree.leaf eofSym 1).ser := by
          rw [hpayload, List.append_nil, htree]
      _ = _ := by rw [hmagic, ser_eofLeaf]; rfl
  · have hd : u.bin.drop u.binPos
        = toBits 32 u.par.magic.toNat ++ (Tree.leaf eofSym 1).ser ++ payloadBits [] ++ [] ++ P := by
      rw [hpos, hbin, hmagic, ser_eofLeaf]; simp [payloadBits]
    obtain ⟨v, hexec, hst, hans, hdst, hend, heof⟩ := decode_file (T := .leaf eofSym 1) (cs := []) (code := []) ha hcap
      (by simp [onTree]) (List.mem_singleton_self _) hd hr
    rw [hpos, ser_eofLeaf] at hend
    exact ⟨v, hexec, hst, hans, hdst.trans (List.append_nil _), hend, heof⟩

/-! ### What ENCODE writes, DECODE reads back (R80, R134, R141) -/

/-- The bytes with the Codes that stand for them in a payload (R80). -/
def codedBytes (ct : Vector (Option Code) 257) (ys : List Byte) : List (Byte × Code) :=
  ys.map fun y => (y, codeBits ct (symbolOfByte y))

theorem payloadBytes_codedBytes (ct : Vector (Option Code) 257) (ys : List Byte) :
    payloadBytes (codedBytes ct ys) = ys := by
  simp [payloadBytes, codedBytes, Function.comp_def]

theorem payload_eq_payloadBits (ct : Vector (Option Code) 257) (ys : List Byte) :
    payload ct ys = payloadBits (codedBytes ct ys) ++ codeBits ct eofSym := by
  simp [payload, payloadBits, codedBytes, List.flatMap_map]

/-- The Code of a symbol that has one is a path of the tree (R109). -/
theorem mem_codes_codeBits {T : Tree} {sym : Symbol} (h : ctAt T.table sym ≠ none) :
    (sym, codeBits T.table sym) ∈ T.codes := by
  obtain ⟨code, hcode⟩ := Option.ne_none_iff_exists'.mp h
  rw [codeBits, hcode]
  exact Tree.codeOf_mem ((ctAt_table T sym).symm.trans hcode)

theorem onTree_codedBytes {T : Tree} {ys : List Byte} (h : covers T.table ys) :
    onTree T (codedBytes T.table ys) := by
  simp only [onTree, codedBytes, List.forall_mem_map]
  exact fun y hy => mem_codes_codeBits (h.1 y hy)

/-- A payload is made of paths of the tree, one for each byte and the EOF-symbol's last (R79, R80). The paths have
names of their own, so that comparing two scripts does not unfold the table of the tree. -/
theorem payload_paths {T : Tree} {ys : List Byte} (h : covers T.table ys) :
    ∃ cs code, onTree T cs ∧ (eofSym, code) ∈ T.codes ∧ payloadBytes cs = ys ∧
      payload T.table ys = payloadBits cs ++ code :=
  ⟨_, _, onTree_codedBytes h, mem_codes_codeBits h.2, payloadBytes_codedBytes _ _, payload_eq_payloadBits _ _⟩

/-- A payload has no bit exactly where there is no byte: the tree is the EOF-symbol leaf then, and only then (R80,
R118). -/
theorem isEmpty_payload_append {ft : Vector Nat 256} {T : Tree} {ys : List Byte} (hft : ∀ y, ftAt ft y = ys.count y)
    (h : T.leaves.Perm (initialLeaves ft)) (hcov : covers T.table ys) (bs : List Bit) :
    (payload T.table ys ++ bs).isEmpty = (ys.isEmpty && bs.isEmpty) := by
  cases ys with
  | nil => rw [eq_eofLeaf_of_zero h hft, payload_eofLeaf]; rfl
  | cons y ys =>
    obtain ⟨cs, code, hcs, hcode, hbytes, hpayload⟩ := payload_paths hcov
    refine List.isEmpty_eq_false_iff.mpr fun hnil => ?_
    obtain ⟨rfl, -⟩ := eq_nil_of_payload_nil hcs hcode (hpayload ▸ (List.append_eq_nil_iff.mp hnil).1)
    exact List.cons_ne_nil _ _ hbytes.symm

/-- A tree over the leaves of TBLD has at most 513 nodes: 257 leaves and 256 internal nodes (R19, R20). -/
theorem nodeCount_le_513 {ft : Vector Nat 256} {T : Tree} (h : T.leaves.Perm (initialLeaves ft)) :
    T.nodeCount ≤ 513 := by
  have hpresent : presentCount ft ≤ 256 := List.countP_le_length.trans_eq (Vector.length_toList ..)
  have hleaves : T.leafCount = presentCount ft + 1 := by
    rw [← T.length_leaves, h.length_eq, initialLeaves_length]
  have hinner := T.leafCount_eq
  rw [Tree.nodeCount]
  omega

/-- DECODE takes the file that a tree over the counts of these bytes makes, and writes the bytes (R129, R138, R141). -/
theorem decode_encodedFile {u : State} {ft : Vector Nat 256} {T : Tree} {ys : List Byte} {P : List Bit}
    (hau : u.accepts = true) (hft : ∀ y, ftAt ft y = ys.count y) (hleaves : T.leaves.Perm (initialLeaves ft))
    (hcov : covers T.table ys) (hcap : fitsCap u.par.nodeCap 513)
    (hd : u.bin.drop u.binPos = toBits 32 u.par.magic.toNat ++ T.ser ++ payload T.table ys ++ P) :
    ∃ m, ∀ rest, ∃ v, exec .decode { u with answers := oks m rest } = .next v ∧ v.st = .done ∧ v.answers = rest ∧
      v.dst = u.dst ++ ys ∧ v.eofSeen = !(ys.isEmpty && P.isEmpty) := by
  rw [← isEmpty_payload_append hft hleaves hcov]
  obtain ⟨cs, code, hcs, hcode, rfl, hpayload⟩ := payload_paths hcov
  rw [hpayload]
  rw [hpayload, ← List.append_assoc] at hd
  refine ⟨1 + T.txns + (payloadTxns cs + 1 + code.length), fun rest => ?_⟩
  obtain ⟨v, hexec, hst, hans, hdst, -, heof⟩ := decode_file (s := { u with answers := oks _ rest }) hau
    (fun cap hc => (nodeCount_le_513 hleaves).trans (hcap cap hc)) hcs hcode hd rfl
  exact ⟨v, hexec, hst, hans, hdst, heof⟩

/-- Settles O50: the file of ENCODE is the header and the payload of a tree that covers SRC, and DECODE takes it. -/
theorem encodeThenDecodeGivesTheBytesBack : Obligations.EncodeThenDecodeGivesTheBytesBack := by
  intro s ha hpos hbout hw
  obtain ⟨ft, T, hft, hleaves, -, hcov, -, -, hencode⟩ := encodeWritesTheFile s ha hpos hw
  refine ⟨s.src.length + 1 + sencTxns T T.table s.src, fun rest => ?_⟩
  obtain ⟨q, a, c, path, hexec⟩ := hencode rest
  refine ⟨_, hexec, rfl, rfl, fun u P hau hbin hpos' hdst hmagic hcap => ?_⟩
  have hfile : u.bin = s.bout ++ toBits 32 s.par.magic.toNat ++ T.ser ++ payload T.table s.src ++ P := hbin
  have hd : u.bin.drop u.binPos = toBits 32 u.par.magic.toNat ++ T.ser ++ payload T.table s.src ++ P := by
    rw [hpos', List.drop_zero, hfile, hbout, hmagic, List.nil_append]
  obtain ⟨m, hdecode⟩ := decode_encodedFile hau hft hleaves hcov hcap hd
  refine ⟨m, fun rest' => ?_⟩
  obtain ⟨v, hexec', hst, hans, hwritten, heof⟩ := hdecode rest'
  exact ⟨v, hexec', hst, hans, by rw [hwritten, hdst, List.nil_append], heof⟩

end Sys2Proof.Machine

/-! The proofs of the statements of 60_exceptions.md and 70_reset_and_hazards.md: what a fault records, that nothing but a
reset leads out of FAULT, and that every command ends if it is answered. The last rests on the units' own statements, and
on `EndsOnResults`, by which a composite command ends because its program does. -/

namespace Sys2Proof.Machine

/-! ### Taking a fault (R152, R162) -/

/-- Settles O14. -/
theorem raiseRecordsTheFaultAndClearsTheFlags : Obligations.RaiseRecordsTheFaultAndClearsTheFlags := by
  intro F sub info s hs hi
  have htook := tookFault_raise F sub info s hs hi
  refine ⟨?_, ⟨rfl, rfl, rfl, rfl, rfl, rfl⟩, rfl⟩
  cases F <;> exact htook

/-! ### A command that is not taken (R32, R163, R172) -/

theorem not_accepts_of_busy_or_fault {s : State} (h : s.st = .busy ∨ s.st = .fault) : ¬ s.accepts = true := by
  rcases h with h | h <;> simp [accepts_iff, h]

theorem exec_of_not_accepts {s : State} (ha : ¬ s.accepts = true) {i : Instr} (hi : i.space = .command) :
    exec i s = .next s := by
  obtain ⟨op, start, -, he⟩ := exec_eq_command hi
  exact (he s).trans (if_neg ha)

theorem writeReg_of_not_accepts {s : State} (ha : ¬ s.accepts = true) (n : Fin 4) (x : Word) :
    writeReg n x s = .next s := by
  by_cases hn : n = 0
  · subst hn; exact exec_of_not_accepts ha (decodeCommand_space x)
  · exact writeReg_of_ne_zero hn x s

theorem busWrite_of_not_accepts {s : State} (ha : ¬ s.accepts = true) (addr : Nat) (x : Word) :
    busWrite addr x s = .next s := by
  unfold busWrite
  split
  · exact writeReg_of_not_accepts ha _ x
  · rfl

/-- Settles O11: the command is not taken. -/
theorem commandIsIgnoredWhileBusyOrFault : Obligations.CommandIsIgnoredWhileBusyOrFault :=
  ⟨fun s x rest hst hh => (step_cons hh).trans
      (writeReg_of_not_accepts (s := { s with host := rest }) (not_accepts_of_busy_or_fault hst) 0 x),
    fun _ _ hi hst => exec_of_not_accepts (not_accepts_of_busy_or_fault hst) hi⟩

/-! ### FAULT and reset (R162, R163, R167, R168) -/

theorem unlessBusy_answers {f : State → State} {s : State} (hf : (f s).answers = s.answers) :
    (unlessBusy f s).answers = s.answers := by
  unfold unlessBusy
  split
  · rfl
  · exact hf

theorem resume_of_not_busy {s : State} (hb : s.st ≠ .busy) : resume s = .next s := if_neg hb

theorem blockStep_of_not_busy {s : State} (hb : s.st ≠ .busy) : blockStep s = .next s := if_neg hb

/-- In FAULT no answer is used, whatever the host does (R162). -/
theorem hostAct_of_fault_answers {act : HostAct} {s t : State} (hf : s.st = .fault) (h : hostAct act s = .next t) :
    t.answers = s.answers := by
  have hb : s.st ≠ .busy := by simp [hf]
  have ha : ¬ s.accepts = true := not_accepts_of_busy_or_fault (.inr hf)
  cases act with
  | pass => rw [hostAct, resume_of_not_busy hb] at h; cases h; rfl
  | tick => rw [hostAct, blockStep_of_not_busy hb] at h; cases h; rfl
  | write n x => rw [hostAct, writeReg_of_not_accepts ha] at h; cases h; rfl
  | busWrite addr x => rw [hostAct, busWrite_of_not_accepts ha] at h; cases h; rfl
  | setBin bits pos => cases h; exact unlessBusy_answers rfl
  | takeBout => cases h; exact unlessBusy_answers rfl
  | takeDst => cases h; exact unlessBusy_answers rfl
  | _ => cases h; rfl

theorem step_of_fault_answers {s t : State} (hf : s.st = .fault) (h : step s = .next t) : t.answers = s.answers := by
  cases hh : s.host with
  | nil => rw [step_block hh, blockStep_of_not_busy (by simp [hf])] at h; cases h; rfl
  | cons act rest => exact hostAct_of_fault_answers (s := { s with host := rest }) hf ((step_cons hh).symm.trans h)

/-- Settles O17: but for the reset, a step from FAULT changes nothing inside the block, and it uses no answer. -/
theorem faultIsLeftOnlyByReset : Obligations.FaultIsLeftOnlyByReset := by
  intro s t hf h hreset
  have hans := step_of_fault_answers hf h
  rcases step_of_fault hf h with ⟨rest, hh, -⟩ | hsame
  · exact absurd hh (hreset rest)
  · rw [hsame]
    exact ⟨hf, rfl, rfl, rfl, rfl, rfl, hans⟩

theorem step_reset {s : State} {rest : List HostAct} (hh : s.host = .reset :: rest) :
    step s = .next (applyReset { s with host := rest }) := step_cons hh

/-- Settles O19: the reset is one step, and in IDLE the block uses no answer. -/
theorem resetAbandonsTheCommandAndKeepsTheStreams : Obligations.ResetAbandonsTheCommandAndKeepsTheStreams := by
  intro s rest hh
  refine ⟨_, step_reset hh, rfl, rfl, rfl, rfl, rfl, rfl, rfl, rfl, rfl, rfl, ⟨rfl, rfl, rfl, rfl, rfl, rfl⟩, rfl, rfl,
    fun as => ?_⟩
  rw [step_block rfl]
  exact blockStep_of_not_busy (by simp)

/-! ### A run under a longer script (R48, R166) -/

/-- A run that does not wait goes the same way where more of the script follows, which it leaves (R162). -/
theorem run_append {as rest : List Answer} (hrest : rest.head? ≠ some .hold) {s : State}
    (hend : ∀ t, run as s = .next t → t.st ≠ .busy) :
    run (as ++ rest) s = andThen (run as s) fun t => .next { t with answers := t.answers ++ rest } := by
  induction as generalizing s with
  | nil =>
    rw [List.nil_append, run_settle s rest hrest, run, andThen_assoc]
    refine andThen_congr fun t ht => ?_
    have hb : t.st ≠ .busy := hend { t with answers := [] } (by rw [run, ht, andThen_next])
    cases rest with
    | nil => rfl
    | cons a as => exact if_neg hb
  | cons a as ih =>
    by_cases hb : s.st = .busy
    · have ha : a ≠ .hold := by
        rintro rfl
        exact hend _ (run_hold hb as) hb
      have hhead (bs : List Answer) : (a :: bs).head? ≠ some .hold := by simpa using ha
      rw [List.cons_append, run_settle s _ (hhead _), run_settle s _ (hhead _), andThen_assoc]
      refine andThen_congr fun t ht => ?_
      by_cases htb : t.st = .busy
      · simp only [if_pos htb, andThen_assoc]
        refine andThen_congr fun u hu => ih fun v hv => hend v ?_
        rw [run_cons_of_settled ht htb ha, hu, andThen_next, hv]
      · simp only [if_neg htb]
        rfl
    · rw [run_of_not_busy hb, run_of_not_busy hb]
      rfl

/-- A command goes by the script alone from where its start leaves it. -/
theorem StartsCommand.command_eq_run {op : BitVec 4} {start : State → State} (hc : StartsCommand op start) {s : State}
    (ha : s.accepts = true) (as : List Answer) :
    command op start { s with answers := as } = run as (start { s with cmd := op, st := .busy }) := by
  have hstart : start { s with answers := as, cmd := op, st := .busy }
      = { start { s with cmd := op, st := .busy } with answers := as } :=
    hc.inside.answers { s with cmd := op, st := .busy } as
  exact (command_run (s := { s with answers := as }) ha op start).trans
    ((congrArg (run as) hstart).trans (run_withAnswers ..))

theorem exec_append {i : Instr} (hi : i.space = .command) {s : State} (ha : s.accepts = true)
    {as rest : List Answer} (hrest : rest.head? ≠ some .hold)
    (hend : ∀ t, exec i { s with answers := as } = .next t → t.st ≠ .busy) :
    exec i { s with answers := as ++ rest } =
      andThen (exec i { s with answers := as }) fun t => .next { t with answers := t.answers ++ rest } := by
  obtain ⟨op, start, hc, he⟩ := exec_eq_command hi
  have hrun (bs : List Answer) : exec i { s with answers := bs } = run bs (start { s with cmd := op, st := .busy }) :=
    (he _).trans (hc.command_eq_run ha bs)
  simp only [hrun] at hend ⊢
  exact run_append hrest hend

theorem oks_append (n : Nat) (as : List Answer) : oks n [] ++ as = oks n as := by
  rw [oks, oks, List.append_nil]

theorem head?_oks_ne_hold (n : Nat) : (oks n []).head? ≠ some .hold := by
  rw [oks, List.append_nil]
  exact head?_replicate_ok_ne_hold n

/-! ### A command that ends after a number of results (R180, R182) -/

/-- In DONE or FAULT no command runs any more (R37). -/
def State.ended (s : State) : Prop := s.st = .done ∨ s.st = .fault

theorem State.ended.not_busy {s : State} (h : s.ended) : s.st ≠ .busy := by
  rcases h with h | h <;> simp [h]

/-- Some number of results leads to the end and is used up there, or it leads to the refusal of U3. -/
def EndsOnResults (f : State → Out) (s : State) : Prop :=
  ∃ n, Keeps (fun t => t.ended ∧ t.answers = []) s.par.width (f { s with answers := oks n [] })

/-- The command ends after as many results whatever answers follow them, and leaves these. -/
theorem EndsOnResults.leaves_rest {i : Instr} (hi : i.space = .command) {s : State} (ha : s.accepts = true)
    (h : EndsOnResults (exec i) s) :
    ∃ n, ∀ rest, rest.head? ≠ some .hold →
      Keeps (fun t => t.ended ∧ t.answers = rest) s.par.width (exec i { s with answers := oks n rest }) := by
  obtain ⟨n, hn⟩ := h
  refine ⟨n, fun rest hrest => ?_⟩
  have hend : ∀ t, exec i { s with answers := oks n [] } = .next t → t.st ≠ .busy := by
    intro t ht
    rcases hn with ⟨u, hu, hended, -⟩ | ⟨hrefused, -⟩
    · exact Host.Outcome.next.inj (hu.symm.trans ht) ▸ hended.not_busy
    · cases ht.symm.trans hrefused
  rw [← oks_append, exec_append hi ha hrest hend]
  exact hn.andThen fun t _ ⟨hended, hans⟩ => .next ⟨hended, congrArg (· ++ rest) hans⟩

theorem endsOnResults_nil {s : State} (h : s.st = .done) : EndsOnResults (program []) s := ⟨0, .next ⟨.inl h, rfl⟩⟩

theorem Keeps.of_next {P : State → Prop} {w : Option Nat} {o : Out} {t : State} (h : Keeps P w o) (ho : o = .next t) :
    P t := by
  rcases h with ⟨u, hu, hP⟩ | ⟨hrefused, -⟩
  · exact Host.Outcome.next.inj (ho.symm.trans hu) ▸ hP
  · cases ho.symm.trans hrefused

/-- A program ends where its first command does and, if that ends in DONE, the rest of it. -/
theorem EndsOnResults.cons {i : Instr} {is : List Instr} (hi : i.space = .command) {s : State} (hs : s.Inv)
    (ha : s.accepts = true) (h : EndsOnResults (exec i) s)
    (hnext : ∀ as t, exec i { s with answers := as } = .next t → t.Inv → t.st = .done → EndsOnResults (program is) t) :
    EndsOnResults (program (i :: is)) s := by
  obtain ⟨n, ⟨t, ht, hended, hans⟩ | ⟨hrefused, hw⟩⟩ := h
  · obtain ⟨hinv, hpar⟩ := Keeps.of_next (inv_exec (hs.congr (oks n []) s.host) hi) ht
    by_cases hdone : t.st = .done
    · obtain ⟨m, hm⟩ := hnext _ t ht hinv hdone
      have hexec : exec i { s with answers := oks (n + m) [] } = .next { t with answers := oks m [] } := by
        have happend := exec_append (rest := oks m []) hi ha (head?_oks_ne_hold m)
          fun u hu => Host.Outcome.next.inj (ht.symm.trans hu) ▸ hended.not_busy
        rw [oks_append, ← oks_add, ht, andThen_next, hans, List.nil_append] at happend
        exact happend
      refine ⟨n + m, ?_⟩
      rw [program, hexec, andThen_next, if_pos hdone, ← show t.par.width = s.par.width from congrArg _ hpar]
      exact hm
    · refine ⟨n, .inl ⟨t, ?_, hended, hans⟩⟩
      rw [program, ht, andThen_next, if_neg hdone]
  · exact ⟨n, .inr ⟨by rw [program, hrefused, andThen_refused], hw⟩⟩

/-! ### The units that the encode side starts with (R83, R89, R109) -/

/-- A unit whose "requires" column is not met takes its UsageError with no answer (R30). -/
theorem unmet_ends {u : UnitCmd} {body : State → State} {s : State} (ha : s.accepts = true)
    (hr : requires u s = false) : EndsOnResults (command u.opcode (beginUnit u body)) s := by
  have hr' : requires u { s with answers := oks 0 [] } = false := by rw [← hr]; cases u <;> rfl
  obtain ⟨t, ht, htook, -, -, hans, -⟩ := unmet_raisesUsageError (s := { s with answers := oks 0 [] }) ha hr' body
  exact ⟨0, .inl ⟨t, ht, .inr htook.halted.2, hans⟩⟩

theorem fcnt_ends {s : State} (hs : s.Inv) (ha : s.accepts = true) : EndsOnResults (exec .fcnt) s := by
  obtain ⟨-, hrefused, -⟩ := countsBeyondTheWidthAreRefused
  obtain ⟨n, hn⟩ : ∃ n, n = (s.src.drop s.srcPos).length + 1 := ⟨_, rfl⟩
  refine ⟨n, ?_⟩
  by_cases hw : ∀ y, widthFits s.par.width ((s.src.drop s.srcPos).count y) = true
  · obtain ⟨ft, -, -, hexec⟩ := fcntCountsTheBytes { s with answers := oks n [] } [] ha hs.srcPos_le hw
      (by rw [hn])
    exact .inl ⟨_, hexec, .inl rfl, rfl⟩
  · obtain ⟨y, hy⟩ := not_forall.mp hw
    exact .inr ⟨hrefused { s with answers := oks n [] } y [] ha (by rw [hn]) (Bool.eq_false_iff.mpr hy), width_ne_none hy⟩

theorem tbld_ends {s : State} (ha : s.accepts = true) : EndsOnResults (exec .tbld) s := by
  obtain ⟨-, -, hrefused, -⟩ := countsBeyondTheWidthAreRefused
  cases hf : s.ftValid with
  | false => exact unmet_ends (u := .tbld) ha hf
  | true =>
    refine ⟨0, ?_⟩
    by_cases hw : widthFits s.par.width (1 + s.ft.toList.sum) = true
    · obtain ⟨T, e, a, c, hexec, -⟩ := tbldBuildsTheTree { s with answers := oks 0 [] } ha hf (head?_oks_ne_hold 0) hw
      exact .inl ⟨_, hexec, .inl rfl, rfl⟩
    · exact .inr ⟨hrefused { s with answers := oks 0 [] } ha hf (head?_oks_ne_hold 0) (Bool.eq_false_iff.mpr hw),
        width_ne_none hw⟩

theorem ctdr_ends {s : State} (ha : s.accepts = true) : EndsOnResults (exec .ctdr) s := by
  cases ht : s.treeValid with
  | false => exact unmet_ends (u := .ctdr) ha ht
  | true =>
    obtain ⟨ct, path, hexec, -⟩ := ctdrDerivesTheCodes { s with answers := oks 0 [] } ha ht (head?_oks_ne_hold 0)
    exact ⟨0, .inl ⟨_, hexec, .inl rfl, rfl⟩⟩

theorem tser_ends {s : State} (ha : s.accepts = true) : EndsOnResults (exec .tser) s := by
  cases ht : s.treeValid with
  | false => exact unmet_ends (u := .tser) ha ht
  | true =>
    exact ⟨s.tree.txns, .inl ⟨_, tserAppendsTheSerializedTree { s with answers := oks s.tree.txns [] } [] ha ht rfl,
      .inl rfl, rfl⟩⟩

/-! ### SENC (R116, R119) -/

/-- Where not all of a list has a property, there is a first element without it. -/
theorem exists_first_not {α : Type} {P : α → Prop} {l : List α} (h : ¬ ∀ a ∈ l, P a) :
    ∃ as a bs, l = as ++ a :: bs ∧ (∀ x ∈ as, P x) ∧ ¬ P a := by
  classical
  cases hfind : l.find? (fun a => !decide (P a)) with
  | none => exact absurd (by simpa using hfind) h
  | some a =>
    obtain ⟨ha, as, bs, hl, has⟩ := List.find?_eq_some_iff_append.mp hfind
    exact ⟨as, a, bs, hl, by simpa using has, by simpa using ha⟩

/-- SENC comes to the first symbol without a Code and raises there (R119). -/
theorem senc_uncoded_ends {s : State} {ys : List Byte} (ha : s.accepts = true) (ht : s.treeValid = true)
    (hv : s.ctValid = true) (hys : ∀ y ∈ ys, ctAt s.ct (symbolOfByte y) ≠ none)
    (hnext : (∃ y zs, s.src = ys ++ y :: zs ∧ ctAt s.ct (symbolOfByte y) = none) ∨
      (s.src = ys ∧ ctAt s.ct eofSym = none)) : EndsOnResults (exec .senc) s := by
  obtain ⟨n, hn⟩ : ∃ n, n = 1 + s.tree.txns + 1 + (ys.length + 1) + (codesOf s.ct ys).length := ⟨_, rfl⟩
  obtain ⟨hbyte, heof⟩ := symbolWithoutCodeRaisesInternalConsistency { s with answers := oks n [] } ys [] ha ht hv hys
    (by rw [hn]; rfl)
  rcases hnext with ⟨y, zs, hsrc, hnone⟩ | ⟨hsrc, hnone⟩
  · obtain ⟨t, hexec, htook, -, hans⟩ := hbyte y zs hsrc hnone
    exact ⟨n, .inl ⟨t, hexec, .inr htook.halted.2, hans⟩⟩
  · obtain ⟨t, hexec, htook, -, hans⟩ := heof hsrc hnone
    exact ⟨n, .inl ⟨t, hexec, .inr htook.halted.2, hans⟩⟩

theorem senc_ends {s : State} (ha : s.accepts = true) : EndsOnResults (exec .senc) s := by
  cases hr : requires .senc s with
  | false => exact unmet_ends (u := .senc) ha hr
  | true =>
    obtain ⟨ht, hv⟩ := Bool.and_eq_true_iff.mp hr
    by_cases hbytes : ∀ y ∈ s.src, ctAt s.ct (symbolOfByte y) ≠ none
    · by_cases heof : ctAt s.ct eofSym = none
      · exact senc_uncoded_ends ha ht hv hbytes (.inr ⟨rfl, heof⟩)
      · obtain ⟨n, hn⟩ : ∃ n, n = sencTxns s.tree s.ct s.src := ⟨_, rfl⟩
        exact ⟨n, .inl ⟨_, sencWritesTheFile { s with answers := oks n [] } [] ha ht hv ⟨hbytes, heof⟩ (by rw [hn]),
          .inl rfl, rfl⟩⟩
    · obtain ⟨ys, y, zs, hsrc, hys, hy⟩ := exists_first_not hbytes
      exact senc_uncoded_ends ha ht hv hys (.inl ⟨y, zs, hsrc, not_not.mp hy⟩)

/-! ### MCHK (R126, R127) -/

/-- Where 32 bits are left they are MAGIC or not; where fewer are left, the read ends the command. -/
theorem gate_ends {s : State} {i : Instr} (hi : i = .mchk ∨ i = .decode) (ha : s.accepts = true)
    (hmagic : ∀ bs, s.bin.drop s.binPos ≠ toBits 32 s.par.magic.toNat ++ bs) : EndsOnResults (exec i) s := by
  by_cases hlen : s.binPos + 32 ≤ s.bin.length
  · obtain ⟨v, bs, hv, hd⟩ := drop_eq_toBits_append hlen
    have hne : v ≠ s.par.magic.toNat := by
      rintro rfl
      exact hmagic bs hd
    obtain ⟨t, hexec, htook, -, hans⟩ :=
      wrongMagicRaisesInvalidFormat { s with answers := oks 1 [] } i v bs [] ha hi hv hne hd rfl
    exact ⟨1, .inl ⟨t, hexec, .inr htook.halted.2, hans⟩⟩
  · obtain ⟨t, hexec, htook, -, hans⟩ :=
      shortMagicRaisesInvalidFormat { s with answers := oks 1 [] } i [] ha hi (Nat.lt_of_not_le hlen) rfl
    exact ⟨1, .inl ⟨t, hexec, .inr htook.halted.2, hans⟩⟩

theorem mchk_ends {s : State} (ha : s.accepts = true) : EndsOnResults (exec .mchk) s := by
  by_cases hmagic : ∃ bs, s.bin.drop s.binPos = toBits 32 s.par.magic.toNat ++ bs
  · obtain ⟨bs, hd⟩ := hmagic
    exact ⟨1, .inl ⟨_, mchkAcceptsTheMagic { s with answers := oks 1 [] } bs [] ha hd rfl, .inl rfl, rfl⟩⟩
  · exact gate_ends (.inl rfl) ha (not_exists.mp hmagic)

/-! ### TDES (R101 to R107) -/

/-- Some number of results leads to the end. -/
def StepsToEnd (s : State) : Prop := ∃ n t, Steps n s t ∧ t.ended

theorem State.ended.stepsToEnd {s : State} (h : s.ended) : StepsToEnd s := ⟨0, s, .refl s, h⟩

theorem Steps.toEnd {n : Nat} {s t : State} (h : Steps n s t) (ht : StepsToEnd t) : StepsToEnd s := by
  obtain ⟨m, u, hu, hended⟩ := ht
  exact ⟨n + m, u, h.trans hu, hended⟩

theorem StepsToEnd.ends {op : BitVec 4} {start : State → State} (hc : StartsCommand op start) {s : State}
    (ha : s.accepts = true) (h : StepsToEnd (start { s with cmd := op, st := .busy })) :
    EndsOnResults (command op start) s := by
  obtain ⟨n, t, ht, hended⟩ := h
  exact ⟨n, .inl ⟨_, (hc.command_eq_run ha _).trans (ht.end hended.not_busy []), hended, rfl⟩⟩

/-- An answered read of TDES takes a bit at least, or it raises (R45, R102). -/
theorem tdes_reads {u v : State} (hph : u.phase = .tdWalk)
    (hp : u.pend = some .binReadBit ∨ u.pend = some (.binReadBits 9)) (h : transact false u = .next v) :
    v.ended ∨ u.binPos < v.binPos := by
  obtain ⟨-, -, -, -, x, hx, hstreams⟩ := transact_keeps h
  have hpos : v.binPos = (perform x u).2.binPos := State.sameStreams.binPos hstreams
  rcases hp with hp | hp <;> obtain rfl := Option.some.inj (hp.symm.trans hx)
  · cases hd : u.bin.drop u.binPos with
    | nil =>
      rw [transact_marker hp (perform_binReadBit_end hd) hph] at h
      obtain rfl := Host.Outcome.next.inj h
      exact .inl (.inr rfl)
    | cons b bs =>
      rw [hpos, perform_binReadBit_val hd]
      exact .inr (Nat.lt_succ_self _)
  · by_cases hlen : u.binPos + 9 ≤ u.bin.length
    · obtain ⟨n, bs, hn, hd⟩ := drop_eq_toBits_append hlen
      rw [hpos, perform_binReadBits_val hn (by decide) hd]
      exact .inr (Nat.lt_add_of_pos_right (by decide))
    · rw [transact_symbol hp (perform_binReadBits_end (by omega)) hph] at h
      obtain rfl := Host.Outcome.next.inj h
      exact .inl (.inr rfl)

/-- Where TDES waits it waits for a read; elsewhere it has ended. -/
theorem TdesStands.cases_ended {s u : State} (h : TdesStands s u) :
    u.ended ∨ (u.st = .busy ∧ u.phase = .tdWalk ∧ (u.pend = some .binReadBit ∨ u.pend = some (.binReadBits 9))) := by
  cases h with
  | atMarker hb hph _ hp _ => exact .inr ⟨hb, hph, .inl hp⟩
  | atSymbol hb hph _ hp _ => exact .inr ⟨hb, hph, .inr hp⟩
  | done hd _ _ => exact .inl (.inl hd)
  | fault hf => exact .inl (.inr hf)

/-- TDES ends: each of its transactions takes one of the bits left, and the invariant leaves it no stop (R41, R101). -/
theorem TdesStands.stepsToEnd {s u : State} (h : TdesStands s u) (hu : u.Inv) : StepsToEnd u := by
  induction hn : u.bin.length - u.binPos using Nat.strong_induction_on generalizing u with
  | _ n ih =>
    rcases h.cases_ended with hended | ⟨hb, hph, hp⟩
    · exact hended.stepsToEnd
    obtain ⟨x, hx⟩ : ∃ x, u.pend = some x := hp.elim (fun h => ⟨_, h⟩) fun h => ⟨_, h⟩
    have hrank : rank u = 0 := by simp [rank, hx]
    have hleads := transact_header (s := u) (by simp [hph]) false
    rcases inv_transact false hu hb hrank with ⟨v, hv, hinv, -⟩ | ⟨hrefused, -⟩
    · have hstep : Steps 1 u v := .txn hb hx ((transact_ok hx).symm.trans hv)
      refine hstep.toEnd ?_
      rcases tdes_reads hph hp hv with hended | hlt
      · exact hended.stepsToEnd
      · have hbin : v.bin = u.bin := (transact_forward hv).bin
        have hle := hinv.binPos_le
        rw [hbin] at hle
        exact ih _ (by rw [hbin]; omega) (h.transact hb hv) hinv rfl
    · exact absurd hrefused hleads.not_refused

theorem tdesStands_start (s : State) : TdesStands s (tdesStart { s with cmd := 0x7, st := .busy }) := by
  rw [tdes_start]
  exact .atMarker rfl rfl rfl rfl ⟨rfl, rfl, rfl, List.nil_prefix⟩

theorem tdes_ends {s : State} (hs : s.Inv) (ha : s.accepts = true) : EndsOnResults (exec .tdes) s :=
  StepsToEnd.ends startsCommand_tdes ha
    ((tdesStands_start s).stepsToEnd (startsCommand_tdes.inv _ (hs.pre_of_accepts ha _) rfl))

/-! ### SDEC (R129 to R137) -/

/-- The bits that stand next on BIN go on with a Code of the tree, or they end inside one (R79, R131). -/
theorem Tree.code_or_cut (t : Tree) (bits : List Bit) :
    ∃ sym code, (sym, code) ∈ t.codes ∧ (code <+: bits ∨ (bits <+: code ∧ bits ≠ code)) := by
  induction t generalizing bits with
  | leaf sym w => exact ⟨sym, [], List.mem_singleton_self _, .inl List.nil_prefix⟩
  | internal l r w hl hr =>
    have hmem (x : Bit) {sym : Symbol} {code : Code} (h : (sym, code) ∈ (if x then r else l).codes) :
        (sym, x :: code) ∈ (internal l r w).codes := by
      cases x
      · exact List.mem_append_left _ (List.mem_map.mpr ⟨_, h, rfl⟩)
      · exact List.mem_append_right _ (List.mem_map.mpr ⟨_, h, rfl⟩)
    cases bits with
    | nil =>
      obtain ⟨sym, code, h, -⟩ := hl []
      exact ⟨sym, _, hmem false h, .inr ⟨List.nil_prefix, by simp⟩⟩
    | cons x bits =>
      obtain ⟨sym, code, h, hnext⟩ : ∃ sym code, (sym, code) ∈ (if x then r else l).codes ∧
          (code <+: bits ∨ (bits <+: code ∧ bits ≠ code)) := by
        cases x
        · exact hl bits
        · exact hr bits
      refine ⟨sym, _, hmem x h, hnext.imp (fun hpre => ?_) fun ⟨hpre, hne⟩ => ⟨?_, by simpa using hne⟩⟩
      · exact List.cons_prefix_cons.mpr ⟨rfl, hpre⟩
      · exact List.cons_prefix_cons.mpr ⟨rfl, hpre⟩

/-- Only the symbol of a root that is a leaf has the empty Code (R79). -/
theorem Tree.eq_leaf_of_code_nil {t : Tree} {sym : Symbol} (h : (sym, []) ∈ t.codes) : ∃ w, t = .leaf sym w := by
  cases t with
  | leaf sym' w =>
    obtain rfl : sym = sym' := congrArg Prod.fst (List.mem_singleton.mp h)
    exact ⟨w, rfl⟩
  | internal l r w => simp [codes] at h

/-- Every symbol but the EOF-symbol is a byte's (R14). -/
theorem exists_symbolOfByte {sym : Symbol} (h : sym ≠ eofSym) : ∃ y, sym = symbolOfByte y := by
  have hne : sym.val ≠ 256 := fun hval => h (Fin.ext hval)
  have hlt : sym.val < 2 ^ 8 := by have := sym.isLt; omega
  refine ⟨byteOfSymbol sym, Fin.ext ?_⟩
  rw [symbolOfByte_val, byteOfSymbol, BitVec.toNat_ofNat, Nat.mod_eq_of_lt hlt]

/-- The root is no byte's leaf, or no bit is left: SDEC does not come to the run of R180. -/
def State.leavesPayload (s : State) : Prop :=
  ∀ y w, s.tree = .leaf (symbolOfByte y) w → s.bin.length ≤ s.binPos

/-- SDEC ends where its root is no byte's leaf: every Code takes a bit at least (R129, R137). -/
theorem sdecOuter_stepsToEnd {s : State} (hb : s.st = .busy) (hp : s.pend = none) (hleaf : s.leavesPayload) :
    StepsToEnd (sdecOuter s) := by
  induction hn : s.bin.length - s.binPos using Nat.strong_induction_on generalizing s with
  | _ n ih =>
    by_cases hmore : s.binPos < s.bin.length
    · obtain ⟨sym, code, hmem, ⟨bs, hd⟩ | ⟨hpre, hne⟩⟩ := s.tree.code_or_cut (s.bin.drop s.binPos)
      · have hbits : code ++ bs ≠ [] := by
          rw [hd, ne_eq, List.drop_eq_nil_iff]; omega
        by_cases heof : sym = eofSym
        · subst heof
          obtain ⟨b, cur, hsteps⟩ := eof_steps hb hp hmem hd.symm hbits
          exact hsteps.toEnd (State.ended.stepsToEnd (.inl rfl))
        · obtain ⟨y, rfl⟩ := exists_symbolOfByte heof
          have hcode : code ≠ [] := by
            rintro rfl
            obtain ⟨w, htree⟩ := Tree.eq_leaf_of_code_nil hmem
            exact absurd (hleaf y w htree) (Nat.not_le.mpr hmore)
          obtain ⟨b, cur, hsteps⟩ := symbol_steps hb hp hmem hd.symm hbits
          have hpos := List.length_pos_iff.mpr hcode
          refine hsteps.toEnd (ih _ ?_ hb hp (fun y w htree => ?_) rfl)
          · show s.bin.length - (s.binPos + code.length) < n
            omega
          · exact (hleaf y w htree).trans (Nat.le_add_right ..)
      · obtain ⟨u, -, -, hsteps⟩ := cut_steps s.tree (s := { s with phase := .sdWalk }) hb hp rfl hmem hpre hne rfl
        exact (sdecOuter_step hb hp hmore).toEnd (hsteps.toEnd (State.ended.stepsToEnd (.inr rfl)))
    · exact (sdecOuter_end hb hp (Nat.not_lt.mp hmore)).toEnd (State.ended.stepsToEnd (.inl rfl))

theorem sdec_ends {s : State} (ha : s.accepts = true) (hleaf : s.leavesPayload) : EndsOnResults (exec .sdec) s := by
  cases ht : s.treeValid with
  | false => exact unmet_ends (u := .sdec) ha ht
  | true =>
    refine StepsToEnd.ends startsCommand_sdec ha ?_
    rw [sdec_start (s := { s with cmd := 0x9, st := .busy }) ht]
    exact sdecOuter_stepsToEnd (s := s.startedSdec) rfl rfl hleaf

/-! ### ENCODE and DECODE (R123, R138) -/

theorem EndsOnResults.single {i : Instr} (hi : i.space = .command) {s : State} (hs : s.Inv) (ha : s.accepts = true)
    (h : EndsOnResults (exec i) s) : EndsOnResults (program [i]) s :=
  h.cons hi hs ha fun _ _ _ _ hdone => endsOnResults_nil hdone

theorem accepts_of_done {s : State} (h : s.st = .done) : s.accepts = true := accepts_iff.mpr (.inr h)

theorem hold_not_mem_oks (n : Nat) : Answer.hold ∉ oks n [] := by
  simp [oks]

/-- States that agree but for CMD agree on whether the command has ended and what answers are left. -/
theorem ended_of_eq_but_cmd {t u : State} (h : { t with cmd := 0 } = { u with cmd := 0 })
    (hu : u.ended ∧ u.answers = []) : t.ended ∧ t.answers = [] := by
  have hst : t.st = u.st := (congrArg State.st h :)
  have hans : t.answers = u.answers := (congrArg State.answers h :)
  rwa [State.ended, hst, hans]

theorem encode_ends {s : State} (hs : s.Inv) (ha : s.accepts = true) : EndsOnResults (exec .encode) s := by
  have hprogram : EndsOnResults (program [.fcnt, .tbld, .ctdr, .senc]) s :=
    (fcnt_ends hs ha).cons rfl hs ha fun _ _ _ h₁ hd₁ =>
    (tbld_ends (accepts_of_done hd₁)).cons rfl h₁ (accepts_of_done hd₁) fun _ _ _ h₂ hd₂ =>
    (ctdr_ends (accepts_of_done hd₂)).cons rfl h₂ (accepts_of_done hd₂) fun _ _ _ h₃ hd₃ =>
    (senc_ends (accepts_of_done hd₃)).single rfl h₃ (accepts_of_done hd₃)
  obtain ⟨n, hn⟩ := hprogram
  refine ⟨n, ?_⟩
  rcases encodeEqualsItsProgram { s with answers := oks n [] } (hs.congr _ s.host) ha (hold_not_mem_oks n) with
    ⟨t, u, ht, hu, heq⟩ | ⟨hrefused, -, hw⟩
  · exact .inl ⟨t, ht, ended_of_eq_but_cmd heq (hn.of_next hu)⟩
  · exact .inr ⟨hrefused, hw⟩

/-- However MCHK has come to DONE where MAGIC stands next, BIN is read up to what follows it (R126). -/
theorem mchk_done {s t : State} {bs : List Bit} (ha : s.accepts = true)
    (hd : s.bin.drop s.binPos = toBits 32 s.par.magic.toNat ++ bs) (h : exec .mchk s = .next t) (ht : t.st = .done) :
    t.bin.drop t.binPos = bs := by
  have hgate := mchk_steps (s := { s with cmd := 0xA, st := .busy }) rfl hd
  rw [mchkEnd_mchk rfl] at hgate
  have heq := hgate.done_eq rfl ((command_run ha 0xA mchkStart).symm.trans h) ht
  have hbin : t.bin = s.bin := (congrArg State.bin heq :)
  have hpos : t.binPos = s.binPos + 32 := (congrArg State.binPos heq :)
  rw [hbin, hpos]
  simpa using drop_add_of_drop hd

/-- TDES leaves a byte's leaf with a bit after it only where it has read one (R108). -/
theorem tdes_leavesPayload {s t : State} (ha : s.accepts = true) (h : exec .tdes s = .next t) (ht : t.st = .done)
    (hbits : ∀ (y : Byte) bs, bs ≠ [] → s.bin.drop s.binPos ≠ false :: toBits 9 y.toNat ++ bs) : t.leavesPayload := by
  intro y w htree
  obtain ⟨-, hread⟩ := tdes_done ha h ht
  by_contra hlt
  obtain ⟨bs, hbs⟩ := hread.isPrefix
  refine hbits y bs ?_ (by rw [← hbs, htree]; rfl)
  rintro rfl
  have hlen := congrArg List.length hbs
  rw [List.append_nil, List.length_drop] at hlen
  rw [hread.bin, hread.binPos] at hlt
  omega

theorem decode_ends {s : State} (hs : s.Inv) (ha : s.accepts = true)
    (hfile : ∀ (y : Byte) bs, bs ≠ [] →
      s.bin.drop s.binPos ≠ toBits 32 s.par.magic.toNat ++ false :: toBits 9 y.toNat ++ bs) :
    EndsOnResults (exec .decode) s := by
  by_cases hmagic : ∃ bs, s.bin.drop s.binPos = toBits 32 s.par.magic.toNat ++ bs
  · obtain ⟨bits, hd⟩ := hmagic
    have hprogram : EndsOnResults (program [.mchk, .tdes, .sdec]) s :=
      (mchk_ends ha).cons rfl hs ha fun as t₁ he₁ h₁ hd₁ =>
      (tdes_ends h₁ (accepts_of_done hd₁)).cons rfl h₁ (accepts_of_done hd₁) fun bs t₂ he₂ h₂ hd₂ =>
      have hnext : t₁.bin.drop t₁.binPos = bits := mchk_done (s := { s with answers := as }) ha hd he₁ hd₁
      have hleaf : t₂.leavesPayload :=
        tdes_leavesPayload (s := { t₁ with answers := bs }) (accepts_of_done hd₁) he₂ hd₂ fun y bs' hne hbits =>
          hfile y bs' hne (by rw [hd, ← hnext, hbits]; simp)
      (sdec_ends (accepts_of_done hd₂) hleaf).single rfl h₂ (accepts_of_done hd₂)
    obtain ⟨n, hn⟩ := hprogram
    obtain ⟨t, u, ht, hu, heq⟩ :=
      decodeEqualsItsProgram { s with answers := oks n [] } (hs.congr _ s.host) ha (hold_not_mem_oks n)
    exact ⟨n, .inl ⟨t, ht, ended_of_eq_but_cmd heq (hn.of_next hu)⟩⟩
  · exact gate_ends (.inr rfl) ha (not_exists.mp hmagic)

/-! ### Every command but the exception ends (R180, R182) -/

theorem reserved_ends {op : BitVec 4} {s : State} (ha : s.accepts = true) :
    EndsOnResults (command op (reservedStart op)) s :=
  StepsToEnd.ends (startsCommand_reserved op) ha (State.ended.stepsToEnd (.inr rfl))

/-- Each command ends by its own unit's lemma, the composite ones by their programs. -/
theorem exec_ends {i : Instr} (hi : i.space = .command) {s : State} (hs : s.Inv) (ha : s.accepts = true)
    (hsdec : i = .sdec → s.leavesPayload)
    (hdecode : i = .decode → ∀ (y : Byte) bs, bs ≠ [] →
      s.bin.drop s.binPos ≠ toBits 32 s.par.magic.toNat ++ false :: toBits 9 y.toNat ++ bs) :
    EndsOnResults (exec i) s := by
  cases i with
  | encode => exact encode_ends hs ha
  | decode => exact decode_ends hs ha (hdecode rfl)
  | fcnt => exact fcnt_ends hs ha
  | tbld => exact tbld_ends ha
  | ctdr => exact ctdr_ends ha
  | tser => exact tser_ends ha
  | tdes => exact tdes_ends hs ha
  | senc => exact senc_ends ha
  | sdec => exact sdec_ends ha (hsdec rfl)
  | mchk => exact mchk_ends ha
  | fileMagic => cases hi
  | fileNodeInternal => cases hi
  | fileNodeLeaf v => cases hi
  | _ => exact reserved_ends ha

/-! ### The endless run (R136, R180) -/

/-- SDEC on a byte's leaf with a bit left comes to the endless run. -/
theorem exec_sdec_endless {s : State} {y : Byte} {w : Nat} (ha : s.accepts = true) (ht : s.treeValid = true)
    (htree : s.tree = .leaf (symbolOfByte y) w) (hmore : s.binPos < s.bin.length) (hf : .fail ∉ s.answers) :
    ∃ t, exec .sdec s = .next t ∧ t.endless y := by
  obtain ⟨t, -, hrun, hend, -⟩ :=
    endless_run (s := sdecOuter s.startedSdec) hf ⟨rfl, ⟨w, htree⟩, hmore, .inl ⟨rfl, rfl⟩⟩
  exact ⟨t, (exec_sdec ha ht rfl).trans hrun, hend⟩

/-- So does DECODE of a file whose tree is a byte's leaf, after the three transactions of its header. -/
theorem exec_decode_endless {s : State} {y : Byte} {bs : List Bit} (ha : s.accepts = true)
    (hcap : fitsCap s.par.nodeCap 1) (hne : bs ≠ [])
    (hd : s.bin.drop s.binPos = toBits 32 s.par.magic.toNat ++ false :: toBits 9 y.toNat ++ bs)
    (hr : s.answers = oks 3 []) : ∃ t, exec .decode s = .next t ∧ t.endless y := by
  obtain ⟨b, v, hheader, hbits⟩ := tookHeader_steps (s := { s with cmd := opDecode, st := .busy })
    (T := .leaf (symbolOfByte y) 1) (bs := bs) rfl rfl (by simpa [Tree.ser] using hd) hcap
  exact ⟨_, ((command_oks ha hr opDecode mchkStart).trans (hheader [])).trans (run_blocked rfl),
    rfl, ⟨1, rfl⟩, lt_of_drop hbits hne, .inl ⟨rfl, rfl⟩⟩

/-- The outcome is a state of the endless run with no failure ahead. -/
def GoesOn (y : Byte) (o : Out) : Prop := ∃ t, o = .next t ∧ t.endless y ∧ .fail ∉ t.answers

theorem endless_blockStep {s : State} {y : Byte} (h : s.endless y) (hf : .fail ∉ s.answers) :
    GoesOn y (blockStep s) := by
  obtain ⟨x, hp⟩ := endless_pend h
  have hb : s.st = .busy := h.1
  cases ha : s.answers with
  | nil => exact ⟨s, blockStep_wait hp ha, h, hf⟩
  | cons a as =>
    rw [ha, List.mem_cons, not_or] at hf
    obtain ⟨hne, hf⟩ := hf
    cases a with
    | fail => exact absurd rfl hne
    | hold => exact ⟨_, blockStep_hold hb hp ha, h, hf⟩
    | ok =>
      obtain ⟨u, hu, hend, -⟩ := endless_deliver h hp
      exact ⟨{ u with answers := as }, by rw [blockStep_ok hb hp ha, hu, andThen_next], hend, hf⟩

theorem endless_resume {s : State} {y : Byte} (h : s.endless y) (hf : .fail ∉ s.answers) : GoesOn y (resume s) := by
  obtain ⟨t, -, hrun, hend, -⟩ := endless_run hf h
  exact ⟨t, (if_pos h.1).trans hrun, hend, fun hmem => hf ((run_answers_suffix hrun).subset hmem)⟩

/-- But for a reset, no action of the host leaves the endless run (R169, R172, R180). -/
theorem endless_hostAct {s : State} {y : Byte} (h : s.endless y) (hf : .fail ∉ s.answers) {act : HostAct}
    (hact : act ≠ .reset) : GoesOn y (hostAct act s) := by
  have hb : s.st = .busy := h.1
  have ha : ¬ s.accepts = true := not_accepts_of_busy_or_fault (.inl hb)
  have hstays : GoesOn y (.next s) := ⟨s, rfl, h, hf⟩
  have hlost (f : State → State) : GoesOn y (.next (unlessBusy f s)) := by rwa [unlessBusy, if_pos hb]
  cases act with
  | reset => exact absurd rfl hact
  | pass => exact endless_resume h hf
  | tick => exact endless_blockStep h hf
  | write n x => rwa [hostAct, writeReg_of_not_accepts ha]
  | busWrite addr x => rwa [hostAct, busWrite_of_not_accepts ha]
  | read n => exact hstays
  | busRead addr => exact hstays
  | setSrc bytes pos => exact ⟨_, rfl, h, hf⟩
  | setBin bits pos => exact hlost _
  | takeBout => exact hlost _
  | takeDst => exact hlost _

theorem endless_step {s : State} {y : Byte} (h : s.endless y) (hf : .fail ∉ s.answers)
    (hreset : ∀ rest, s.host ≠ .reset :: rest) : GoesOn y (step s) := by
  cases hh : s.host with
  | nil => rw [step_block hh]; exact endless_blockStep h hf
  | cons act rest =>
    rw [step_cons hh]
    exact endless_hostAct (s := { s with host := rest }) h hf fun hact => hreset rest (hact ▸ hh)

/-- Settles O59: every command ends after its own number of results, whatever follows them; the exception comes to the
endless run, which only a reset leaves. -/
theorem commandsEndIfAnswered : Obligations.CommandsEndIfAnswered := by
  refine ⟨fun s i hs ha hi hsdec hdecode => ?_, fun s y w ha ht htree hmore hf => exec_sdec_endless ha ht htree hmore hf,
    fun s y bs ha hcap hne hd hr => exec_decode_endless ha hcap hne hd hr,
    fun s y h hf hreset => endless_step h hf hreset, fun s y rest _ hh => ⟨_, step_reset hh, rfl⟩⟩
  obtain ⟨n, hn⟩ := (exec_ends hi hs ha hsdec hdecode).leaves_rest hi ha
  refine ⟨n, fun rest hrest => ?_⟩
  rcases hn rest hrest with ⟨t, ht, hended, hans⟩ | hrefused
  · exact .inl ⟨t, ht, hended, hans⟩
  · exact .inr hrefused

end Sys2Proof.Machine
